-- ==== Sys2Proof/Word.lean ====
section
/-!
DEFINITION. Word.lean: the word types of the core (00_scope R5, R7). All values are unsigned bit
vectors; `+` and `-` on a bit vector are modulo `2^n`, as rule R7 says.
-/

namespace Sys2Proof

/-- A 16-bit value: a register pair, an address, an effective opcode (00_scope R5). -/
abbrev Word := BitVec 16

/-- An 8-bit value: a register half, the data line, a memory byte (00_scope R5). -/
abbrev Byte := BitVec 8

/-- A running total: `CTR_WIDTH` = 64 bits, wrapping (00_scope R6, 10_state R47). -/
abbrev Counter := BitVec 64

/-- The step counter: 8 bits wide (10_state R44). -/
abbrev StepCount := BitVec 8

end Sys2Proof
end

