-- ==== Sys2Proof/Config.lean ====
section
/-!
DEFINITION. Config.lean: the parameters of 00_scope R6 that stay fixed for a whole run. A value of
`Config` is held in the state, so that every statement speaks about every choice of them; the
spec's defaults are `Config.default`. The parameters that the spec gives one value (four T-states in
every machine cycle, 64-bit totals) are constants of the model.
-/

namespace Sys2Proof

/-- `UNKNOWN_OPCODE_POLICY` (00_scope R6, 60_exceptions R300): what an effective opcode with no table
entry does. -/
inductive Policy where
  | noop
  | strict
deriving DecidableEq, Repr

/-- A range of addresses that does not accept writes: the addresses `base`, ..., `base + size - 1`
(20_memory R76: "A read-only region is modelled by `WRITABLE(a) = false` there"). -/
structure Region where
  base : Nat
  size : Nat
deriving DecidableEq, Repr

/-- The fixed parameters of a run. `readOnly` lists the ranges where `WRITABLE` is false; every
predicate on the 65,536 addresses is such a list. -/
structure Config where
  policy   : Policy
  readOnly : List Region
deriving DecidableEq, Repr

/-- The spec's defaults: `noop`, and `WRITABLE(a) = true` for every `a` (00_scope R6). -/
def Config.default : Config := { policy := .noop, readOnly := [] }

/-- T-states in every machine cycle: `TSTATES(op, M) = 4` (00_scope R6, 40_sequencer R132). -/
def Config.tStates : Nat := 4

/-- Accepted ticks in one T-state: a high phase, then a low phase (00_scope glossary). -/
def Config.ticksPerTState : Nat := 2

end Sys2Proof
end

