-- ==== Sys2Proof/Syntax.lean ====
section
/-!
DEFINITION. Syntax.lean: the instructions. One constructor per row of spec/opcode_table.json, in the
table's order (30_encoding R108): the 58 instructions, the two prefix bytes (entries of their own, R106,
R114) and the default row. Immediates are fields; everything else an encoding says is in the constructor.
-/

namespace Sys2Proof

/-- The table entries of `Z80E-CORE-SUBSET` (30_encoding R108). -/
inductive Instr where
  /-- `NOP`. 41_nop_halt_prefix R180. -/
  | nop
  /-- `LD BC,nn`. 42_loads R191. -/
  | ldBcNn (nn : Word)
  /-- `LD (BC),A`. 42_loads R211. -/
  | ldAtBcA
  /-- `INC BC`. 43_incdec R241. -/
  | incBc
  /-- `INC B`. 43_incdec R221. -/
  | incB
  /-- `DEC B`. 43_incdec R231. -/
  | decB
  /-- `LD B,n`. 42_loads R201. -/
  | ldBN (n : Byte)
  /-- `RLCA`. 44_rlca_ex R260. -/
  | rlca
  /-- `EX AF,AF'`. 44_rlca_ex R261. -/
  | exAfAf
  /-- `ADD HL,BC`. 45_add16 R271. -/
  | addHlBc
  /-- `DEC BC`. 43_incdec R251. -/
  | decBc
  /-- `INC C`. 43_incdec R222. -/
  | incC
  /-- `DEC C`. 43_incdec R232. -/
  | decC
  /-- `LD C,n`. 42_loads R202. -/
  | ldCN (n : Byte)
  /-- `LD DE,nn`. 42_loads R192. -/
  | ldDeNn (nn : Word)
  /-- `LD (DE),A`. 42_loads R212. -/
  | ldAtDeA
  /-- `INC DE`. 43_incdec R242. -/
  | incDe
  /-- `INC D`. 43_incdec R223. -/
  | incD
  /-- `DEC D`. 43_incdec R233. -/
  | decD
  /-- `LD D,n`. 42_loads R203. -/
  | ldDN (n : Byte)
  /-- `ADD HL,DE`. 45_add16 R272. -/
  | addHlDe
  /-- `DEC DE`. 43_incdec R252. -/
  | decDe
  /-- `INC E`. 43_incdec R224. -/
  | incE
  /-- `DEC E`. 43_incdec R234. -/
  | decE
  /-- `LD E,n`. 42_loads R204. -/
  | ldEN (n : Byte)
  /-- `LD HL,nn`. 42_loads R193. -/
  | ldHlNn (nn : Word)
  /-- `INC HL`. 43_incdec R243. -/
  | incHl
  /-- `INC H`. 43_incdec R225. -/
  | incH
  /-- `DEC H`. 43_incdec R235. -/
  | decH
  /-- `LD H,n`. 42_loads R205. -/
  | ldHN (n : Byte)
  /-- `ADD HL,HL`. 45_add16 R273. -/
  | addHlHl
  /-- `DEC HL`. 43_incdec R253. -/
  | decHl
  /-- `INC L`. 43_incdec R226. -/
  | incL
  /-- `DEC L`. 43_incdec R236. -/
  | decL
  /-- `LD L,n`. 42_loads R206. -/
  | ldLN (n : Byte)
  /-- `LD SP,nn`. 42_loads R194. -/
  | ldSpNn (nn : Word)
  /-- `INC SP`. 43_incdec R244. -/
  | incSp
  /-- `ADD HL,SP`. 45_add16 R274. -/
  | addHlSp
  /-- `DEC SP`. 43_incdec R254. -/
  | decSp
  /-- `INC A`. 43_incdec R227. -/
  | incA
  /-- `DEC A`. 43_incdec R237. -/
  | decA
  /-- `LD A,n`. 42_loads R207. -/
  | ldAN (n : Byte)
  /-- `HALT`. 41_nop_halt_prefix R181. -/
  | halt
  /-- `LD (HL),A`. 42_loads R213. -/
  | ldAtHlA
  /-- `prefix IX`, the byte fetched with no prefix byte pending. 41_nop_halt_prefix R182. -/
  | prefixIx
  /-- `prefix IY`, the byte fetched with no prefix byte pending. 41_nop_halt_prefix R183. -/
  | prefixIy
  /-- `ADD IX,BC`. 45_add16 R276. -/
  | addIxBc
  /-- `ADD IX,DE`. 45_add16 R277. -/
  | addIxDe
  /-- `LD IX,nn`. 42_loads R195. -/
  | ldIxNn (nn : Word)
  /-- `INC IX`. 43_incdec R245. -/
  | incIx
  /-- `ADD IX,IX`. 45_add16 R278. -/
  | addIxIx
  /-- `DEC IX`. 43_incdec R255. -/
  | decIx
  /-- `ADD IX,SP`. 45_add16 R279. -/
  | addIxSp
  /-- `ADD IY,BC`. 45_add16 R281. -/
  | addIyBc
  /-- `ADD IY,DE`. 45_add16 R282. -/
  | addIyDe
  /-- `LD IY,nn`. 42_loads R196. -/
  | ldIyNn (nn : Word)
  /-- `INC IY`. 43_incdec R246. -/
  | incIy
  /-- `ADD IY,IY`. 45_add16 R283. -/
  | addIyIy
  /-- `DEC IY`. 43_incdec R256. -/
  | decIy
  /-- `ADD IY,SP`. 45_add16 R284. -/
  | addIySp
  /-- `UNRECOGNISED`: an effective opcode `op` with no table entry (30_encoding R109). 41_nop_halt_prefix R184. -/
  | unrecognised (op : Word)
deriving DecidableEq, Repr

end Sys2Proof
end

