-- ==== Sys2Proof/WellFormed.lean ====
section
/-!
DEFINITION. WellFormed.lean: which terms of `Instr` stand for an instruction the engine can form. Only
the default row carries a value that can be wrong: its effective opcode must have no table entry, and
its high byte must be a value `OPACC[15:8]` can hold (30_encoding R109, 10_state R43).
-/

namespace Sys2Proof

/-- The unprefixed table entries, 46 effective opcodes (30_encoding R108). -/
def tableOpcodesPlain : List Word :=
  [0x0000#16, 0x0001#16, 0x0002#16, 0x0003#16, 0x0004#16, 0x0005#16, 0x0006#16, 0x0007#16,
   0x0008#16, 0x0009#16, 0x000b#16, 0x000c#16, 0x000d#16, 0x000e#16, 0x0011#16, 0x0012#16,
   0x0013#16, 0x0014#16, 0x0015#16, 0x0016#16, 0x0019#16, 0x001b#16, 0x001c#16] ++
  [0x001d#16, 0x001e#16, 0x0021#16, 0x0023#16, 0x0024#16, 0x0025#16, 0x0026#16, 0x0029#16,
   0x002b#16, 0x002c#16, 0x002d#16, 0x002e#16, 0x0031#16, 0x0033#16, 0x0039#16, 0x003b#16,
   0x003c#16, 0x003d#16, 0x003e#16, 0x0076#16, 0x0077#16, 0x00dd#16, 0x00fd#16]

/-- The entries under the byte 0xDD, 7 effective opcodes (30_encoding R108). -/
def tableOpcodesIx : List Word :=
  [0xdd09#16, 0xdd19#16, 0xdd21#16, 0xdd23#16, 0xdd29#16, 0xdd2b#16, 0xdd39#16]

/-- The entries under the byte 0xFD, 7 effective opcodes (30_encoding R108). -/
def tableOpcodesIy : List Word :=
  [0xfd09#16, 0xfd19#16, 0xfd21#16, 0xfd23#16, 0xfd29#16, 0xfd2b#16, 0xfd39#16]

/-- `op` has an entry in the opcode table (30_encoding R108). -/
def isTableOpcode (op : Word) : Bool :=
  tableOpcodesPlain.contains op || tableOpcodesIx.contains op || tableOpcodesIy.contains op

/-- A byte `OPACC[15:8]` can hold: no pending byte, 0xDD or 0xFD (10_state R43, R57 (e)). -/
def isPendingByte (b : Byte) : Bool :=
  b == 0x00#8 || b == 0xdd#8 || b == 0xfd#8

/-- An instruction the engine can form: the default row only with an effective opcode that has no entry
and a high byte that is a legal pending byte (30_encoding R109). -/
def Instr.wellFormed : Instr → Bool
  | .unrecognised op => !isTableOpcode op && isPendingByte (op.extractLsb' 8 8)
  | .nop => true
  | .ldBcNn _ => true
  | .ldAtBcA => true
  | .incBc => true
  | .incB => true
  | .decB => true
  | .ldBN _ => true
  | .rlca => true
  | .exAfAf => true
  | .addHlBc => true
  | .decBc => true
  | .incC => true
  | .decC => true
  | .ldCN _ => true
  | .ldDeNn _ => true
  | .ldAtDeA => true
  | .incDe => true
  | .incD => true
  | .decD => true
  | .ldDN _ => true
  | .addHlDe => true
  | .decDe => true
  | .incE => true
  | .decE => true
  | .ldEN _ => true
  | .ldHlNn _ => true
  | .incHl => true
  | .incH => true
  | .decH => true
  | .ldHN _ => true
  | .addHlHl => true
  | .decHl => true
  | .incL => true
  | .decL => true
  | .ldLN _ => true
  | .ldSpNn _ => true
  | .incSp => true
  | .addHlSp => true
  | .decSp => true
  | .incA => true
  | .decA => true
  | .ldAN _ => true
  | .halt => true
  | .ldAtHlA => true
  | .prefixIx => true
  | .prefixIy => true
  | .addIxBc => true
  | .addIxDe => true
  | .ldIxNn _ => true
  | .incIx => true
  | .addIxIx => true
  | .decIx => true
  | .addIxSp => true
  | .addIyBc => true
  | .addIyDe => true
  | .ldIyNn _ => true
  | .incIy => true
  | .addIyIy => true
  | .decIy => true
  | .addIySp => true

end Sys2Proof
end

