-- ==== Sys2Proof/Decode.lean ====
section
/-!
DEFINITION. Decode.lean: the decoder (30_encoding R105 to R111), total on any bytes and rejecting by name,
and after it the encoder, written from the same table R108. The key is the 16-bit effective opcode:
the pending byte of `OPACC[15:8]` (zero when none), then the opcode byte.
-/

namespace Sys2Proof

/-- `a ++ b` with `a` at the most significant end (00_scope R7); the byte order of a 16-bit immediate is
decided by the callers, low byte first (20_memory R77). -/
def joinBytes (h l : Byte) : Word := h ++ l

/-- Bits 15:8 of a 16-bit value (10_state R21). -/
def hiByte (w : Word) : Byte := w.extractLsb' 8 8

/-- Bits 7:0 of a 16-bit value (10_state R21). -/
def loByte (w : Word) : Byte := w.extractLsb' 0 8

/-- One row of the opcode table: the effective opcode, and the instruction made from the two bytes that
follow the opcode byte (the first at the lower address). -/
structure TableRow where
  op   : Word
  make : Byte → Byte → Instr

/-- The unprefixed rows of 30_encoding R108, first half. -/
def opcodeTablePlainA : List TableRow :=
  [⟨0x0000#16, fun _ _ => .nop⟩,
   ⟨0x0001#16, fun lo hi => .ldBcNn (joinBytes hi lo)⟩,
   ⟨0x0002#16, fun _ _ => .ldAtBcA⟩,
   ⟨0x0003#16, fun _ _ => .incBc⟩,
   ⟨0x0004#16, fun _ _ => .incB⟩,
   ⟨0x0005#16, fun _ _ => .decB⟩,
   ⟨0x0006#16, fun n _ => .ldBN n⟩,
   ⟨0x0007#16, fun _ _ => .rlca⟩,
   ⟨0x0008#16, fun _ _ => .exAfAf⟩,
   ⟨0x0009#16, fun _ _ => .addHlBc⟩,
   ⟨0x000b#16, fun _ _ => .decBc⟩,
   ⟨0x000c#16, fun _ _ => .incC⟩,
   ⟨0x000d#16, fun _ _ => .decC⟩,
   ⟨0x000e#16, fun n _ => .ldCN n⟩,
   ⟨0x0011#16, fun lo hi => .ldDeNn (joinBytes hi lo)⟩,
   ⟨0x0012#16, fun _ _ => .ldAtDeA⟩,
   ⟨0x0013#16, fun _ _ => .incDe⟩,
   ⟨0x0014#16, fun _ _ => .incD⟩,
   ⟨0x0015#16, fun _ _ => .decD⟩,
   ⟨0x0016#16, fun n _ => .ldDN n⟩,
   ⟨0x0019#16, fun _ _ => .addHlDe⟩,
   ⟨0x001b#16, fun _ _ => .decDe⟩,
   ⟨0x001c#16, fun _ _ => .incE⟩]

/-- The unprefixed rows of 30_encoding R108, second half; the bytes 0xDD and 0xFD are entries here. -/
def opcodeTablePlainB : List TableRow :=
  [⟨0x001d#16, fun _ _ => .decE⟩,
   ⟨0x001e#16, fun n _ => .ldEN n⟩,
   ⟨0x0021#16, fun lo hi => .ldHlNn (joinBytes hi lo)⟩,
   ⟨0x0023#16, fun _ _ => .incHl⟩,
   ⟨0x0024#16, fun _ _ => .incH⟩,
   ⟨0x0025#16, fun _ _ => .decH⟩,
   ⟨0x0026#16, fun n _ => .ldHN n⟩,
   ⟨0x0029#16, fun _ _ => .addHlHl⟩,
   ⟨0x002b#16, fun _ _ => .decHl⟩,
   ⟨0x002c#16, fun _ _ => .incL⟩,
   ⟨0x002d#16, fun _ _ => .decL⟩,
   ⟨0x002e#16, fun n _ => .ldLN n⟩,
   ⟨0x0031#16, fun lo hi => .ldSpNn (joinBytes hi lo)⟩,
   ⟨0x0033#16, fun _ _ => .incSp⟩,
   ⟨0x0039#16, fun _ _ => .addHlSp⟩,
   ⟨0x003b#16, fun _ _ => .decSp⟩,
   ⟨0x003c#16, fun _ _ => .incA⟩,
   ⟨0x003d#16, fun _ _ => .decA⟩,
   ⟨0x003e#16, fun n _ => .ldAN n⟩,
   ⟨0x0076#16, fun _ _ => .halt⟩,
   ⟨0x0077#16, fun _ _ => .ldAtHlA⟩,
   ⟨0x00dd#16, fun _ _ => .prefixIx⟩,
   ⟨0x00fd#16, fun _ _ => .prefixIy⟩]

/-- The rows of 30_encoding R108 under the byte 0xDD. -/
def opcodeTableIx : List TableRow :=
  [⟨0xdd09#16, fun _ _ => .addIxBc⟩,
   ⟨0xdd19#16, fun _ _ => .addIxDe⟩,
   ⟨0xdd21#16, fun lo hi => .ldIxNn (joinBytes hi lo)⟩,
   ⟨0xdd23#16, fun _ _ => .incIx⟩,
   ⟨0xdd29#16, fun _ _ => .addIxIx⟩,
   ⟨0xdd2b#16, fun _ _ => .decIx⟩,
   ⟨0xdd39#16, fun _ _ => .addIxSp⟩]

/-- The rows of 30_encoding R108 under the byte 0xFD. -/
def opcodeTableIy : List TableRow :=
  [⟨0xfd09#16, fun _ _ => .addIyBc⟩,
   ⟨0xfd19#16, fun _ _ => .addIyDe⟩,
   ⟨0xfd21#16, fun lo hi => .ldIyNn (joinBytes hi lo)⟩,
   ⟨0xfd23#16, fun _ _ => .incIy⟩,
   ⟨0xfd29#16, fun _ _ => .addIyIy⟩,
   ⟨0xfd2b#16, fun _ _ => .decIy⟩,
   ⟨0xfd39#16, fun _ _ => .addIySp⟩]

/-- The complete opcode table, 60 entries (30_encoding R108). -/
def opcodeTable : List TableRow :=
  opcodeTablePlainA ++ opcodeTablePlainB ++ opcodeTableIx ++ opcodeTableIy

/-- `ENTRY(op)` as syntax, with the operand bytes filled in: the table's row, else the default row
`UNRECOGNISED` (30_encoding R108, R109). -/
def lookup (op : Word) (b1 b2 : Byte) : Instr :=
  match opcodeTable.find? (fun r => r.op == op) with
  | some r => r.make b1 b2
  | none   => .unrecognised op

/-- Immediate bytes after the opcode byte: one for `LD r,n`, two for `LD rr,nn`, none for every other
entry, the unrecognised opcodes included (30_encoding R101, R109, R111). -/
def Instr.operandCount : Instr → Nat
  | .nop => 0
  | .ldBcNn _ => 2
  | .ldAtBcA => 0
  | .incBc => 0
  | .incB => 0
  | .decB => 0
  | .ldBN _ => 1
  | .rlca => 0
  | .exAfAf => 0
  | .addHlBc => 0
  | .decBc => 0
  | .incC => 0
  | .decC => 0
  | .ldCN _ => 1
  | .ldDeNn _ => 2
  | .ldAtDeA => 0
  | .incDe => 0
  | .incD => 0
  | .decD => 0
  | .ldDN _ => 1
  | .addHlDe => 0
  | .decDe => 0
  | .incE => 0
  | .decE => 0
  | .ldEN _ => 1
  | .ldHlNn _ => 2
  | .incHl => 0
  | .incH => 0
  | .decH => 0
  | .ldHN _ => 1
  | .addHlHl => 0
  | .decHl => 0
  | .incL => 0
  | .decL => 0
  | .ldLN _ => 1
  | .ldSpNn _ => 2
  | .incSp => 0
  | .addHlSp => 0
  | .decSp => 0
  | .incA => 0
  | .decA => 0
  | .ldAN _ => 1
  | .halt => 0
  | .ldAtHlA => 0
  | .prefixIx => 0
  | .prefixIy => 0
  | .addIxBc => 0
  | .addIxDe => 0
  | .ldIxNn _ => 2
  | .incIx => 0
  | .addIxIx => 0
  | .decIx => 0
  | .addIxSp => 0
  | .addIyBc => 0
  | .addIyDe => 0
  | .ldIyNn _ => 2
  | .incIy => 0
  | .addIyIy => 0
  | .decIy => 0
  | .addIySp => 0
  | .unrecognised _ => 0

/-- Why the decoder refuses a byte sequence. -/
inductive DecodeError where
  /-- there is no opcode byte -/
  | noOpcode
  /-- an immediate byte of the instruction with this effective opcode is missing -/
  | missingOperand (op : Word)
  /-- the pending byte is none of 0x00, 0xDD, 0xFD (10_state R57 (e)) -/
  | illegalPending (b : Byte)
deriving DecidableEq, Repr

/-- The instruction that the opcode byte at the head of `bytes` begins while `pending` stands in
`OPACC[15:8]`, and the bytes after it (30_encoding R105, R107, R111). -/
def decode (pending : Byte) (bytes : List Byte) : Except DecodeError (Instr × List Byte) :=
  if isPendingByte pending then
    match bytes with
    | [] => .error .noOpcode
    | b :: rest =>
      match (lookup (joinBytes pending b) 0#8 0#8).operandCount, rest with
      | 0, rest => .ok (lookup (joinBytes pending b) 0#8 0#8, rest)
      | 1, n :: rest => .ok (lookup (joinBytes pending b) n 0#8, rest)
      | 2, lo :: hi :: rest => .ok (lookup (joinBytes pending b) lo hi, rest)
      | _, _ => .error (.missingOperand (joinBytes pending b))
  else .error (.illegalPending pending)

/-- The instruction as it lies in memory (30_encoding R111): a first byte 0xDD or 0xFD with a byte after it
selects the table of that byte, and the two are one effective opcode. -/
def decodeBytes : List Byte → Except DecodeError (Instr × List Byte)
  | b0 :: b1 :: rest =>
    if b0 == 0xdd#8 || b0 == 0xfd#8 then decode b0 (b1 :: rest) else decode 0x00#8 (b0 :: b1 :: rest)
  | bytes => decode 0x00#8 bytes

/-- The instruction the decoder reads from a word numbered as the opcode table numbers it: bits 15:8 are
the pending byte (0x00 when none) and bits 7:0 the opcode byte, since the table's numbers are effective
opcodes (30_encoding R114); bits 23:16 and 31:24 are the bytes after the opcode byte (log 7). -/
def decodeTableWord (nbits w : Nat) : Option Instr :=
  let v := w % 2 ^ nbits
  match decode (BitVec.ofNat 8 (v / 2 ^ 8))
      [BitVec.ofNat 8 v, BitVec.ofNat 8 (v / 2 ^ 16), BitVec.ofNat 8 (v / 2 ^ 24)] with
  | .ok (i, _) => some i
  | .error _ => none

/-- The effective opcode of an instruction (30_encoding R108, column 1). -/
def Instr.opcode : Instr → Word
  | .nop => 0x0000#16
  | .ldBcNn _ => 0x0001#16
  | .ldAtBcA => 0x0002#16
  | .incBc => 0x0003#16
  | .incB => 0x0004#16
  | .decB => 0x0005#16
  | .ldBN _ => 0x0006#16
  | .rlca => 0x0007#16
  | .exAfAf => 0x0008#16
  | .addHlBc => 0x0009#16
  | .decBc => 0x000b#16
  | .incC => 0x000c#16
  | .decC => 0x000d#16
  | .ldCN _ => 0x000e#16
  | .ldDeNn _ => 0x0011#16
  | .ldAtDeA => 0x0012#16
  | .incDe => 0x0013#16
  | .incD => 0x0014#16
  | .decD => 0x0015#16
  | .ldDN _ => 0x0016#16
  | .addHlDe => 0x0019#16
  | .decDe => 0x001b#16
  | .incE => 0x001c#16
  | .decE => 0x001d#16
  | .ldEN _ => 0x001e#16
  | .ldHlNn _ => 0x0021#16
  | .incHl => 0x0023#16
  | .incH => 0x0024#16
  | .decH => 0x0025#16
  | .ldHN _ => 0x0026#16
  | .addHlHl => 0x0029#16
  | .decHl => 0x002b#16
  | .incL => 0x002c#16
  | .decL => 0x002d#16
  | .ldLN _ => 0x002e#16
  | .ldSpNn _ => 0x0031#16
  | .incSp => 0x0033#16
  | .addHlSp => 0x0039#16
  | .decSp => 0x003b#16
  | .incA => 0x003c#16
  | .decA => 0x003d#16
  | .ldAN _ => 0x003e#16
  | .halt => 0x0076#16
  | .ldAtHlA => 0x0077#16
  | .prefixIx => 0x00dd#16
  | .prefixIy => 0x00fd#16
  | .addIxBc => 0xdd09#16
  | .addIxDe => 0xdd19#16
  | .ldIxNn _ => 0xdd21#16
  | .incIx => 0xdd23#16
  | .addIxIx => 0xdd29#16
  | .decIx => 0xdd2b#16
  | .addIxSp => 0xdd39#16
  | .addIyBc => 0xfd09#16
  | .addIyDe => 0xfd19#16
  | .ldIyNn _ => 0xfd21#16
  | .incIy => 0xfd23#16
  | .addIyIy => 0xfd29#16
  | .decIy => 0xfd2b#16
  | .addIySp => 0xfd39#16
  | .unrecognised op => op

/-- The immediate bytes as they lie in memory, low byte first (20_memory R77, 30_encoding R107). -/
def Instr.operands : Instr → List Byte
  | .nop => []
  | .ldBcNn nn => [loByte nn, hiByte nn]
  | .ldAtBcA => []
  | .incBc => []
  | .incB => []
  | .decB => []
  | .ldBN n => [n]
  | .rlca => []
  | .exAfAf => []
  | .addHlBc => []
  | .decBc => []
  | .incC => []
  | .decC => []
  | .ldCN n => [n]
  | .ldDeNn nn => [loByte nn, hiByte nn]
  | .ldAtDeA => []
  | .incDe => []
  | .incD => []
  | .decD => []
  | .ldDN n => [n]
  | .addHlDe => []
  | .decDe => []
  | .incE => []
  | .decE => []
  | .ldEN n => [n]
  | .ldHlNn nn => [loByte nn, hiByte nn]
  | .incHl => []
  | .incH => []
  | .decH => []
  | .ldHN n => [n]
  | .addHlHl => []
  | .decHl => []
  | .incL => []
  | .decL => []
  | .ldLN n => [n]
  | .ldSpNn nn => [loByte nn, hiByte nn]
  | .incSp => []
  | .addHlSp => []
  | .decSp => []
  | .incA => []
  | .decA => []
  | .ldAN n => [n]
  | .halt => []
  | .ldAtHlA => []
  | .prefixIx => []
  | .prefixIy => []
  | .addIxBc => []
  | .addIxDe => []
  | .ldIxNn nn => [loByte nn, hiByte nn]
  | .incIx => []
  | .addIxIx => []
  | .decIx => []
  | .addIxSp => []
  | .addIyBc => []
  | .addIyDe => []
  | .ldIyNn nn => [loByte nn, hiByte nn]
  | .incIy => []
  | .addIyIy => []
  | .decIy => []
  | .addIySp => []
  | .unrecognised _ => []

/-- The pending byte an instruction needs: the high byte of its effective opcode (30_encoding R105). -/
def Instr.pendingByte (i : Instr) : Byte := hiByte i.opcode

/-- The bytes of an instruction from its opcode byte on. -/
def Instr.body (i : Instr) : List Byte := loByte i.opcode :: i.operands

/-- The bytes of an instruction as it lies in memory, lowest address first (30_encoding R101). -/
def encode (i : Instr) : List Byte :=
  if i.pendingByte = 0x00#8 then i.body else i.pendingByte :: i.body

end Sys2Proof
end

