-- ==== Sys2Proof/Machine/State.lean ====
section
/-!
DEFINITION. Machine/State.lean: every piece of state the spec gives the machine (10_state R20 to R56), the
reference backend's memory (20_memory R76), the run's parameters (00_scope R6) and the host's schedule
of input-line levels (40_sequencer R131), as plain data; and the state right after reset.
-/

namespace Sys2Proof.Machine

/-- A clock level, and the value of `PH` (10_state R46). -/
inductive Level where
  | low
  | high
deriving DecidableEq, Repr

/-- The other clock level. -/
def Level.flip : Level → Level
  | .low => .high
  | .high => .low

/-- The interrupt mode `IM`: three values that nothing reads or writes (10_state R39). -/
inductive IntMode where
  | im0
  | im1
  | im2
deriving DecidableEq, Repr

/-- `INTACT`: `NONE`, `INT` or `NMI` (10_state R41). -/
inductive IntActive where
  | none
  | int
  | nmi
deriving DecidableEq, Repr

/-- The 16-bit registers that instructions name (10_state R22, R24, R25). -/
inductive Pair where
  | af
  | bc
  | de
  | hl
  | ix
  | iy
  | sp
deriving DecidableEq, Repr

/-- The 8-bit registers that instructions name (30_encoding R103). -/
inductive Reg8 where
  | b
  | c
  | d
  | e
  | h
  | l
  | a
deriving DecidableEq, Repr

/-- The register file's programmer-visible registers: one 16-bit value per pair, the halves being views of it
(10_state R20, R21), and `I` and `R` (R27, R28). -/
structure Regs where
  af       : Word
  bc       : Word
  de       : Word
  hl       : Word
  afShadow : Word
  bcShadow : Word
  deShadow : Word
  hlShadow : Word
  ix       : Word
  iy       : Word
  sp       : Word
  pc       : Word
  i        : Byte
  r        : Byte
deriving DecidableEq, Repr

/-- The control state of 10_state section 3 (R38 to R42). -/
structure Control where
  iff1    : Bool
  iff2    : Bool
  im      : IntMode
  haltf   : Bool
  intact  : IntActive
  unsup   : Bool
  unsupOp : Word
  stopped : Bool
deriving DecidableEq, Repr

/-- The sequencer state of 10_state section 4 (R43 to R46). -/
structure Sequencer where
  opacc : Word
  step  : StepCount
  tmp   : Byte
  ph    : Level
deriving DecidableEq, Repr

/-- The running totals (10_state R47). -/
structure Totals where
  ticks   : Counter
  mcycles : Counter
  instrs  : Counter
deriving DecidableEq, Repr

/-- The bus interface: address and data lines and the seven output lines, as logical values (10_state R49 to R52). -/
structure Bus where
  addr   : Word
  data   : Byte
  m1     : Bool
  mreq   : Bool
  rd     : Bool
  wr     : Bool
  rfsh   : Bool
  halt   : Bool
  busack : Bool
deriving DecidableEq, Repr

/-- The input-line levels of one tick, logical values (10_state R53, 40_sequencer R131). -/
structure TickIn where
  clk    : Level
  wait   : Bool
  int    : Bool
  nmi    : Bool
  busreq : Bool
  reset  : Bool
deriving DecidableEq, Repr

/-- The levels of a tick at which the host asserts no line and gives the clock level `c`. -/
def TickIn.idle (c : Level) : TickIn :=
  { clk := c, wait := false, int := false, nmi := false, busreq := false, reset := false }

/-- The backend's bytes: (address, byte) pairs, addresses strictly rising, no entry equal to what an unlisted
address reads as (`Memory.wf` in Machine/Ops.lean). -/
abbrev Memory := List Host.Cell

/-- The whole machine. `inputs` is the model's own field: the levels of the ticks still to come, as the
host will give them (00_scope R6, "input-line schedule"); after its end the host asserts no line and
alternates the clock (log 2). The core keeps no copy of an input line (10_state R53). -/
structure State where
  regs   : Regs
  ctl    : Control
  seq    : Sequencer
  totals : Totals
  bus    : Bus
  mem    : Memory
  cfg    : Config
  inputs : List TickIn
deriving DecidableEq, Repr

/-- Reasons to stop with a fault. There is none: every input of the tick function gives a result (40_sequencer
R130, "Nothing in the core should terminate the host process"), and the one exceptional condition of
this core is a state it goes to (60_exceptions R300, R301). Safe: nothing raises a fault. -/
inductive Fault where
deriving DecidableEq, Repr

/-- Reasons to refuse an instruction. -/
inductive Refusal where
  /-- The instruction has no meaning in this model. Safe. Nothing raises it: every row of the opcode table has
  its meaning. -/
  | notModelled (mnemonic : String)
deriving DecidableEq, Repr

/-- The state right after a reset that follows power-on (10_state R56, 70_reset R340). The items R340 lists have
the spec's values; the items it leaves unchanged (`AF BC DE HL`, the shadows, `IX IY I R IM TMP ADDR
DATA`) hold the values of log 3, zero and `IM0` (DESIGN CHOICE, unsafe); memory lists nothing, the
parameters are the spec's defaults, the schedule is empty (log 2). -/
def State.reset : State :=
  { regs :=
      { af := 0x0000#16, bc := 0x0000#16, de := 0x0000#16, hl := 0x0000#16,
        afShadow := 0x0000#16, bcShadow := 0x0000#16, deShadow := 0x0000#16, hlShadow := 0x0000#16,
        ix := 0x0000#16, iy := 0x0000#16, sp := 0x0000#16, pc := 0x0000#16, i := 0x00#8, r := 0x00#8 }
    ctl :=
      { iff1 := false, iff2 := false, im := .im0, haltf := false, intact := .none,
        unsup := false, unsupOp := 0x0000#16, stopped := false }
    seq := { opacc := 0x0000#16, step := 0#8, tmp := 0x00#8, ph := .high }
    totals := { ticks := 0#64, mcycles := 0#64, instrs := 0#64 }
    bus :=
      { addr := 0x0000#16, data := 0x00#8, m1 := false, mreq := false, rd := false, wr := false,
        rfsh := false, halt := false, busack := false }
    mem := []
    cfg := Config.default
    inputs := [] }

end Sys2Proof.Machine
end

