-- ==== Sys2Proof/Machine/Operands.lean ====
section
/-!
DEFINITION. Machine/Operands.lean: the accessors of the register file. Every read and write of a register that an
instruction names goes through these: a pair is one 16-bit cell, and its halves are views of it
(10_state R21, 00_scope R8).
-/

namespace Sys2Proof.Machine

/-- The 16-bit value of a pair (00_scope R8). -/
def State.pair (p : Pair) (s : State) : Word :=
  match p with
  | .af => s.regs.af
  | .bc => s.regs.bc
  | .de => s.regs.de
  | .hl => s.regs.hl
  | .ix => s.regs.ix
  | .iy => s.regs.iy
  | .sp => s.regs.sp

/-- `XY <- v` (00_scope R8). -/
def State.setPair (p : Pair) (v : Word) (s : State) : State :=
  match p with
  | .af => { s with regs.af := v }
  | .bc => { s with regs.bc := v }
  | .de => { s with regs.de := v }
  | .hl => { s with regs.hl := v }
  | .ix => { s with regs.ix := v }
  | .iy => { s with regs.iy := v }
  | .sp => { s with regs.sp := v }

/-- The high half `X = XY[15:8]` of a pair (10_state R21). -/
def State.pairHigh (p : Pair) (s : State) : Byte := hiByte (s.pair p)

/-- The low half `Y = XY[7:0]` of a pair (10_state R21). -/
def State.pairLow (p : Pair) (s : State) : Byte := loByte (s.pair p)

/-- `X <- v` means `XY <- v ++ XY[7:0]` (10_state R21). -/
def State.setPairHigh (p : Pair) (v : Byte) (s : State) : State :=
  s.setPair p (joinBytes v (s.pairLow p))

/-- `Y <- v` means `XY <- XY[15:8] ++ v` (10_state R21). -/
def State.setPairLow (p : Pair) (v : Byte) (s : State) : State :=
  s.setPair p (joinBytes (s.pairHigh p) v)

/-- The pair an 8-bit register is a half of (10_state R22). -/
def Reg8.home : Reg8 → Pair
  | .a => .af
  | .b => .bc
  | .c => .bc
  | .d => .de
  | .e => .de
  | .h => .hl
  | .l => .hl

/-- Whether an 8-bit register is the high half of its pair (10_state R22). -/
def Reg8.isHigh : Reg8 → Bool
  | .a => true
  | .b => true
  | .c => false
  | .d => true
  | .e => false
  | .h => true
  | .l => false

/-- The value of an 8-bit register (10_state R21, R22). -/
def State.reg8 (r : Reg8) (s : State) : Byte :=
  if r.isHigh then s.pairHigh r.home else s.pairLow r.home

/-- `r <- v` for an 8-bit register (10_state R21, R22). -/
def State.setReg8 (r : Reg8) (v : Byte) (s : State) : State :=
  if r.isHigh then s.setPairHigh r.home v else s.setPairLow r.home v

/-- The flag register `F`, the low half of `AF` (10_state R22, R30). -/
def State.flags (s : State) : Byte := s.pairLow .af

/-- `F <- v` (10_state R21). -/
def State.setFlags (v : Byte) (s : State) : State := s.setPairLow .af v

/-- `PC <- (PC + 1) mod 65536` (10_state R26, 40_sequencer R142). -/
def State.advancePc (s : State) : State := { s with regs.pc := s.regs.pc + 1#16 }

/-- `R[7] ++ ((R[6:0] + 1) mod 128)` (10_state R28). -/
def refreshNext (r : Byte) : Byte :=
  (r.extractLsb' 7 1 ++ (r.extractLsb' 0 7 + 1#7) : BitVec (1 + 7))

/-- The refresh increment (10_state R28, 40_sequencer R143 item 2). -/
def State.stepRefresh (s : State) : State := { s with regs.r := refreshNext s.regs.r }

end Sys2Proof.Machine
end

