-- ==== Sys2Proof/Machine/Ops.lean ====
section
/-!
DEFINITION. Machine/Ops.lean: the named operations over memory, the bus and the control state that the tick engine
is made of: the reference backend (20_memory R76), the interrupt sample (60_exceptions R303 to R305), the
unsupported-opcode condition (60_exceptions R300) and the one way out of its frozen state, the reset
operation (70_reset R340), and the bookkeeping of completion actions (40_sequencer R145, R147).
-/

namespace Sys2Proof.Machine

/-! ### Memory -/

/-- What an address that no entry lists reads as: 0x00 (DESIGN CHOICE, log 4; the spec gives the launch
content of `MEM` to the host, 00_scope R6). -/
def Memory.unlisted : Byte := 0x00#8

/-- `MEM[a]` (20_memory R76). -/
def Memory.readAt (m : Memory) (a : Nat) : Byte :=
  match m with
  | [] => Memory.unlisted
  | (k, v) :: rest => if k = a then v else Memory.readAt rest a

/-- `MEM[a]` (20_memory R76). -/
def Memory.read (m : Memory) (a : Word) : Byte := m.readAt a.toNat

/-- `MEM[a] <- v` on the canonical list: an entry only for a byte that differs from what an unlisted
address reads as. -/
def Memory.writeAt (m : Memory) (a : Nat) (v : Byte) : Memory :=
  match m with
  | [] => if v = Memory.unlisted then [] else [(a, v)]
  | (k, w) :: rest =>
    if k < a then (k, w) :: Memory.writeAt rest a v
    else if k = a then (if v = Memory.unlisted then rest else (a, v) :: rest)
    else if v = Memory.unlisted then (k, w) :: rest
    else (a, v) :: (k, w) :: rest

/-- `MEM[a] <- v` (20_memory R76). -/
def Memory.write (m : Memory) (a : Word) (v : Byte) : Memory := m.writeAt a.toNat v

/-- The canonical form from an address on: addresses strictly rising and at least `lo`, each inside the
16-bit space (20_memory R70), no entry equal to what an unlisted address reads as. -/
def Memory.wfFrom (lo : Nat) : Memory → Bool
  | [] => true
  | (k, v) :: rest =>
    decide (lo ≤ k) && decide (k < 65536) && decide (v ≠ Memory.unlisted) && Memory.wfFrom (k + 1) rest

/-- The canonical form of a memory. -/
def Memory.wf (m : Memory) : Bool := Memory.wfFrom 0 m

/-- `WRITABLE(a)` (20_memory R76): true outside the read-only ranges of the run's parameters. -/
def writable (c : Config) (a : Word) : Bool :=
  !c.readOnly.any (fun g => decide (g.base ≤ a.toNat) && decide (a.toNat < g.base + g.size))

/-! ### The reference backend -/

/-- The read service: `if MREQ = 1 and RD = 1 and RFSH = 0 then DATA <- MEM[ADDR]` (20_memory R76). -/
def State.serviceRead (s : State) : State :=
  if s.bus.mreq && s.bus.rd && !s.bus.rfsh then { s with bus.data := s.mem.read s.bus.addr } else s

/-- The write service: `if MREQ = 1 and WR = 1 and RFSH = 0 and WRITABLE(ADDR) then MEM[ADDR] <- DATA`
(20_memory R76). -/
def State.serviceWrite (s : State) : State :=
  if s.bus.mreq && s.bus.wr && !s.bus.rfsh && writable s.cfg s.bus.addr then
    { s with mem := s.mem.write s.bus.addr s.bus.data }
  else s

/-- What the reference backend does before every tick, in this order (20_memory R76, 70_reset R365). -/
def State.service (s : State) : State := s.serviceRead.serviceWrite

/-- The host's schedule moves on to `ls`. -/
def State.setInputs (ls : List TickIn) (s : State) : State := { s with inputs := ls }

/-! ### Interrupts -/

/-- `Enabled(in)` (60_exceptions R303): both flip-flops set and no bus request; it gates both lines. -/
def State.interruptsEnabled (l : TickIn) (s : State) : Bool :=
  s.ctl.iff1 && s.ctl.iff2 && !l.busreq

/-- `Pending(in)` (40_sequencer R136, 60_exceptions R303). -/
def State.interruptPending (l : TickIn) (s : State) : Bool :=
  s.interruptsEnabled l && (l.nmi || l.int)

/-- Taking an interrupt: `INTACT` is written and the halt ends; nothing else changes (60_exceptions R305,
R307). -/
def State.takeInterrupt (k : IntActive) (s : State) : State :=
  { s with ctl.intact := k, ctl.haltf := false, bus.halt := false }

/-- `Sample(in)`, the action at the interrupt-sample point (60_exceptions R305): `NMI` before `INT` (R306). -/
def State.sample (l : TickIn) (s : State) : State :=
  if s.interruptsEnabled l then
    if l.nmi then s.takeInterrupt .nmi
    else if l.int then s.takeInterrupt .int
    else s
  else s

/-! ### The unsupported-opcode condition and the reset -/

/-- Recording the unsupported opcode, under either policy: `UNSUP <- 1; UNSUP_OP <- OPACC` (40_sequencer R141). -/
def State.recordUnsupported (op : Word) (s : State) : State :=
  { s with ctl.unsup := true, ctl.unsupOp := op }

/-- Taking the one exception of this core, under `strict`: the opcode is recorded and the engine freezes
(60_exceptions R300): `STEP` stays 2, nothing is saved elsewhere, there is no vector. -/
def State.raiseUnsupported (op : Word) (s : State) : State :=
  { s.recordUnsupported op with ctl.stopped := true }

/-- The reset operation (70_reset R340), the only way out of the frozen state. What the assignment list
does not name keeps its value. -/
def State.resetOp (s : State) : State :=
  { regs := { s.regs with pc := 0x0000#16, sp := 0x0000#16 }
    ctl :=
      { iff1 := false, iff2 := false, im := s.ctl.im, haltf := false, intact := .none,
        unsup := false, unsupOp := 0x0000#16, stopped := false }
    seq := { opacc := 0x0000#16, step := 0#8, tmp := s.seq.tmp, ph := .high }
    totals := { ticks := 0#64, mcycles := 0#64, instrs := 0#64 }
    bus :=
      { addr := s.bus.addr, data := s.bus.data, m1 := false, mreq := false, rd := false, wr := false,
        rfsh := false, halt := false, busack := false }
    mem := s.mem
    cfg := s.cfg
    inputs := s.inputs }

/-! ### Bookkeeping -/

/-- An accepted tick: `TICKS <- TICKS + 1; PH <- the other level` (40_sequencer R149 item 4). -/
def State.acceptTick (s : State) : State :=
  { s with totals.ticks := s.totals.ticks + 1#64, seq.ph := s.seq.ph.flip }

/-- `MCYCLES <- MCYCLES + 1` (10_state R47). -/
def State.countCycle (s : State) : State := { s with totals.mcycles := s.totals.mcycles + 1#64 }

/-- `STEP <- STEP + 1`. -/
def State.nextStep (s : State) : State := { s with seq.step := s.seq.step + 1#8 }

/-- `Finish` (40_sequencer R145). -/
def State.finish (s : State) : State :=
  { s.countCycle with
    totals.instrs := s.totals.instrs + 1#64
    seq.opacc := joinBytes 0x00#8 (loByte s.seq.opacc)
    seq.step := 0#8 }

/-- `PrefixAction` (40_sequencer R147): `OPACC[15:8] <- OPACC[7:0]`, one machine cycle, no instruction counted. -/
def State.setPendingByte (s : State) : State :=
  { s.countCycle with
    seq.opacc := joinBytes (loByte s.seq.opacc) (loByte s.seq.opacc)
    seq.step := 0#8 }

/-- Entering the halt: `HALTF <- 1; HALT <- 1` (41_nop_halt_prefix R181, 10_state R54). -/
def State.enterHalt (s : State) : State := { s with ctl.haltf := true, bus.halt := true }

/-! ### Fetch -/

/-- The pending byte `OPACC[15:8]` (10_state R43). -/
def State.pendingByte (s : State) : Byte := hiByte s.seq.opacc

/-- The bytes of the instruction stream from `PC` on, as many as the longest instruction has from its
opcode byte on; the addresses wrap (10_state R26, 30_encoding R100, R107). -/
def State.streamBytes (s : State) : List Byte :=
  [s.mem.read s.regs.pc, s.mem.read (s.regs.pc + 1#16), s.mem.read (s.regs.pc + 2#16)]

/-- The next accepted tick is M1 T1 high of a fetch that reads memory: `STEP = 0`, `PH = H`, the engine not
stopped, `OPACC[15:8]` a byte it can hold, and neither `WR` nor `RFSH` left asserted (40_sequencer R133; every
state that a reset and ticks can reach with `STEP = 0` and `PH = H` is one, 10_state R57). -/
def State.atFetch (s : State) : Bool :=
  s.seq.step == 0#8 && s.seq.ph == .high && !s.ctl.stopped && !s.bus.wr && !s.bus.rfsh &&
    isPendingByte s.pendingByte

end Sys2Proof.Machine
end

