-- ==== Sys2Proof/Machine/Engine.lean ====
section
/-!
DEFINITION. Machine/Engine.lean: the tick engine (40_sequencer), the hardware proper. `tickAs e l s` is one invocation
of the engine with the input levels `l` while `e` is the table entry in force; Machine/Table.lean closes it
with the entry that `OPACC` selects. `runEntry` calls it until the entry has completed.
-/

namespace Sys2Proof.Machine

/-- The result of one tick (40_sequencer R130). -/
inductive TickResult where
  | ok
  | ignored
  | reset
  | stopped
  | unsupported (op : Word)
deriving DecidableEq, Repr

/-- A machine cycle after M1, by kind (40_sequencer R146): an operand read with what its latch does with the
byte on `DATA` (R152), a memory write at the address in a pair (R155), or an internal cycle (R158). -/
inductive Cycle where
  | operandRead (latch : Byte → State → State)
  | memoryWrite (rr : Pair)
  | internal

/-- The class of a table entry at the decode point and at the dispatch (40_sequencer R141, R144). -/
inductive EntryKind where
  | instruction
  | pendingByte
  | unrecognised (op : Word)

/-- A table entry: its class, its machine cycles M2, M3, ... in order, and the register effect its completion
action has before `Finish` (40_sequencer R144 to R146). -/
structure Entry where
  kind   : EntryKind
  later  : List Cycle
  effect : State → State

/-- `MCYCLES(op)`, the number of machine cycles (40_sequencer R146). -/
def Entry.cycles (e : Entry) : Nat := 1 + e.later.length

/-! ### The opcode-fetch cycle M1 -/

/-- M1 T1 high: `ADDR <- PC; M1 <- 1` (40_sequencer R134). -/
def m1T1High (s : State) : State := { s with bus.addr := s.regs.pc, bus.m1 := true }

/-- M1 T1 low: `MREQ <- 1; RD <- 1`, then `STEP <- 1` unless the halted hold keeps it 0 (40_sequencer R135, R136). -/
def m1T1Low (l : TickIn) (s : State) : State :=
  let t := { s with bus.mreq := true, bus.rd := true }
  if s.ctl.haltf && !s.interruptPending l then t else { t with seq.step := 1#8 }

/-- M1 T2 low: while `WAIT` nothing changes, else `OPACC[7:0] <- DATA; STEP <- 2` (40_sequencer R138). -/
def m1T2Low (l : TickIn) (s : State) : State :=
  if l.wait then s
  else { s with seq.opacc := joinBytes (hiByte s.seq.opacc) s.bus.data, seq.step := 2#8 }

/-- M1 T3 high: `ADDR <- I ++ R; RFSH <- 1; M1 <- 0; RD <- 0` (40_sequencer R139). -/
def m1T3High (s : State) : State :=
  { s with bus.addr := joinBytes s.regs.i s.regs.r, bus.rfsh := true, bus.m1 := false, bus.rd := false }

/-- M1 T3 low, the decode point: `MREQ <- 0`, and `STEP <- 3` unless an unrecognised opcode stops the engine
(40_sequencer R140, R141). -/
def m1T3Low (e : Entry) (s : State) : State × TickResult :=
  let t := { s with bus.mreq := false }
  match e.kind with
  | .unrecognised op =>
    match s.cfg.policy with
    | .noop => ({ t.recordUnsupported op with seq.step := 3#8 }, .ok)
    | .strict => (t.raiseUnsupported op, .unsupported op)
  | .instruction => ({ t with seq.step := 3#8 }, .ok)
  | .pendingByte => ({ t with seq.step := 3#8 }, .ok)

/-- The dispatch at M1 T4 low (40_sequencer R144). -/
def dispatchEntry (e : Entry) (s : State) : State :=
  match e.kind with
  | .pendingByte => s.setPendingByte
  | .instruction => if e.later.isEmpty then (e.effect s).finish else { s.countCycle with seq.step := 4#8 }
  | .unrecognised _ => (e.effect s).finish

/-- M1 T4 low: the interrupt sample, the refresh increment, then `RFSH <- 0` and the dispatch, in this order
(40_sequencer R143, 60_exceptions R326). -/
def m1T4Low (e : Entry) (l : TickIn) (s : State) : State :=
  let t := (s.sample l).stepRefresh
  dispatchEntry e { t with bus.rfsh := false }

/-! ### The later machine cycles -/

/-- The ticks of an operand-read cycle up to T4 high, `t` being the T-state counted from 0 (40_sequencer R150). -/
def operandReadTick (latch : Byte → State → State) (t : Nat) (l : TickIn) (s : State) : State :=
  match t, l.clk with
  | 0, .high => { s with bus.addr := s.regs.pc }
  | 0, .low  => { s with bus.mreq := true, bus.rd := true }.nextStep
  | 1, .high => s
  | 1, .low  => if l.wait then s else (latch s.bus.data s).nextStep
  | 2, .high => { s with bus.rd := false }
  | 2, .low  => { s with bus.mreq := false }.nextStep
  | _, .high => s.advancePc
  | _, .low  => s

/-- The ticks of a memory-write cycle up to T4 high (40_sequencer R155): `DATA` carries `A`. -/
def memoryWriteTick (rr : Pair) (t : Nat) (l : TickIn) (s : State) : State :=
  match t, l.clk with
  | 0, .high => { s with bus.addr := s.pair rr, bus.data := s.reg8 .a }
  | 0, .low  => { s with bus.mreq := true, bus.wr := true }.nextStep
  | 1, .high => s
  | 1, .low  => if l.wait then s else s.nextStep
  | 2, .high => { s with bus.wr := false }
  | 2, .low  => { s with bus.mreq := false }.nextStep
  | _, _     => s

/-- The ticks of an internal cycle up to T4 high: no line and no register changes, `WAIT` is not looked at
(40_sequencer R158). -/
def internalTick (t : Nat) (l : TickIn) (s : State) : State :=
  match t, l.clk with
  | _, .high => s
  | 3, .low  => s
  | _, .low  => s.nextStep

/-- T4 low of a later cycle: after the last one the register effect and `Finish`, else on to the next cycle
(40_sequencer R145, R150, R158). -/
def endCycle (e : Entry) (last : Bool) (s : State) : State :=
  if last then (e.effect s).finish else s.countCycle.nextStep

/-- One tick of the later cycle `c` at T-state `t` (from 0). -/
def laterTick (e : Entry) (c : Cycle) (last : Bool) (t : Nat) (l : TickIn) (s : State) : State :=
  if t = 3 ∧ l.clk = .low then endCycle e last s
  else
    match c with
    | .operandRead latch => operandReadTick latch t l s
    | .memoryWrite rr    => memoryWriteTick rr t l s
    | .internal          => internalTick t l s

/-! ### One tick -/

/-- The action of `(M, T, CLK)`, `M = STEP div 4 + 1`, `T = STEP mod 4 + 1` (40_sequencer R132, R149 item 4). A
`STEP` for which the entry has no machine cycle changes nothing more (93 U10, log 8). -/
def tickAction (e : Entry) (l : TickIn) (s : State) : State × TickResult :=
  match s.seq.step.toNat, l.clk with
  | 0, .high => (m1T1High s, .ok)
  | 0, .low  => (m1T1Low l s, .ok)
  | 1, .high => (s, .ok)
  | 1, .low  => (m1T2Low l s, .ok)
  | 2, .high => (m1T3High s, .ok)
  | 2, .low  => m1T3Low e s
  | 3, .high => (s.advancePc, .ok)
  | 3, .low  => (m1T4Low e l s, .ok)
  | n + 4, _ =>
    match e.later[n / 4]? with
    | none   => (s, .ok)
    | some c => (laterTick e c (n / 4 + 1 == e.later.length) (n % 4) l s, .ok)

/-- One invocation of the engine, in the order of evaluation of 40_sequencer R149. -/
def tickAs (e : Entry) (l : TickIn) (s : State) : State × TickResult :=
  if l.reset then (s.resetOp, .reset)
  else if s.ctl.stopped then (s, .stopped)
  else if l.clk ≠ s.seq.ph then (s, .ignored)
  else tickAction e l s.acceptTick

/-! ### The host's loop -/

/-- The levels of the next tick: the next record of the schedule, and after its end no line asserted and the
clock level the engine expects (log 2). -/
def State.nextLevels (s : State) : TickIn :=
  match s.inputs with
  | []     => TickIn.idle s.seq.ph
  | l :: _ => l

/-- The state the engine is called in: the schedule moves on and the backend has acted (70_reset R365). -/
def State.served (s : State) : State := s.service.setInputs s.inputs.tail

/-- One round of the host's loop with `e` in force: service, then a tick (70_reset R365). -/
def clockAs (e : Entry) (s : State) : State × TickResult := tickAs e s.nextLevels s.served

/-- Whether a run of one entry ends with this tick: the completion action, the halted hold's return to M1 T1
high, a reset, or the frozen engine. An ignored tick ends nothing (log 1). -/
def endsRun (r : TickResult) (s : State) : Bool :=
  match r with
  | .ok            => s.seq.step == 0#8 && s.seq.ph == .high
  | .ignored       => false
  | .reset         => true
  | .stopped       => true
  | .unsupported _ => true

/-- Rounds of the host's loop with `e` in force, until the run of the entry ends; `fuel` bounds their number. -/
def runEntry (e : Entry) : Nat → State → State
  | 0, s => s
  | fuel + 1, s =>
    match clockAs e s with
    | (t, r) => if endsRun r t then t else runEntry e fuel t

/-- Enough rounds for an entry from M1 T1 high on: eight for each machine cycle, and at most two more for
each record of the schedule (an ignored tick costs one, a stalled T2 two; log 9). -/
def runBound (e : Entry) (s : State) : Nat :=
  2 * s.inputs.length + Config.tStates * Config.ticksPerTState * e.cycles

/-- The meaning of a table entry as one step: the engine runs it from the fetch on. -/
def runInstr (e : Entry) (s : State) : Host.Outcome State Fault Refusal :=
  .next (runEntry e (runBound e s) s)

/-- The machine cycles with the decoded operand bytes in place of the byte on `DATA`, in order. -/
def fillOperands : List Cycle → List Byte → List Cycle
  | .operandRead latch :: cs, b :: bs => .operandRead (fun _ s => latch b s) :: fillOperands cs bs
  | c :: cs, bs => c :: fillOperands cs bs
  | [], _ => []

/-- The entry of a decoded instruction: its operand reads latch the instruction's own operand bytes, which are
what the backend puts on `DATA` in those cycles (30_encoding R107, log 10). -/
def Entry.withOperands (e : Entry) (ops : List Byte) : Entry :=
  { e with later := fillOperands e.later ops }

end Sys2Proof.Machine
end

