-- ==== Sys2Proof/Machine/Flags.lean ====
section
/-!
DEFINITION. Machine/Flags.lean: the flag generator (10_state R30 to R37). Each function yields the result and a complete
new flag byte from the operands and the old flag byte (R32).
-/

namespace Sys2Proof.Machine

/-- The flag byte from its eight bits, in the order of 10_state R30: `S Z F5 H F3 PV N C`, bit 7 first. -/
def flagByte (s z f5 h f3 pv n c : Bool) : Byte :=
  (BitVec.ofBool s ++ BitVec.ofBool z ++ BitVec.ofBool f5 ++ BitVec.ofBool h ++ BitVec.ofBool f3 ++
    BitVec.ofBool pv ++ BitVec.ofBool n ++ BitVec.ofBool c : BitVec (1 + 1 + 1 + 1 + 1 + 1 + 1 + 1))

/-- Bit 7 of `F`: sign (10_state R30). -/
def flagS (f : Byte) : Bool := f.getLsbD 7

/-- Bit 6 of `F`: zero (10_state R30). -/
def flagZ (f : Byte) : Bool := f.getLsbD 6

/-- Bit 5 of `F` (10_state R30). -/
def flagF5 (f : Byte) : Bool := f.getLsbD 5

/-- Bit 4 of `F`: half-carry (10_state R30). -/
def flagH (f : Byte) : Bool := f.getLsbD 4

/-- Bit 3 of `F` (10_state R30). -/
def flagF3 (f : Byte) : Bool := f.getLsbD 3

/-- Bit 2 of `F`: overflow (10_state R30). -/
def flagPV (f : Byte) : Bool := f.getLsbD 2

/-- Bit 1 of `F`: subtract (10_state R30). -/
def flagN (f : Byte) : Bool := f.getLsbD 1

/-- Bit 0 of `F`: carry (10_state R30). -/
def flagC (f : Byte) : Bool := f.getLsbD 0

/-- `inc8(v, f)`: 8-bit increment with flags (10_state R34). -/
def inc8 (v f : Byte) : Byte × Byte :=
  let r := v + 1#8
  (r, flagByte (r.getLsbD 7) (r == 0x00#8) (r.getLsbD 5) (v.extractLsb' 0 4 == 0xf#4) (r.getLsbD 3)
    (v == 0x7f#8) false (flagC f))

/-- `dec8(v, f)`: 8-bit decrement with flags (10_state R35). -/
def dec8 (v f : Byte) : Byte × Byte :=
  let r := v - 1#8
  (r, flagByte (r.getLsbD 7) (r == 0x00#8) (r.getLsbD 5) (v.extractLsb' 0 4 == 0x0#4) (r.getLsbD 3)
    (v == 0x80#8) true (flagC f))

/-- `rlc8(a, f)`: rotate left circular, accumulator form (10_state R36): `r = a[6:0] ++ a[7]`. -/
def rlc8 (a f : Byte) : Byte × Byte :=
  let r : Byte := (a.extractLsb' 0 7 ++ a.extractLsb' 7 1 : BitVec (7 + 1))
  (r, flagByte (flagS f) (flagZ f) (r.getLsbD 5) false (r.getLsbD 3) (flagPV f) false (a.getLsbD 7))

/-- `add16(d, s, f)`: 16-bit add with flags (10_state R37); `t` is the 17-bit sum, and the half-carry is the
carry out of bit 11. -/
def add16 (d s : Word) (f : Byte) : Word × Byte :=
  let t : BitVec 17 := d.setWidth 17 + s.setWidth 17
  let r : Word := t.setWidth 16
  (r, flagByte (flagS f) (flagZ f) (r.getLsbD 13)
    (decide (0xfff < (d.extractLsb' 0 12).toNat + (s.extractLsb' 0 12).toNat)) (r.getLsbD 11)
    (flagPV f) false (t.getLsbD 16))

end Sys2Proof.Machine
end

