-- ==== Sys2Proof/Machine/Add16.lean ====
section
/-!
DEFINITION. Machine/Add16.lean: the twelve 16-bit adds (45_add16 R270 to R284).
-/

namespace Sys2Proof.Machine

/-- `(dd, F) <- add16(dd, ss, F)` (R270, R275, R280). -/
def State.addPair (dd ss : Pair) (s : State) : State :=
  let q := add16 (s.pair dd) (s.pair ss) s.flags
  (s.setPair dd q.1).setFlags q.2

/-- The entry of a 16-bit add: two internal cycles, the sum at M3 T4 low (R270, 40_sequencer R158). -/
def addEntry (dd ss : Pair) : Entry :=
  { kind := .instruction, later := [.internal, .internal], effect := State.addPair dd ss }

/-- The table entry of `ADD HL,BC` (R271). -/
def entryAddHlBc : Entry := addEntry .hl .bc

/-- The meaning of `ADD HL,BC` (R271). -/
def execAddHlBc (s : State) : Host.Outcome State Fault Refusal := runInstr entryAddHlBc s

/-- The table entry of `ADD HL,DE` (R272). -/
def entryAddHlDe : Entry := addEntry .hl .de

/-- The meaning of `ADD HL,DE` (R272). -/
def execAddHlDe (s : State) : Host.Outcome State Fault Refusal := runInstr entryAddHlDe s

/-- The table entry of `ADD HL,HL` (R273). -/
def entryAddHlHl : Entry := addEntry .hl .hl

/-- The meaning of `ADD HL,HL` (R273). -/
def execAddHlHl (s : State) : Host.Outcome State Fault Refusal := runInstr entryAddHlHl s

/-- The table entry of `ADD HL,SP` (R274). -/
def entryAddHlSp : Entry := addEntry .hl .sp

/-- The meaning of `ADD HL,SP` (R274). -/
def execAddHlSp (s : State) : Host.Outcome State Fault Refusal := runInstr entryAddHlSp s

/-- The table entry of `ADD IX,BC` (R276). -/
def entryAddIxBc : Entry := addEntry .ix .bc

/-- The meaning of `ADD IX,BC` (R276). -/
def execAddIxBc (s : State) : Host.Outcome State Fault Refusal := runInstr entryAddIxBc s

/-- The table entry of `ADD IX,DE` (R277). -/
def entryAddIxDe : Entry := addEntry .ix .de

/-- The meaning of `ADD IX,DE` (R277). -/
def execAddIxDe (s : State) : Host.Outcome State Fault Refusal := runInstr entryAddIxDe s

/-- The table entry of `ADD IX,IX` (R278). -/
def entryAddIxIx : Entry := addEntry .ix .ix

/-- The meaning of `ADD IX,IX` (R278). -/
def execAddIxIx (s : State) : Host.Outcome State Fault Refusal := runInstr entryAddIxIx s

/-- The table entry of `ADD IX,SP` (R279). -/
def entryAddIxSp : Entry := addEntry .ix .sp

/-- The meaning of `ADD IX,SP` (R279). -/
def execAddIxSp (s : State) : Host.Outcome State Fault Refusal := runInstr entryAddIxSp s

/-- The table entry of `ADD IY,BC` (R281). -/
def entryAddIyBc : Entry := addEntry .iy .bc

/-- The meaning of `ADD IY,BC` (R281). -/
def execAddIyBc (s : State) : Host.Outcome State Fault Refusal := runInstr entryAddIyBc s

/-- The table entry of `ADD IY,DE` (R282). -/
def entryAddIyDe : Entry := addEntry .iy .de

/-- The meaning of `ADD IY,DE` (R282). -/
def execAddIyDe (s : State) : Host.Outcome State Fault Refusal := runInstr entryAddIyDe s

/-- The table entry of `ADD IY,IY` (R283). -/
def entryAddIyIy : Entry := addEntry .iy .iy

/-- The meaning of `ADD IY,IY` (R283). -/
def execAddIyIy (s : State) : Host.Outcome State Fault Refusal := runInstr entryAddIyIy s

/-- The table entry of `ADD IY,SP` (R284). -/
def entryAddIySp : Entry := addEntry .iy .sp

/-- The meaning of `ADD IY,SP` (R284). -/
def execAddIySp (s : State) : Host.Outcome State Fault Refusal := runInstr entryAddIySp s

end Sys2Proof.Machine
end

