-- ==== Sys2Proof/Machine/Control.lean ====
section
/-!
DEFINITION. Machine/Control.lean: `NOP`, `HALT`, the two prefix bytes and the unrecognised no-op
(41_nop_halt_prefix R180 to R184).
-/

namespace Sys2Proof.Machine

/-- An entry with one machine cycle and the register effect `f` at its M1 T4 low (40_sequencer R144, R146). -/
def oneCycle (f : State → State) : Entry := { kind := .instruction, later := [], effect := f }

/-- `NOP`: the completion action is `Finish` alone (R180). -/
def entryNop : Entry := oneCycle id

/-- `HALT`: `HALTF <- 1; HALT <- 1`, then `Finish` (R181). -/
def entryHalt : Entry := oneCycle State.enterHalt

/-- The byte 0xDD with no prefix byte pending (R182, 40_sequencer R147). -/
def entryPrefixIx : Entry := { kind := .pendingByte, later := [], effect := id }

/-- The byte 0xFD with no prefix byte pending (R183, 40_sequencer R147). -/
def entryPrefixIy : Entry := { kind := .pendingByte, later := [], effect := id }

/-- An effective opcode with no table entry (R184): recorded at the decode point, then a no-op under `noop`
and a frozen engine under `strict` (60_exceptions R300). -/
def entryUnrecognised (op : Word) : Entry := { kind := .unrecognised op, later := [], effect := id }

/-- The meaning of `NOP` (R180). -/
def execNop (s : State) : Host.Outcome State Fault Refusal := runInstr entryNop s

/-- The meaning of `HALT` (R181). -/
def execHalt (s : State) : Host.Outcome State Fault Refusal := runInstr entryHalt s

/-- The meaning of `prefix IX` (R182). -/
def execPrefixIx (s : State) : Host.Outcome State Fault Refusal := runInstr entryPrefixIx s

/-- The meaning of `prefix IY` (R183). -/
def execPrefixIy (s : State) : Host.Outcome State Fault Refusal := runInstr entryPrefixIy s

/-- The meaning of an effective opcode with no table entry (R184). -/
def execUnrecognised (op : Word) (s : State) : Host.Outcome State Fault Refusal := runInstr (entryUnrecognised op) s

end Sys2Proof.Machine
end

