-- ==== Sys2Proof/Machine/IncDec.lean ====
section
/-!
DEFINITION. Machine/IncDec.lean: the increment and decrement instructions: `INC r`, `DEC r` (43_incdec R220 to R237, flags
written) and `INC rr`, `DEC rr` (R240 to R256, no flag written).
-/

namespace Sys2Proof.Machine

/-- `(r, F) <- inc8(r, F)` (R220). -/
def State.incReg8 (r : Reg8) (s : State) : State :=
  let q := inc8 (s.reg8 r) s.flags
  (s.setReg8 r q.1).setFlags q.2

/-- `(r, F) <- dec8(r, F)` (R230). -/
def State.decReg8 (r : Reg8) (s : State) : State :=
  let q := dec8 (s.reg8 r) s.flags
  (s.setReg8 r q.1).setFlags q.2

/-- `rr <- (rr + 1) mod 65536` (R240). -/
def State.incPair (rr : Pair) (s : State) : State := s.setPair rr (s.pair rr + 1#16)

/-- `rr <- (rr - 1) mod 65536` (R250). -/
def State.decPair (rr : Pair) (s : State) : State := s.setPair rr (s.pair rr - 1#16)

/-! ### Increment 8-bit register -/

/-- The table entry of `INC B` (R221). -/
def entryIncB : Entry := oneCycle (State.incReg8 .b)

/-- The meaning of `INC B` (R221). -/
def execIncB (s : State) : Host.Outcome State Fault Refusal := runInstr entryIncB s

/-- The table entry of `INC C` (R222). -/
def entryIncC : Entry := oneCycle (State.incReg8 .c)

/-- The meaning of `INC C` (R222). -/
def execIncC (s : State) : Host.Outcome State Fault Refusal := runInstr entryIncC s

/-- The table entry of `INC D` (R223). -/
def entryIncD : Entry := oneCycle (State.incReg8 .d)

/-- The meaning of `INC D` (R223). -/
def execIncD (s : State) : Host.Outcome State Fault Refusal := runInstr entryIncD s

/-- The table entry of `INC E` (R224). -/
def entryIncE : Entry := oneCycle (State.incReg8 .e)

/-- The meaning of `INC E` (R224). -/
def execIncE (s : State) : Host.Outcome State Fault Refusal := runInstr entryIncE s

/-- The table entry of `INC H` (R225). -/
def entryIncH : Entry := oneCycle (State.incReg8 .h)

/-- The meaning of `INC H` (R225). -/
def execIncH (s : State) : Host.Outcome State Fault Refusal := runInstr entryIncH s

/-- The table entry of `INC L` (R226). -/
def entryIncL : Entry := oneCycle (State.incReg8 .l)

/-- The meaning of `INC L` (R226). -/
def execIncL (s : State) : Host.Outcome State Fault Refusal := runInstr entryIncL s

/-- The table entry of `INC A` (R227). -/
def entryIncA : Entry := oneCycle (State.incReg8 .a)

/-- The meaning of `INC A` (R227). -/
def execIncA (s : State) : Host.Outcome State Fault Refusal := runInstr entryIncA s

/-! ### Increment 16-bit register -/

/-- The table entry of `INC BC` (R241). -/
def entryIncBc : Entry := oneCycle (State.incPair .bc)

/-- The meaning of `INC BC` (R241). -/
def execIncBc (s : State) : Host.Outcome State Fault Refusal := runInstr entryIncBc s

/-- The table entry of `INC DE` (R242). -/
def entryIncDe : Entry := oneCycle (State.incPair .de)

/-- The meaning of `INC DE` (R242). -/
def execIncDe (s : State) : Host.Outcome State Fault Refusal := runInstr entryIncDe s

/-- The table entry of `INC HL` (R243). -/
def entryIncHl : Entry := oneCycle (State.incPair .hl)

/-- The meaning of `INC HL` (R243). -/
def execIncHl (s : State) : Host.Outcome State Fault Refusal := runInstr entryIncHl s

/-- The table entry of `INC SP` (R244). -/
def entryIncSp : Entry := oneCycle (State.incPair .sp)

/-- The meaning of `INC SP` (R244). -/
def execIncSp (s : State) : Host.Outcome State Fault Refusal := runInstr entryIncSp s

/-- The table entry of `INC IX` (R245). -/
def entryIncIx : Entry := oneCycle (State.incPair .ix)

/-- The meaning of `INC IX` (R245). -/
def execIncIx (s : State) : Host.Outcome State Fault Refusal := runInstr entryIncIx s

/-- The table entry of `INC IY` (R246). -/
def entryIncIy : Entry := oneCycle (State.incPair .iy)

/-- The meaning of `INC IY` (R246). -/
def execIncIy (s : State) : Host.Outcome State Fault Refusal := runInstr entryIncIy s

/-! ### Decrement 8-bit register -/

/-- The table entry of `DEC B` (R231). -/
def entryDecB : Entry := oneCycle (State.decReg8 .b)

/-- The meaning of `DEC B` (R231). -/
def execDecB (s : State) : Host.Outcome State Fault Refusal := runInstr entryDecB s

/-- The table entry of `DEC C` (R232). -/
def entryDecC : Entry := oneCycle (State.decReg8 .c)

/-- The meaning of `DEC C` (R232). -/
def execDecC (s : State) : Host.Outcome State Fault Refusal := runInstr entryDecC s

/-- The table entry of `DEC D` (R233). -/
def entryDecD : Entry := oneCycle (State.decReg8 .d)

/-- The meaning of `DEC D` (R233). -/
def execDecD (s : State) : Host.Outcome State Fault Refusal := runInstr entryDecD s

/-- The table entry of `DEC E` (R234). -/
def entryDecE : Entry := oneCycle (State.decReg8 .e)

/-- The meaning of `DEC E` (R234). -/
def execDecE (s : State) : Host.Outcome State Fault Refusal := runInstr entryDecE s

/-- The table entry of `DEC H` (R235). -/
def entryDecH : Entry := oneCycle (State.decReg8 .h)

/-- The meaning of `DEC H` (R235). -/
def execDecH (s : State) : Host.Outcome State Fault Refusal := runInstr entryDecH s

/-- The table entry of `DEC L` (R236). -/
def entryDecL : Entry := oneCycle (State.decReg8 .l)

/-- The meaning of `DEC L` (R236). -/
def execDecL (s : State) : Host.Outcome State Fault Refusal := runInstr entryDecL s

/-- The table entry of `DEC A` (R237). -/
def entryDecA : Entry := oneCycle (State.decReg8 .a)

/-- The meaning of `DEC A` (R237). -/
def execDecA (s : State) : Host.Outcome State Fault Refusal := runInstr entryDecA s

/-! ### Decrement 16-bit register -/

/-- The table entry of `DEC BC` (R251). -/
def entryDecBc : Entry := oneCycle (State.decPair .bc)

/-- The meaning of `DEC BC` (R251). -/
def execDecBc (s : State) : Host.Outcome State Fault Refusal := runInstr entryDecBc s

/-- The table entry of `DEC DE` (R252). -/
def entryDecDe : Entry := oneCycle (State.decPair .de)

/-- The meaning of `DEC DE` (R252). -/
def execDecDe (s : State) : Host.Outcome State Fault Refusal := runInstr entryDecDe s

/-- The table entry of `DEC HL` (R253). -/
def entryDecHl : Entry := oneCycle (State.decPair .hl)

/-- The meaning of `DEC HL` (R253). -/
def execDecHl (s : State) : Host.Outcome State Fault Refusal := runInstr entryDecHl s

/-- The table entry of `DEC SP` (R254). -/
def entryDecSp : Entry := oneCycle (State.decPair .sp)

/-- The meaning of `DEC SP` (R254). -/
def execDecSp (s : State) : Host.Outcome State Fault Refusal := runInstr entryDecSp s

/-- The table entry of `DEC IX` (R255). -/
def entryDecIx : Entry := oneCycle (State.decPair .ix)

/-- The meaning of `DEC IX` (R255). -/
def execDecIx (s : State) : Host.Outcome State Fault Refusal := runInstr entryDecIx s

/-- The table entry of `DEC IY` (R256). -/
def entryDecIy : Entry := oneCycle (State.decPair .iy)

/-- The meaning of `DEC IY` (R256). -/
def execDecIy (s : State) : Host.Outcome State Fault Refusal := runInstr entryDecIy s

end Sys2Proof.Machine
end

