-- ==== Sys2Proof/Machine/Loads.lean ====
section
/-!
DEFINITION. Machine/Loads.lean: the load instructions: `LD rr,nn` (42_loads R190 to R196), `LD r,n` (R200 to R207) and
`LD (rr),A` (R210 to R213).
-/

namespace Sys2Proof.Machine

/-- The latch of M2 of `LD rr,nn`: `TMP <- d`, low half of the pair `<- d` (40_sequencer R152). -/
def latchLow (rr : Pair) (d : Byte) (s : State) : State := { s.setPairLow rr d with seq.tmp := d }

/-- The latch of M3 of `LD rr,nn`: high half of the pair `<- d` (40_sequencer R152). -/
def latchHigh (rr : Pair) (d : Byte) (s : State) : State := s.setPairHigh rr d

/-- The entry of `LD rr,nn`: two operand reads, low half first (R190, 40_sequencer R146). -/
def loadPairEntry (rr : Pair) : Entry :=
  { kind := .instruction, later := [.operandRead (latchLow rr), .operandRead (latchHigh rr)], effect := id }

/-- The entry of `LD r,n`: one operand read into the register (R200, 40_sequencer R152). -/
def loadReg8Entry (r : Reg8) : Entry :=
  { kind := .instruction, later := [.operandRead (State.setReg8 r)], effect := id }

/-- The entry of `LD (rr),A`: one memory write (R210, 40_sequencer R155). -/
def storeEntry (rr : Pair) : Entry :=
  { kind := .instruction, later := [.memoryWrite rr], effect := id }

/-! ### Load register pair, immediate -/

/-- The table entry of `LD BC,nn` (R191). -/
def entryLdBcNn : Entry := loadPairEntry .bc

/-- The meaning of `LD BC,nn` (R191). -/
def execLdBcNn (nn : Word) (s : State) : Host.Outcome State Fault Refusal :=
  runInstr (entryLdBcNn.withOperands [loByte nn, hiByte nn]) s

/-- The table entry of `LD DE,nn` (R192). -/
def entryLdDeNn : Entry := loadPairEntry .de

/-- The meaning of `LD DE,nn` (R192). -/
def execLdDeNn (nn : Word) (s : State) : Host.Outcome State Fault Refusal :=
  runInstr (entryLdDeNn.withOperands [loByte nn, hiByte nn]) s

/-- The table entry of `LD HL,nn` (R193). -/
def entryLdHlNn : Entry := loadPairEntry .hl

/-- The meaning of `LD HL,nn` (R193). -/
def execLdHlNn (nn : Word) (s : State) : Host.Outcome State Fault Refusal :=
  runInstr (entryLdHlNn.withOperands [loByte nn, hiByte nn]) s

/-- The table entry of `LD SP,nn` (R194). -/
def entryLdSpNn : Entry := loadPairEntry .sp

/-- The meaning of `LD SP,nn` (R194). -/
def execLdSpNn (nn : Word) (s : State) : Host.Outcome State Fault Refusal :=
  runInstr (entryLdSpNn.withOperands [loByte nn, hiByte nn]) s

/-- The table entry of `LD IX,nn` (R195). -/
def entryLdIxNn : Entry := loadPairEntry .ix

/-- The meaning of `LD IX,nn` (R195). -/
def execLdIxNn (nn : Word) (s : State) : Host.Outcome State Fault Refusal :=
  runInstr (entryLdIxNn.withOperands [loByte nn, hiByte nn]) s

/-- The table entry of `LD IY,nn` (R196). -/
def entryLdIyNn : Entry := loadPairEntry .iy

/-- The meaning of `LD IY,nn` (R196). -/
def execLdIyNn (nn : Word) (s : State) : Host.Outcome State Fault Refusal :=
  runInstr (entryLdIyNn.withOperands [loByte nn, hiByte nn]) s

/-! ### Load 8-bit register, immediate -/

/-- The table entry of `LD B,n` (R201). -/
def entryLdBN : Entry := loadReg8Entry .b

/-- The meaning of `LD B,n` (R201). -/
def execLdBN (n : Byte) (s : State) : Host.Outcome State Fault Refusal :=
  runInstr (entryLdBN.withOperands [n]) s

/-- The table entry of `LD C,n` (R202). -/
def entryLdCN : Entry := loadReg8Entry .c

/-- The meaning of `LD C,n` (R202). -/
def execLdCN (n : Byte) (s : State) : Host.Outcome State Fault Refusal :=
  runInstr (entryLdCN.withOperands [n]) s

/-- The table entry of `LD D,n` (R203). -/
def entryLdDN : Entry := loadReg8Entry .d

/-- The meaning of `LD D,n` (R203). -/
def execLdDN (n : Byte) (s : State) : Host.Outcome State Fault Refusal :=
  runInstr (entryLdDN.withOperands [n]) s

/-- The table entry of `LD E,n` (R204). -/
def entryLdEN : Entry := loadReg8Entry .e

/-- The meaning of `LD E,n` (R204). -/
def execLdEN (n : Byte) (s : State) : Host.Outcome State Fault Refusal :=
  runInstr (entryLdEN.withOperands [n]) s

/-- The table entry of `LD H,n` (R205). -/
def entryLdHN : Entry := loadReg8Entry .h

/-- The meaning of `LD H,n` (R205). -/
def execLdHN (n : Byte) (s : State) : Host.Outcome State Fault Refusal :=
  runInstr (entryLdHN.withOperands [n]) s

/-- The table entry of `LD L,n` (R206). -/
def entryLdLN : Entry := loadReg8Entry .l

/-- The meaning of `LD L,n` (R206). -/
def execLdLN (n : Byte) (s : State) : Host.Outcome State Fault Refusal :=
  runInstr (entryLdLN.withOperands [n]) s

/-- The table entry of `LD A,n` (R207). -/
def entryLdAN : Entry := loadReg8Entry .a

/-- The meaning of `LD A,n` (R207). -/
def execLdAN (n : Byte) (s : State) : Host.Outcome State Fault Refusal :=
  runInstr (entryLdAN.withOperands [n]) s

/-! ### Store accumulator at the address in a register pair -/

/-- The table entry of `LD (BC),A` (R211). -/
def entryLdAtBcA : Entry := storeEntry .bc

/-- The meaning of `LD (BC),A` (R211). -/
def execLdAtBcA (s : State) : Host.Outcome State Fault Refusal := runInstr entryLdAtBcA s

/-- The table entry of `LD (DE),A` (R212). -/
def entryLdAtDeA : Entry := storeEntry .de

/-- The meaning of `LD (DE),A` (R212). -/
def execLdAtDeA (s : State) : Host.Outcome State Fault Refusal := runInstr entryLdAtDeA s

/-- The table entry of `LD (HL),A` (R213). -/
def entryLdAtHlA : Entry := storeEntry .hl

/-- The meaning of `LD (HL),A` (R213). -/
def execLdAtHlA (s : State) : Host.Outcome State Fault Refusal := runInstr entryLdAtHlA s

end Sys2Proof.Machine
end

