-- ==== Sys2Proof/Machine/RotateExchange.lean ====
section
/-!
DEFINITION. Machine/RotateExchange.lean: `RLCA` and `EX AF,AF'` (44_rlca_ex R260, R261).
-/

namespace Sys2Proof.Machine

/-- `(A, F) <- rlc8(A, F)` (R260). -/
def State.rotateA (s : State) : State :=
  let q := rlc8 (s.reg8 .a) s.flags
  (s.setReg8 .a q.1).setFlags q.2

/-- `AF <- AF'; AF' <- AF`, both right-hand sides being the values before (R261, 00_scope R8). -/
def State.exchangeAf (s : State) : State :=
  { s with regs.af := s.regs.afShadow, regs.afShadow := s.regs.af }

/-- The table entry of `RLCA` (R260). -/
def entryRlca : Entry := oneCycle State.rotateA

/-- The meaning of `RLCA` (R260). -/
def execRlca (s : State) : Host.Outcome State Fault Refusal := runInstr entryRlca s

/-- The table entry of `EX AF,AF'` (R261). -/
def entryExAfAf : Entry := oneCycle State.exchangeAf

/-- The meaning of `EX AF,AF'` (R261). -/
def execExAfAf (s : State) : Host.Outcome State Fault Refusal := runInstr entryExAfAf s

end Sys2Proof.Machine
end

