-- ==== Sys2Proof/Machine/Dispatch.lean ====
section
/-!
DEFINITION. Machine/Dispatch.lean: one arm per instruction, each one call of its meaning.
-/

namespace Sys2Proof.Machine

def exec (i : Instr) (s : State) : Host.Outcome State Fault Refusal :=
  match i with
  | .nop => Sys2Proof.Machine.execNop s
  | .ldBcNn nn => Sys2Proof.Machine.execLdBcNn nn s
  | .ldAtBcA => Sys2Proof.Machine.execLdAtBcA s
  | .incBc => Sys2Proof.Machine.execIncBc s
  | .incB => Sys2Proof.Machine.execIncB s
  | .decB => Sys2Proof.Machine.execDecB s
  | .ldBN n => Sys2Proof.Machine.execLdBN n s
  | .rlca => Sys2Proof.Machine.execRlca s
  | .exAfAf => Sys2Proof.Machine.execExAfAf s
  | .addHlBc => Sys2Proof.Machine.execAddHlBc s
  | .decBc => Sys2Proof.Machine.execDecBc s
  | .incC => Sys2Proof.Machine.execIncC s
  | .decC => Sys2Proof.Machine.execDecC s
  | .ldCN n => Sys2Proof.Machine.execLdCN n s
  | .ldDeNn nn => Sys2Proof.Machine.execLdDeNn nn s
  | .ldAtDeA => Sys2Proof.Machine.execLdAtDeA s
  | .incDe => Sys2Proof.Machine.execIncDe s
  | .incD => Sys2Proof.Machine.execIncD s
  | .decD => Sys2Proof.Machine.execDecD s
  | .ldDN n => Sys2Proof.Machine.execLdDN n s
  | .addHlDe => Sys2Proof.Machine.execAddHlDe s
  | .decDe => Sys2Proof.Machine.execDecDe s
  | .incE => Sys2Proof.Machine.execIncE s
  | .decE => Sys2Proof.Machine.execDecE s
  | .ldEN n => Sys2Proof.Machine.execLdEN n s
  | .ldHlNn nn => Sys2Proof.Machine.execLdHlNn nn s
  | .incHl => Sys2Proof.Machine.execIncHl s
  | .incH => Sys2Proof.Machine.execIncH s
  | .decH => Sys2Proof.Machine.execDecH s
  | .ldHN n => Sys2Proof.Machine.execLdHN n s
  | .addHlHl => Sys2Proof.Machine.execAddHlHl s
  | .decHl => Sys2Proof.Machine.execDecHl s
  | .incL => Sys2Proof.Machine.execIncL s
  | .decL => Sys2Proof.Machine.execDecL s
  | .ldLN n => Sys2Proof.Machine.execLdLN n s
  | .ldSpNn nn => Sys2Proof.Machine.execLdSpNn nn s
  | .incSp => Sys2Proof.Machine.execIncSp s
  | .addHlSp => Sys2Proof.Machine.execAddHlSp s
  | .decSp => Sys2Proof.Machine.execDecSp s
  | .incA => Sys2Proof.Machine.execIncA s
  | .decA => Sys2Proof.Machine.execDecA s
  | .ldAN n => Sys2Proof.Machine.execLdAN n s
  | .halt => Sys2Proof.Machine.execHalt s
  | .ldAtHlA => Sys2Proof.Machine.execLdAtHlA s
  | .prefixIx => Sys2Proof.Machine.execPrefixIx s
  | .prefixIy => Sys2Proof.Machine.execPrefixIy s
  | .addIxBc => Sys2Proof.Machine.execAddIxBc s
  | .addIxDe => Sys2Proof.Machine.execAddIxDe s
  | .ldIxNn nn => Sys2Proof.Machine.execLdIxNn nn s
  | .incIx => Sys2Proof.Machine.execIncIx s
  | .addIxIx => Sys2Proof.Machine.execAddIxIx s
  | .decIx => Sys2Proof.Machine.execDecIx s
  | .addIxSp => Sys2Proof.Machine.execAddIxSp s
  | .addIyBc => Sys2Proof.Machine.execAddIyBc s
  | .addIyDe => Sys2Proof.Machine.execAddIyDe s
  | .ldIyNn nn => Sys2Proof.Machine.execLdIyNn nn s
  | .incIy => Sys2Proof.Machine.execIncIy s
  | .addIyIy => Sys2Proof.Machine.execAddIyIy s
  | .decIy => Sys2Proof.Machine.execDecIy s
  | .addIySp => Sys2Proof.Machine.execAddIySp s
  | .unrecognised op => Sys2Proof.Machine.execUnrecognised op s

end Sys2Proof.Machine
end

