-- ==== Sys2Proof/Machine/Table.lean ====
section
/-!
DEFINITION. Machine/Table.lean: the opcode table as table entries, and the tick function of the hardware: the engine
with the entry that `OPACC` selects (30_encoding R108, 10_state R48, 40_sequencer R130).
-/

namespace Sys2Proof.Machine

/-- The table entry of an instruction (30_encoding R108); it does not depend on the immediate. -/
def entryOf : Instr → Entry
  | .nop => entryNop
  | .ldBcNn _ => entryLdBcNn
  | .ldAtBcA => entryLdAtBcA
  | .incBc => entryIncBc
  | .incB => entryIncB
  | .decB => entryDecB
  | .ldBN _ => entryLdBN
  | .rlca => entryRlca
  | .exAfAf => entryExAfAf
  | .addHlBc => entryAddHlBc
  | .decBc => entryDecBc
  | .incC => entryIncC
  | .decC => entryDecC
  | .ldCN _ => entryLdCN
  | .ldDeNn _ => entryLdDeNn
  | .ldAtDeA => entryLdAtDeA
  | .incDe => entryIncDe
  | .incD => entryIncD
  | .decD => entryDecD
  | .ldDN _ => entryLdDN
  | .addHlDe => entryAddHlDe
  | .decDe => entryDecDe
  | .incE => entryIncE
  | .decE => entryDecE
  | .ldEN _ => entryLdEN
  | .ldHlNn _ => entryLdHlNn
  | .incHl => entryIncHl
  | .incH => entryIncH
  | .decH => entryDecH
  | .ldHN _ => entryLdHN
  | .addHlHl => entryAddHlHl
  | .decHl => entryDecHl
  | .incL => entryIncL
  | .decL => entryDecL
  | .ldLN _ => entryLdLN
  | .ldSpNn _ => entryLdSpNn
  | .incSp => entryIncSp
  | .addHlSp => entryAddHlSp
  | .decSp => entryDecSp
  | .incA => entryIncA
  | .decA => entryDecA
  | .ldAN _ => entryLdAN
  | .halt => entryHalt
  | .ldAtHlA => entryLdAtHlA
  | .prefixIx => entryPrefixIx
  | .prefixIy => entryPrefixIy
  | .addIxBc => entryAddIxBc
  | .addIxDe => entryAddIxDe
  | .ldIxNn _ => entryLdIxNn
  | .incIx => entryIncIx
  | .addIxIx => entryAddIxIx
  | .decIx => entryDecIx
  | .addIxSp => entryAddIxSp
  | .addIyBc => entryAddIyBc
  | .addIyDe => entryAddIyDe
  | .ldIyNn _ => entryLdIyNn
  | .incIy => entryIncIy
  | .addIyIy => entryAddIyIy
  | .decIy => entryDecIy
  | .addIySp => entryAddIySp
  | .unrecognised op => entryUnrecognised op

/-- `ENTRY(op)` (30_encoding R108, R109). -/
def tableEntry (op : Word) : Entry := entryOf (lookup op 0x00#8 0x00#8)

/-- `Tick(state, in) -> (state', result)` (40_sequencer R130, R149), the hardware: total and deterministic. -/
def tick (l : TickIn) (s : State) : State × TickResult := tickAs (tableEntry s.seq.opacc) l s

/-- One round of the host's loop: the backend's service, then one tick with the next levels of the schedule
(70_reset R365). -/
def clock (s : State) : State × TickResult := tick s.nextLevels s.served

/-- `n` rounds of the host's loop. -/
def clockN : Nat → State → State
  | 0, s => s
  | n + 1, s => clockN n (clock s).1

end Sys2Proof.Machine
end

