-- ==== Sys2Proof/Machine/Step.lean ====
section
/-!
DEFINITION. Machine/Step.lean: one step of the machine (log 1). From a fetch on it runs the table entry that the
pending byte and the bytes at `PC` select, through the ticks of all its machine cycles; a prefix byte is an
entry of its own. In every other state (in mid-instruction, or frozen) a step is one round of the host's loop.
-/

namespace Sys2Proof.Machine

/-- One step of the machine. -/
def step (s : State) : Host.Outcome State Fault Refusal :=
  if s.atFetch then
    match decode s.pendingByte s.streamBytes with
    | .ok (i, _) => exec i s
    | .error _   => .next (clock s).1
  else .next (clock s).1

/-- `s` with the instruction word `w` where the next step fetches (log 7): bits 15:8, the pending byte of the
table's effective opcode, in `OPACC[15:8]`, and the opcode byte and the bytes after it at `PC`. What a
fetch needs besides: `STEP = 0`, `PH = H`, the engine neither stopped nor halted, `WR` and `RFSH` released, and
a schedule that asserts no line. -/
def State.withFetchWord (s : State) (nbits w : Nat) : State :=
  let v := w % 2 ^ nbits
  let pc := s.regs.pc
  { s with
    mem := ((s.mem.write pc (BitVec.ofNat 8 v)).write (pc + 1#16) (BitVec.ofNat 8 (v / 2 ^ 16))).write
      (pc + 2#16) (BitVec.ofNat 8 (v / 2 ^ 24))
    seq.opacc := joinBytes (BitVec.ofNat 8 (v / 2 ^ 8)) (loByte s.seq.opacc)
    seq.step := 0#8
    seq.ph := .high
    ctl.stopped := false
    ctl.haltf := false
    bus.halt := false
    bus.wr := false
    bus.rfsh := false
    inputs := [] }

end Sys2Proof.Machine
end

