-- ==== Sys2Proof/Safety.lean ====
section
/-!
DEFINITION. Safety.lean: the terms that claims use: when a step runs the instruction it fetches, what every completed
instruction leaves behind, and the invariants of 10_state R57 with the bus levels of 40_sequencer R163.
-/

namespace Sys2Proof.Machine

/-! ### Where a step runs the instruction it fetches -/

/-- The host asserts `RESET` at no tick still to come. Every other line is free: waits, interrupts, bus
requests and ignored clock levels may stand in the schedule. -/
def State.noReset (s : State) : Bool := s.inputs.all (fun l => !l.reset)

/-- The machine is at a fetch, not halted, and no reset is to come. -/
def State.ready (s : State) : Bool := s.atFetch && s.noReset && !s.ctl.haltf

/-- Input levels that some tick of a step from `s` can have: a record of the schedule, or no line asserted. -/
def State.mayRead (s : State) (l : TickIn) : Prop := l = TickIn.idle .low ∨ l ∈ s.inputs

/-- The host asserts `WAIT` at no tick still to come. -/
def State.noWait (s : State) : Bool := s.inputs.all (fun l => !l.wait)

/-- The engine accepts a tick with the levels `l`: no reset, not stopped, the expected phase (40_sequencer R149). -/
def State.accepts (l : TickIn) (s : State) : Bool := !l.reset && !s.ctl.stopped && l.clk == s.seq.ph

/-- The next tick, if accepted at the low phase, is T2 low of a bus cycle: of the opcode fetch, an operand read or a
memory write (40_sequencer R162). -/
def State.atT2 (s : State) : Bool :=
  match s.seq.step.toNat with
  | 1 => true
  | n + 4 =>
    n % 4 == 1 &&
      match (tableEntry s.seq.opacc).later[n / 4]? with
      | some (.operandRead _) => true
      | some (.memoryWrite _) => true
      | some .internal        => false
      | none                  => false
  | _ => false

/-- The next tick, if accepted at the high phase, is T4 high of a cycle that reads the instruction stream: of the opcode
fetch or an operand read (10_state R26). -/
def State.atStreamT4 (s : State) : Bool :=
  match s.seq.step.toNat with
  | 3 => true
  | n + 4 =>
    n % 4 == 3 &&
      match (tableEntry s.seq.opacc).later[n / 4]? with
      | some (.operandRead _) => true
      | some (.memoryWrite _) => false
      | some .internal        => false
      | none                  => false
  | _ => false

/-- The two states agree in everything but what no rule reads: `IM`, `INTACT`, `UNSUP`, `UNSUP_OP`, `TMP` and the
totals (10_state R39, R41, R45, R47). -/
def SameButUnread (s t : State) : Prop :=
  { s with ctl.im := t.ctl.im, ctl.intact := t.ctl.intact, ctl.unsup := t.ctl.unsup, ctl.unsupOp := t.ctl.unsupOp,
           seq.tmp := t.seq.tmp, totals := t.totals } = t

/-! ### What a completed entry leaves behind -/

/-- All five transfer lines are released (40_sequencer R163, last row). -/
def Bus.quiet (b : Bus) : Bool := !b.m1 && !b.mreq && !b.rd && !b.wr && !b.rfsh

/-- What every entry of `n` machine cycles leaves behind when it has run from a fetch in `s` to the end of its last
machine cycle in `t` (40_sequencer R145, R147, 70_reset R360): eight ticks for each machine cycle, and two
for each of its `w` waits. -/
structure Settled (n : Nat) (s t : State) : Prop where
  step     : t.seq.step = 0#8
  phase    : t.seq.ph = .high
  lines    : t.bus.quiet = true
  busack   : t.bus.busack = s.bus.busack
  cycles   : t.totals.mcycles = s.totals.mcycles + BitVec.ofNat 64 n
  ticks    : ∃ w : Nat, t.totals.ticks = s.totals.ticks + BitVec.ofNat 64 (8 * n + 2 * w) ∧ (s.noWait = true → w = 0)
  params   : t.cfg = s.cfg
  schedule : t.inputs <:+ s.inputs

/-- What every instruction but `HALT`, a prefix byte and an unrecognised opcode leaves besides (40_sequencer R143, R145):
in the control state, what the interrupt sample on the levels `l` of its M1 T4 low leaves there; the pending
byte cleared; one more instruction. -/
structure Completed (n : Nat) (l : TickIn) (s t : State) : Prop extends Settled n s t where
  levels  : s.mayRead l
  control : t.ctl = (s.sample l).ctl
  halt    : t.bus.halt = (s.sample l).bus.halt
  opacc   : t.seq.opacc = joinBytes 0x00#8 (s.mem.read s.regs.pc)
  instrs  : t.totals.instrs = s.totals.instrs + 1#64

/-- What an entry with no bus cycle after its opcode fetch leaves alone besides, and what stands on the bus: every
byte of memory, `TMP`, the refresh address of the fetch, the opcode byte (40_sequencer R139, R163). -/
structure OnlyFetched (s t : State) : Prop where
  mem  : t.mem = s.mem
  tmp  : t.seq.tmp = s.seq.tmp
  addr : t.bus.addr = joinBytes s.regs.i s.regs.r
  data : t.bus.data = s.mem.read s.regs.pc

/-- The register file after the entry: as `r` says, but `PC` moved by `n` and `R` stepped once (10_state R26, R28). -/
def Regs.moved (r : Regs) (n : Nat) (s : State) : Regs :=
  { r with pc := s.regs.pc + BitVec.ofNat 16 n, r := refreshNext s.regs.r }

/-! ### The families, by shape -/

/-- `INC r` (43_incdec R221 to R227). -/
def incRegForms : List (Instr × Reg8) :=
  [(.incB, .b), (.incC, .c), (.incD, .d), (.incE, .e), (.incH, .h), (.incL, .l), (.incA, .a)]

/-- `DEC r` (43_incdec R231 to R237). -/
def decRegForms : List (Instr × Reg8) :=
  [(.decB, .b), (.decC, .c), (.decD, .d), (.decE, .e), (.decH, .h), (.decL, .l), (.decA, .a)]

/-- `INC rr` (43_incdec R241 to R246). -/
def incPairForms : List (Instr × Pair) :=
  [(.incBc, .bc), (.incDe, .de), (.incHl, .hl), (.incSp, .sp), (.incIx, .ix), (.incIy, .iy)]

/-- `DEC rr` (43_incdec R251 to R256). -/
def decPairForms : List (Instr × Pair) :=
  [(.decBc, .bc), (.decDe, .de), (.decHl, .hl), (.decSp, .sp), (.decIx, .ix), (.decIy, .iy)]

/-- `LD r,n` (42_loads R201 to R207). -/
def loadRegForms (n : Byte) : List (Instr × Reg8) :=
  [(.ldBN n, .b), (.ldCN n, .c), (.ldDN n, .d), (.ldEN n, .e), (.ldHN n, .h), (.ldLN n, .l), (.ldAN n, .a)]

/-- `LD rr,nn` (42_loads R191 to R196). -/
def loadPairForms (nn : Word) : List (Instr × Pair) :=
  [(.ldBcNn nn, .bc), (.ldDeNn nn, .de), (.ldHlNn nn, .hl), (.ldSpNn nn, .sp), (.ldIxNn nn, .ix), (.ldIyNn nn, .iy)]

/-- `LD (rr),A` (42_loads R211 to R213). -/
def storeForms : List (Instr × Pair) := [(.ldAtBcA, .bc), (.ldAtDeA, .de), (.ldAtHlA, .hl)]

/-- The 16-bit adds, with destination and source (45_add16 R271 to R284). -/
def addForms : List (Instr × Pair × Pair) :=
  [(.addHlBc, .hl, .bc), (.addHlDe, .hl, .de), (.addHlHl, .hl, .hl), (.addHlSp, .hl, .sp),
   (.addIxBc, .ix, .bc), (.addIxDe, .ix, .de), (.addIxIx, .ix, .ix), (.addIxSp, .ix, .sp),
   (.addIyBc, .iy, .bc), (.addIyDe, .iy, .de), (.addIyIy, .iy, .iy), (.addIySp, .iy, .sp)]

/-! ### Invariants -/

/-- `(MREQ, RD, WR)` in a state whose next accepted tick has the T-state `t` (from 0) and the phase `c` of a
later machine cycle (40_sequencer R150, R155, R158). -/
def Cycle.levels (c : Cycle) (t : Nat) (p : Level) : Bool × Bool × Bool :=
  match c with
  | .internal => (false, false, false)
  | .operandRead _ =>
    match t, p with
    | 1, _     => (true, true, false)
    | 2, .high => (true, true, false)
    | 2, .low  => (true, false, false)
    | _, _     => (false, false, false)
  | .memoryWrite _ =>
    match t, p with
    | 1, _     => (true, false, true)
    | 2, .high => (true, false, true)
    | 2, .low  => (true, false, false)
    | _, _     => (false, false, false)

/-- The levels of `M1 MREQ RD WR RFSH` that the tick rules give a state, by its `STEP` and `PH` (40_sequencer R163 for
M1, R136 for the halted hold, R141 for the frozen engine); a `STEP` of 4 and more needs a machine cycle of
the entry in force. -/
def State.linesFit (s : State) : Bool :=
  match s.seq.step.toNat, s.seq.ph with
  | 0, .high =>
    !s.bus.wr && !s.bus.rfsh && (s.bus.m1 == s.bus.mreq) && (s.bus.m1 == s.bus.rd) && (!s.bus.m1 || s.ctl.haltf)
  | 0, .low =>
    s.bus.m1 && !s.bus.wr && !s.bus.rfsh && (s.bus.mreq == s.bus.rd) && (!s.bus.mreq || s.ctl.haltf)
  | 1, _ => s.bus.m1 && s.bus.mreq && s.bus.rd && !s.bus.wr && !s.bus.rfsh
  | 2, .high =>
    if s.ctl.stopped then !s.bus.m1 && !s.bus.mreq && !s.bus.rd && !s.bus.wr && s.bus.rfsh
    else s.bus.m1 && s.bus.mreq && s.bus.rd && !s.bus.wr && !s.bus.rfsh
  | 2, .low => !s.bus.m1 && s.bus.mreq && !s.bus.rd && !s.bus.wr && s.bus.rfsh
  | 3, _ => !s.bus.m1 && !s.bus.mreq && !s.bus.rd && !s.bus.wr && s.bus.rfsh
  | n + 4, p =>
    !s.bus.m1 && !s.bus.rfsh &&
      match (tableEntry s.seq.opacc).later[n / 4]? with
      | none   => false
      | some c => (s.bus.mreq, s.bus.rd, s.bus.wr) == c.levels (n % 4) p

/-- The invariant that every tick keeps (10_state R57): `HALT = HALTF`, `BUSACK` idle, `OPACC[15:8]` a byte it can
hold, the frozen engine only at the decode tick under `strict`, and the lines as the tick rules give them,
which bounds `STEP` by the machine cycles of the entry in force. -/
def State.inv (s : State) : Bool :=
  (s.bus.halt == s.ctl.haltf) && !s.bus.busack && isPendingByte s.pendingByte &&
    (!s.ctl.stopped || (s.seq.step == 2#8 && s.seq.ph == .high && s.cfg.policy == .strict && s.ctl.unsup)) &&
    s.linesFit

/-- The states that a reset of `s0` and any ticks lead to, with any input levels, and any bytes that a backend
puts on `DATA` or stores in memory between them (10_state R57, 20_memory R73, R74). -/
inductive TickReachable (s0 : State) : State → Prop
  | reset : TickReachable s0 s0.resetOp
  | tick {s : State} (l : TickIn) : TickReachable s0 s → TickReachable s0 (tick l s).1
  | backend {s : State} (d : Byte) (m : Memory) (ls : List TickIn) :
      TickReachable s0 s → TickReachable s0 { s with bus.data := d, mem := m, inputs := ls }

end Sys2Proof.Machine
end

