-- ==== Sys2Proof/Certificates/Slice0/Obligations.lean ====
section
/-!
DEFINITION. Certificates/Slice0/Obligations.lean: the statements for the provers. Each docstring names the rule or the
section of spec/ it formalises. `s.ready` says that the machine is at a fetch, not halted, and that the
host asserts no reset at a tick still to come; waits, interrupts, bus requests and ignored ticks are free.
-/

open Sys2Proof Sys2Proof.Machine

/-! ### Encoding -/

/-- Decoding the bytes of a well-formed instruction from its opcode byte on, while its pending byte stands in
`OPACC[15:8]`, gives it back with every operand, and the bytes after it (30_encoding R105, R107, R108, R109). -/
def Obligations.DecodeOfBodyGivesInstruction : Prop :=
  ∀ (i : Instr) (rest : List Byte), i.wellFormed = true →
    decode i.pendingByte (i.body ++ rest) = .ok (i, rest)

/-- The same for the instruction as it lies in memory, prefix byte first (30_encoding R101, R111). The two prefix bytes
themselves are not in it: with a byte after them they are part of that byte's instruction (R111). -/
def Obligations.DecodeOfEncodeInMemory : Prop :=
  ∀ (i : Instr) (rest : List Byte), i.wellFormed = true → i ≠ .prefixIx → i ≠ .prefixIy →
    decodeBytes (encode i ++ rest) = .ok (i, rest)

/-- The other direction: what the decoder accepts is a well-formed instruction, with the pending byte it needs, and
the bytes are its own followed by the rest. So every byte sequence has one meaning (30_encoding R108, R111). -/
def Obligations.DecodedBytesAreTheBody : Prop :=
  ∀ (p : Byte) (bytes rest : List Byte) (i : Instr), decode p bytes = .ok (i, rest) →
    i.wellFormed = true ∧ i.pendingByte = p ∧ bytes = i.body ++ rest

/-- With at least three bytes and a pending byte that `OPACC[15:8]` can hold, the decoder accepts: no opcode byte is
reserved or traps (30_encoding R109, R110). -/
def Obligations.EveryOpcodeByteDecodes : Prop :=
  ∀ (p b0 b1 b2 : Byte) (rest : List Byte), isPendingByte p = true →
    ∃ i rest', decode p (b0 :: b1 :: b2 :: rest) = .ok (i, rest')

/-- A prefixed effective opcode without an entry is the unrecognised one-byte instruction, never the unprefixed
instruction of its opcode byte (30_encoding R109, R110). -/
def Obligations.NoFallbackToUnprefixed : Prop :=
  ∀ (p b : Byte) (rest : List Byte), isPendingByte p = true → isTableOpcode (joinBytes p b) = false →
    decode p (b :: rest) = .ok (.unrecognised (joinBytes p b), rest)

/-- A few words from the encodings of 30_encoding R108, as the bytes lie in memory. -/
def Obligations.SampleWordsDecode : Prop :=
  decodeBytes [0x00#8] = .ok (.nop, []) ∧
  decodeBytes [0x01#8, 0x34#8, 0x12#8] = .ok (.ldBcNn 0x1234#16, []) ∧
  decodeBytes [0x12#8] = .ok (.ldAtDeA, []) ∧
  decodeBytes [0x2d#8] = .ok (.decL, []) ∧
  decodeBytes [0x3e#8, 0x81#8] = .ok (.ldAN 0x81#8, []) ∧
  decodeBytes [0x76#8] = .ok (.halt, []) ∧
  decodeBytes [0xdd#8, 0x21#8, 0xff#8, 0x0f#8] = .ok (.ldIxNn 0x0fff#16, []) ∧
  decodeBytes [0xfd#8, 0x39#8] = .ok (.addIySp, []) ∧
  decodeBytes [0xdd#8, 0x04#8] = .ok (.unrecognised 0xdd04#16, []) ∧
  decodeBytes [0xc3#8, 0x34#8, 0x12#8] = .ok (.unrecognised 0x00c3#16, [0x34#8, 0x12#8])

/-! ### Flags and registers -/

/-- 10_state R34, bit by bit. The spec marks its formulas for `H` and `PV` as its own, [from general knowledge, not in
source] (log 6). -/
def Obligations.IncrementFlags : Prop :=
  ∀ v f : Byte,
    (inc8 v f).1 = v + 1#8 ∧
    flagS (inc8 v f).2 = (inc8 v f).1.getLsbD 7 ∧
    flagZ (inc8 v f).2 = decide ((inc8 v f).1 = 0x00#8) ∧
    flagF5 (inc8 v f).2 = (inc8 v f).1.getLsbD 5 ∧
    flagH (inc8 v f).2 = decide (v.toNat % 16 = 15) ∧
    flagF3 (inc8 v f).2 = (inc8 v f).1.getLsbD 3 ∧
    flagPV (inc8 v f).2 = decide (v = 0x7f#8) ∧
    flagN (inc8 v f).2 = false ∧
    flagC (inc8 v f).2 = flagC f

/-- 10_state R35, bit by bit. The spec marks its formulas for `H` and `PV` as its own, [from general knowledge, not in
source] (log 6). -/
def Obligations.DecrementFlags : Prop :=
  ∀ v f : Byte,
    (dec8 v f).1 = v - 1#8 ∧
    flagS (dec8 v f).2 = (dec8 v f).1.getLsbD 7 ∧
    flagZ (dec8 v f).2 = decide ((dec8 v f).1 = 0x00#8) ∧
    flagF5 (dec8 v f).2 = (dec8 v f).1.getLsbD 5 ∧
    flagH (dec8 v f).2 = decide (v.toNat % 16 = 0) ∧
    flagF3 (dec8 v f).2 = (dec8 v f).1.getLsbD 3 ∧
    flagPV (dec8 v f).2 = decide (v = 0x80#8) ∧
    flagN (dec8 v f).2 = true ∧
    flagC (dec8 v f).2 = flagC f

/-- 10_state R36, bit by bit; the result as a number is twice the operand plus its top bit, modulo 256. -/
def Obligations.RotateFlags : Prop :=
  ∀ a f : Byte,
    (rlc8 a f).1.toNat = (2 * a.toNat) % 256 + a.toNat / 128 ∧
    flagS (rlc8 a f).2 = flagS f ∧
    flagZ (rlc8 a f).2 = flagZ f ∧
    flagF5 (rlc8 a f).2 = (rlc8 a f).1.getLsbD 5 ∧
    flagH (rlc8 a f).2 = false ∧
    flagF3 (rlc8 a f).2 = (rlc8 a f).1.getLsbD 3 ∧
    flagPV (rlc8 a f).2 = flagPV f ∧
    flagN (rlc8 a f).2 = false ∧
    flagC (rlc8 a f).2 = a.getLsbD 7

/-- 10_state R37, bit by bit, with the carries as comparisons of the exact sums. That the half-carry is the carry out of bit
11 the spec marks as its own, [from general knowledge, not in source] (log 6). -/
def Obligations.AddFlags : Prop :=
  ∀ (d s : Word) (f : Byte),
    (add16 d s f).1 = d + s ∧
    flagS (add16 d s f).2 = flagS f ∧
    flagZ (add16 d s f).2 = flagZ f ∧
    flagF5 (add16 d s f).2 = (d + s).getLsbD 13 ∧
    flagH (add16 d s f).2 = decide (4096 ≤ d.toNat % 4096 + s.toNat % 4096) ∧
    flagF3 (add16 d s f).2 = (d + s).getLsbD 11 ∧
    flagPV (add16 d s f).2 = flagPV f ∧
    flagN (add16 d s f).2 = false ∧
    flagC (add16 d s f).2 = decide (65536 ≤ d.toNat + s.toNat)

/-- Halves are views of pairs (10_state R21): a pair is its two halves; writing a half is writing the pair with that half
replaced, and it changes nothing else. -/
def Obligations.HalvesAreViewsOfPairs : Prop :=
  (∀ (s : State) (p : Pair), s.pair p = joinBytes (s.pairHigh p) (s.pairLow p)) ∧
  (∀ (s : State) (p : Pair) (v : Byte),
    s.setPairHigh p v = s.setPair p (joinBytes v (s.pairLow p)) ∧
    s.setPairLow p v = s.setPair p (joinBytes (s.pairHigh p) v)) ∧
  (∀ (s : State) (p q : Pair) (v : Word),
    (s.setPair p v).pair q = if q = p then v else s.pair q) ∧
  (∀ (s : State) (q r : Reg8) (v : Byte),
    (s.setReg8 r v).reg8 q = (if q = r then v else s.reg8 q) ∧
    (s.setReg8 r v).flags = s.flags ∧
    (∀ p, p ≠ r.home → (s.setReg8 r v).pair p = s.pair p))

/-- Which half of which pair each 8-bit register is (10_state R22). The spec marks the assignment of letters to halves as its
own, [from general knowledge, not in source] (log 6). -/
def Obligations.HalvesByName : Prop :=
  (∀ s : State,
    s.reg8 .a = hiByte s.regs.af ∧ s.flags = loByte s.regs.af ∧
    s.reg8 .b = hiByte s.regs.bc ∧ s.reg8 .c = loByte s.regs.bc ∧
    s.reg8 .d = hiByte s.regs.de ∧ s.reg8 .e = loByte s.regs.de ∧
    s.reg8 .h = hiByte s.regs.hl ∧ s.reg8 .l = loByte s.regs.hl) ∧
  (∀ (s : State) (v : Byte), (s.setFlags v).flags = v ∧ (s.setFlags v).reg8 .a = s.reg8 .a)

/-- The refresh step counts in the low seven bits and keeps the top bit (10_state R28). -/
def Obligations.RefreshStepValue : Prop :=
  ∀ r : Byte,
    (refreshNext r).toNat % 128 = (r.toNat % 128 + 1) % 128 ∧ (refreshNext r).getLsbD 7 = r.getLsbD 7

/-! ### Memory -/

/-- A byte read after a byte write: the byte written at its address, the old byte at every other; and the write
keeps the canonical form (20_memory R76, R83; the form is the model's, log 4). -/
def Obligations.ReadAfterWrite : Prop :=
  ∀ (m : Memory) (a b : Word) (v : Byte), m.wf = true →
    (m.write a v).wf = true ∧ (m.write a v).read b = if b = a then v else m.read b

/-- The reference backend, which 20_memory R76 calls the spec's own choice and not part of the core: what a service does to `DATA` and to memory, that it does nothing else, that
it comes before every tick, and that by default every address accepts writes. -/
def Obligations.BackendService : Prop :=
  (∀ s : State, s.mem.wf = true →
    let reads := s.bus.mreq && s.bus.rd && !s.bus.rfsh
    let writes := s.bus.mreq && s.bus.wr && !s.bus.rfsh && writable s.cfg s.bus.addr
    let d := if reads then s.mem.read s.bus.addr else s.bus.data
    s.service.bus = { s.bus with data := d } ∧
    (∀ a : Word, s.service.mem.read a = if writes && a == s.bus.addr then d else s.mem.read a) ∧
    s.service.regs = s.regs ∧ s.service.ctl = s.ctl ∧ s.service.seq = s.seq ∧ s.service.totals = s.totals ∧
    s.service.cfg = s.cfg ∧ s.service.inputs = s.inputs) ∧
  (∀ s : State, clock s = tick s.nextLevels (s.service.setInputs s.inputs.tail)) ∧
  (∀ a : Word, writable Config.default a = true)

/-! ### What each instruction does -/

/-- `INC r` (43_incdec R220), for the seven registers: the register and `F` are those of `inc8`, `PC` moves by one,
nothing else is written; it completes from every ready state. Register code 6 is no entry, nor is a prefixed
form. -/
def Obligations.IncRegisterResult : Prop :=
  (∀ (i : Instr) (r : Reg8), (i, r) ∈ incRegForms → ∀ s : State, s.ready = true →
    ∃ (l : TickIn) (t : State), exec i s = .next t ∧ Completed 1 l s t ∧ OnlyFetched s t ∧
      t.regs = ((s.setReg8 r (inc8 (s.reg8 r) s.flags).1).setFlags (inc8 (s.reg8 r) s.flags).2).regs.moved 1 s) ∧
  isTableOpcode 0x0034#16 = false ∧
  (∀ (i : Instr) (r : Reg8), (i, r) ∈ incRegForms →
    isTableOpcode (joinBytes 0xdd#8 (loByte i.opcode)) = false ∧ isTableOpcode (joinBytes 0xfd#8 (loByte i.opcode)) = false)

/-- `DEC r` (43_incdec R230), for the seven registers, as `INC r` with `dec8`. -/
def Obligations.DecRegisterResult : Prop :=
  (∀ (i : Instr) (r : Reg8), (i, r) ∈ decRegForms → ∀ s : State, s.ready = true →
    ∃ (l : TickIn) (t : State), exec i s = .next t ∧ Completed 1 l s t ∧ OnlyFetched s t ∧
      t.regs = ((s.setReg8 r (dec8 (s.reg8 r) s.flags).1).setFlags (dec8 (s.reg8 r) s.flags).2).regs.moved 1 s) ∧
  isTableOpcode 0x0035#16 = false ∧
  (∀ (i : Instr) (r : Reg8), (i, r) ∈ decRegForms →
    isTableOpcode (joinBytes 0xdd#8 (loByte i.opcode)) = false ∧ isTableOpcode (joinBytes 0xfd#8 (loByte i.opcode)) = false)

/-- `INC rr` (43_incdec R240 to R246), for the six pairs, from the opcode byte on: the pair plus one modulo 65536, no
flag written. -/
def Obligations.IncPairResult : Prop :=
  ∀ (i : Instr) (rr : Pair), (i, rr) ∈ incPairForms → ∀ s : State, s.ready = true →
    ∃ (l : TickIn) (t : State), exec i s = .next t ∧ Completed 1 l s t ∧ OnlyFetched s t ∧
      t.regs = (s.setPair rr (s.pair rr + 1#16)).regs.moved 1 s ∧ t.flags = s.flags

/-- `DEC rr` (43_incdec R250 to R256), for the six pairs, from the opcode byte on. -/
def Obligations.DecPairResult : Prop :=
  ∀ (i : Instr) (rr : Pair), (i, rr) ∈ decPairForms → ∀ s : State, s.ready = true →
    ∃ (l : TickIn) (t : State), exec i s = .next t ∧ Completed 1 l s t ∧ OnlyFetched s t ∧
      t.regs = (s.setPair rr (s.pair rr - 1#16)).regs.moved 1 s ∧ t.flags = s.flags

/-- `LD r,n` (42_loads R200 to R207), for the seven registers: the immediate lands in the register, no flag is written,
`PC` moves by two, and the operand byte's address and value stay on the bus. -/
def Obligations.LoadRegisterResult : Prop :=
  ∀ (n : Byte) (i : Instr) (r : Reg8), (i, r) ∈ loadRegForms n → ∀ s : State, s.ready = true →
    ∃ (l : TickIn) (t : State), exec i s = .next t ∧ Completed 2 l s t ∧
      t.regs = (s.setReg8 r n).regs.moved 2 s ∧ t.flags = s.flags ∧ t.mem = s.mem ∧ t.seq.tmp = s.seq.tmp ∧
      t.bus.addr = s.regs.pc + 1#16 ∧ t.bus.data = s.mem.read (s.regs.pc + 1#16)

/-- `LD rr,nn` (42_loads R190 to R196), for the six pairs, from the opcode byte on: the immediate lands in the pair,
`TMP` keeps its low byte, no flag is written, `PC` moves by three. -/
def Obligations.LoadPairResult : Prop :=
  ∀ (nn : Word) (i : Instr) (rr : Pair), (i, rr) ∈ loadPairForms nn → ∀ s : State, s.ready = true →
    ∃ (l : TickIn) (t : State), exec i s = .next t ∧ Completed 3 l s t ∧
      t.regs = (s.setPair rr nn).regs.moved 3 s ∧ t.flags = s.flags ∧ t.mem = s.mem ∧ t.seq.tmp = loByte nn ∧
      t.bus.addr = s.regs.pc + 2#16 ∧ t.bus.data = s.mem.read (s.regs.pc + 2#16)

/-- `LD (rr),A` (42_loads R210 to R213), for the three pairs: the byte at the address in the pair becomes the
accumulator where the backend accepts writes and stays where it does not, every other byte of memory reads as
before, no register or flag is written, `PC` moves by one, and the address and the accumulator stand on the bus. -/
def Obligations.StoreResult : Prop :=
  ∀ (i : Instr) (rr : Pair), (i, rr) ∈ storeForms → ∀ s : State, s.ready = true → s.mem.wf = true →
    ∃ (l : TickIn) (t : State), exec i s = .next t ∧ Completed 2 l s t ∧
      t.regs = s.regs.moved 1 s ∧
      t.mem.read (s.pair rr) = (if writable s.cfg (s.pair rr) then s.reg8 .a else s.mem.read (s.pair rr)) ∧
      (∀ a : Word, a ≠ s.pair rr → t.mem.read a = s.mem.read a) ∧ t.mem.wf = true ∧
      t.seq.tmp = s.seq.tmp ∧ t.bus.addr = s.pair rr ∧ t.bus.data = s.reg8 .a

/-- `RLCA` (44_rlca_ex R260): `A` and `F` are those of `rlc8`, nothing else is written; the
instruction is the byte 07, and the byte 0xCB is no entry. -/
def Obligations.RotateResult : Prop :=
  (∀ s : State, s.ready = true →
    ∃ (l : TickIn) (t : State), exec .rlca s = .next t ∧ Completed 1 l s t ∧ OnlyFetched s t ∧
      t.regs = ((s.setReg8 .a (rlc8 (s.reg8 .a) s.flags).1).setFlags (rlc8 (s.reg8 .a) s.flags).2).regs.moved 1 s) ∧
  encode .rlca = [0x07#8] ∧ isTableOpcode 0x00cb#16 = false

/-- `EX AF,AF'` (44_rlca_ex R261): the two 16-bit values change places, no other register changes. -/
def Obligations.ExchangeResult : Prop :=
  (∀ s : State, s.ready = true →
    ∃ (l : TickIn) (t : State), exec .exAfAf s = .next t ∧ Completed 1 l s t ∧ OnlyFetched s t ∧
      t.regs = ({ s.regs with af := s.regs.afShadow, afShadow := s.regs.af } : Regs).moved 1 s) ∧
  encode .exAfAf = [0x08#8]

/-- The twelve 16-bit adds (45_add16 R270, R275, R280), from the opcode byte on: destination and `F` are those of `add16`,
no bus cycle follows the fetch, three machine cycles. -/
def Obligations.AddPairResult : Prop :=
  ∀ (i : Instr) (dd ss : Pair), (i, dd, ss) ∈ addForms → ∀ s : State, s.ready = true →
    ∃ (l : TickIn) (t : State), exec i s = .next t ∧ Completed 3 l s t ∧ OnlyFetched s t ∧
      t.regs = ((s.setPair dd (add16 (s.pair dd) (s.pair ss) s.flags).1).setFlags
        (add16 (s.pair dd) (s.pair ss) s.flags).2).regs.moved 1 s

/-- `NOP` (41_nop_halt_prefix R180). -/
def Obligations.NopResult : Prop :=
  ∀ s : State, s.ready = true →
    ∃ (l : TickIn) (t : State), exec .nop s = .next t ∧ Completed 1 l s t ∧ OnlyFetched s t ∧
      t.regs = s.regs.moved 1 s

/-- `HALT` (41_nop_halt_prefix R181): the halt flag and the line are set after the interrupt sample of its own fetch, so
that an interrupt taken there is recorded and does not prevent the halt; `PC` is past the byte. -/
def Obligations.HaltResult : Prop :=
  ∀ s : State, s.ready = true →
    ∃ (l : TickIn) (t : State), exec .halt s = .next t ∧ Settled 1 s t ∧ OnlyFetched s t ∧ s.mayRead l ∧
      t.ctl = { (s.sample l).ctl with haltf := true } ∧ t.bus.halt = true ∧
      t.seq.opacc = joinBytes 0x00#8 (s.mem.read s.regs.pc) ∧ t.totals.instrs = s.totals.instrs + 1#64 ∧
      t.regs = s.regs.moved 1 s

/-- The prefix bytes (41_nop_halt_prefix R182, R183, 40_sequencer R147): the byte fetched becomes the pending byte, a
machine cycle is counted and no instruction, `PC` and `R` move as in every fetch, and the machine stands at the
fetch of the following byte. -/
def Obligations.PrefixByteResult : Prop :=
  ∀ (i : Instr) (b : Byte), (i, b) ∈ [(Instr.prefixIx, 0xdd#8), (Instr.prefixIy, 0xfd#8)] →
    ∀ s : State, s.ready = true → s.mem.read s.regs.pc = b →
      ∃ (l : TickIn) (t : State), exec i s = .next t ∧ Settled 1 s t ∧ OnlyFetched s t ∧ s.mayRead l ∧
        t.ctl = (s.sample l).ctl ∧ t.bus.halt = (s.sample l).bus.halt ∧
        t.seq.opacc = joinBytes b b ∧ t.totals.instrs = s.totals.instrs ∧
        t.regs = s.regs.moved 1 s ∧ t.ready = true

/-- An unrecognised effective opcode under `noop` (41_nop_halt_prefix R184): recorded, and otherwise a one-byte
instruction that changes no register but `PC` and `R`. -/
def Obligations.UnrecognisedNoopResult : Prop :=
  ∀ (op : Word) (s : State), s.ready = true → s.cfg.policy = .noop →
    ∃ (l : TickIn) (t : State), exec (.unrecognised op) s = .next t ∧ Settled 1 s t ∧ OnlyFetched s t ∧ s.mayRead l ∧
      t.ctl = { (s.sample l).ctl with unsup := true, unsupOp := op } ∧ t.bus.halt = (s.sample l).bus.halt ∧
      t.seq.opacc = joinBytes 0x00#8 (s.mem.read s.regs.pc) ∧ t.totals.instrs = s.totals.instrs + 1#64 ∧
      t.regs = s.regs.moved 1 s

/-- The one exception (60_exceptions R300): an unrecognised effective opcode under `strict` is recorded and freezes the
engine at the decode point, with `PC` still at the opcode byte, `R`, `MCYCLES` and `INSTRS` as they were, no
interrupt sampled, the refresh address on the bus, and memory as it was; every later tick without a reset returns
`stopped` and changes nothing. -/
def Obligations.UnrecognisedStrictStops : Prop :=
  ∀ (op : Word) (s : State), s.ready = true → s.cfg.policy = .strict →
    ∃ t : State, exec (.unrecognised op) s = .next t ∧
      t.regs = s.regs ∧ t.mem = s.mem ∧
      t.ctl = { s.ctl with unsup := true, unsupOp := op, stopped := true } ∧
      t.seq.opacc = joinBytes (hiByte s.seq.opacc) (s.mem.read s.regs.pc) ∧ t.seq.step = 2#8 ∧ t.seq.ph = .high ∧
      t.seq.tmp = s.seq.tmp ∧
      t.bus = { addr := joinBytes s.regs.i s.regs.r, data := s.mem.read s.regs.pc, m1 := false, mreq := false,
                rd := false, wr := false, rfsh := true, halt := s.bus.halt, busack := s.bus.busack } ∧
      t.totals.mcycles = s.totals.mcycles ∧ t.totals.instrs = s.totals.instrs ∧ t.cfg = s.cfg ∧
      ∀ l : TickIn, l.reset = false → tick l t = (t, .stopped)

/-! ### Instructions as they lie in memory -/

/-- `INC IX`, `DEC IX`, `INC IY`, `DEC IY` (43_incdec R245, R246, R255, R256) as two bytes in memory: two steps, the
prefix byte's and the instruction's; `PC` moves by two, `R` steps twice, no flag is written. -/
def Obligations.IndexIncDecInMemory : Prop :=
  ∀ (p q : Byte) (rr : Pair) (d : Word),
    (p, q, rr, d) ∈ [(0xdd#8, 0x23#8, Pair.ix, 1#16), (0xdd#8, 0x2b#8, .ix, 0xffff#16),
                     (0xfd#8, 0x23#8, .iy, 1#16), (0xfd#8, 0x2b#8, .iy, 0xffff#16)] →
    ∀ s : State, s.ready = true → s.pendingByte = 0x00#8 →
      s.mem.read s.regs.pc = p → s.mem.read (s.regs.pc + 1#16) = q →
      ∃ (l : TickIn) (t u : State), step s = .next t ∧ Settled 1 s t ∧ t.pendingByte = p ∧
        t.totals.instrs = s.totals.instrs ∧
        step t = .next u ∧ Completed 1 l t u ∧ u.mem = s.mem ∧ u.seq.opacc = joinBytes 0x00#8 q ∧
        u.regs = { (s.setPair rr (s.pair rr + d)).regs with
                   pc := s.regs.pc + 2#16, r := refreshNext (refreshNext s.regs.r) }

/-- `LD IX,nn` and `LD IY,nn` (42_loads R195, R196) as four bytes in memory, low byte of the immediate first. -/
def Obligations.IndexLoadInMemory : Prop :=
  ∀ (p lo hi : Byte) (rr : Pair), (p, rr) ∈ [(0xdd#8, Pair.ix), (0xfd#8, .iy)] →
    ∀ s : State, s.ready = true → s.pendingByte = 0x00#8 →
      s.mem.read s.regs.pc = p → s.mem.read (s.regs.pc + 1#16) = 0x21#8 →
      s.mem.read (s.regs.pc + 2#16) = lo → s.mem.read (s.regs.pc + 3#16) = hi →
      ∃ (l : TickIn) (t u : State), step s = .next t ∧ Settled 1 s t ∧ t.pendingByte = p ∧
        t.totals.instrs = s.totals.instrs ∧
        step t = .next u ∧ Completed 3 l t u ∧ u.mem = s.mem ∧ u.seq.tmp = lo ∧
        u.regs = { (s.setPair rr (joinBytes hi lo)).regs with
                   pc := s.regs.pc + 4#16, r := refreshNext (refreshNext s.regs.r) }

/-- The adds to an index register (45_add16 R276 to R279, R281 to R284) as two bytes in memory. -/
def Obligations.IndexAddInMemory : Prop :=
  ∀ (p q : Byte) (dd ss : Pair),
    (p, q, dd, ss) ∈ [(0xdd#8, 0x09#8, Pair.ix, Pair.bc), (0xdd#8, 0x19#8, .ix, .de),
                      (0xdd#8, 0x29#8, .ix, .ix), (0xdd#8, 0x39#8, .ix, .sp),
                      (0xfd#8, 0x09#8, .iy, .bc), (0xfd#8, 0x19#8, .iy, .de),
                      (0xfd#8, 0x29#8, .iy, .iy), (0xfd#8, 0x39#8, .iy, .sp)] →
    ∀ s : State, s.ready = true → s.pendingByte = 0x00#8 →
      s.mem.read s.regs.pc = p → s.mem.read (s.regs.pc + 1#16) = q →
      ∃ (l : TickIn) (t u : State), step s = .next t ∧ Settled 1 s t ∧ t.pendingByte = p ∧
        t.totals.instrs = s.totals.instrs ∧
        step t = .next u ∧ Completed 3 l t u ∧ u.mem = s.mem ∧
        u.regs = { ((s.setPair dd (add16 (s.pair dd) (s.pair ss) s.flags).1).setFlags
                     (add16 (s.pair dd) (s.pair ss) s.flags).2).regs with
                   pc := s.regs.pc + 2#16, r := refreshNext (refreshNext s.regs.r) }

/-- The immediates of the unprefixed loads are the bytes after the opcode byte, low byte first, at addresses that wrap
(42_loads R190, R200, 30_encoding R107, 20_memory R77). -/
def Obligations.ImmediatesComeFromMemory : Prop :=
  (∀ (b : Byte) (r : Reg8),
    (b, r) ∈ [(0x06#8, Reg8.b), (0x0e#8, .c), (0x16#8, .d), (0x1e#8, .e), (0x26#8, .h), (0x2e#8, .l), (0x3e#8, .a)] →
    ∀ s : State, s.ready = true → s.pendingByte = 0x00#8 → s.mem.read s.regs.pc = b →
      ∃ t : State, step s = .next t ∧ t.mem = s.mem ∧
        t.regs = (s.setReg8 r (s.mem.read (s.regs.pc + 1#16))).regs.moved 2 s) ∧
  (∀ (b : Byte) (rr : Pair),
    (b, rr) ∈ [(0x01#8, Pair.bc), (0x11#8, .de), (0x21#8, .hl), (0x31#8, .sp)] →
    ∀ s : State, s.ready = true → s.pendingByte = 0x00#8 → s.mem.read s.regs.pc = b →
      ∃ t : State, step s = .next t ∧ t.mem = s.mem ∧
        t.regs = (s.setPair rr (joinBytes (s.mem.read (s.regs.pc + 2#16)) (s.mem.read (s.regs.pc + 1#16)))).regs.moved 3 s)

/-- A store to the byte after the storing instruction is what the next fetch reads (20_memory R86). -/
def Obligations.StoreReachesNextFetch : Prop :=
  ∀ (b : Byte) (rr : Pair), (b, rr) ∈ [(0x02#8, Pair.bc), (0x12#8, .de), (0x77#8, .hl)] →
    ∀ s : State, s.ready = true → s.mem.wf = true → s.pendingByte = 0x00#8 →
      s.mem.read s.regs.pc = b → s.pair rr = s.regs.pc + 1#16 → writable s.cfg (s.pair rr) = true →
      ∃ t : State, step s = .next t ∧ t.ready = true ∧ t.streamBytes.head? = some (s.reg8 .a)

/-! ### The step -/

/-- A step runs the decoded instruction: where the machine is at a fetch with the pending byte an instruction needs and
the instruction's bytes at `PC`, the step is that instruction's meaning (30_encoding R105, R107; log 1). -/
def Obligations.StepRunsDecodedInstruction : Prop :=
  ∀ (i : Instr) (s : State) (rest : List Byte), i.wellFormed = true → s.atFetch = true →
    s.pendingByte = i.pendingByte → s.streamBytes = i.body ++ rest → step s = exec i s

/-- Every step answers a next state: nothing the machine can meet stops the model (40_sequencer R130, 60_exceptions
R301). -/
def Obligations.StepAlwaysGoesOn : Prop :=
  ∀ s : State, ∃ t : State, step s = .next t

/-- The step is the host's loop and nothing else: every step is one or more rounds of service and tick, with the table
entry that `OPACC` selects at each tick (40_sequencer R130, 10_state R48, 70_reset R365; logs 1 and 10). -/
def Obligations.StepIsRoundsOfTheHostLoop : Prop :=
  ∀ s : State, ∃ n : Nat, 0 < n ∧ step s = .next (clockN n s)

/-- Every step keeps the invariant of the machine and the canonical form of memory (10_state R57, 40_sequencer R163). -/
def Obligations.StepKeepsInvariant : Prop :=
  ∀ s t : State, s.inv = true → s.mem.wf = true → step s = .next t → t.inv = true ∧ t.mem.wf = true

/-- The state after reset has the invariant and is ready; so is the reset of any state where the schedule holds no other,
and its first tick at the high level drives `ADDR` to 0x0000 (70_reset R340, R345). -/
def Obligations.ResetIsReadyWithInvariant : Prop :=
  State.reset.inv = true ∧ State.reset.mem.wf = true ∧ State.reset.ready = true ∧
  ∀ s : State, s.resetOp.inv = true ∧ (s.noReset = true → s.resetOp.ready = true) ∧
    ∀ l : TickIn, l.clk = .high → l.reset = false → (tick l s.resetOp).1.bus.addr = 0x0000#16

/-- The invariants of 10_state R57, (a) to (h), which the spec derives from its tick rules, in every state that a reset and any ticks lead to, whatever the levels and
whatever a backend puts on `DATA` or into memory between them. -/
def Obligations.ReachableStatesKeepR57 : Prop :=
  ∀ s0 s : State, TickReachable s0 s →
    (∀ p : Pair, s.pair p = joinBytes (s.pairHigh p) (s.pairLow p)) ∧
    s.bus.halt = s.ctl.haltf ∧
    s.bus.busack = false ∧
    s.regs.r.getLsbD 7 = s0.regs.r.getLsbD 7 ∧
    (s.pendingByte = 0x00#8 ∨ s.pendingByte = 0xdd#8 ∨ s.pendingByte = 0xfd#8) ∧
    s.seq.step.toNat ≤ 11 ∧
    (4 ≤ s.seq.step.toNat → 1 < (tableEntry s.seq.opacc).cycles) ∧
    ¬ (s.bus.wr = true ∧ s.bus.rd = true) ∧
    (s.bus.rfsh = true → s.bus.rd = false ∧ s.bus.wr = false) ∧
    s.ctl.iff1 = false ∧ s.ctl.iff2 = false ∧ s.ctl.intact = .none

/-- Memory changes only in the three stores (20_memory R72): the step of any other instruction leaves every byte as it
was, whatever the schedule holds, resets included. -/
def Obligations.OnlyStoresWriteMemory : Prop :=
  ∀ (s t : State) (i : Instr) (rest : List Byte), s.atFetch = true → decode s.pendingByte s.streamBytes = .ok (i, rest) →
    i ≠ .ldAtBcA → i ≠ .ldAtDeA → i ≠ .ldAtHlA → step s = .next t → t.mem = s.mem

/-- Every well-formed instruction completes from every ready state under `noop`, in its number of machine cycles, eight
ticks each plus two for each wait, with `PC` past its bytes and `R` stepped once (70_reset R360, R361, from the
opcode byte on). -/
def Obligations.EveryInstructionCompletes : Prop :=
  ∀ (i : Instr) (s : State), i.wellFormed = true → s.ready = true → s.mem.wf = true → s.cfg.policy = .noop →
    ∃ t : State, exec i s = .next t ∧ Settled (entryOf i).cycles s t ∧
      t.regs.pc = s.regs.pc + BitVec.ofNat 16 i.body.length ∧ t.regs.r = refreshNext s.regs.r

/-! ### The tick -/

/-- The order of evaluation inside one tick (40_sequencer R149): reset, the stopped engine, the wrong clock level, and
only then the action of `(M, T, CLK)` on a state in which the tick is counted and `PH` flipped. -/
def Obligations.TickOrderOfEvaluation : Prop :=
  ∀ (l : TickIn) (s : State),
    (l.reset = true → tick l s = (s.resetOp, .reset)) ∧
    (l.reset = false → s.ctl.stopped = true → tick l s = (s, .stopped)) ∧
    (l.reset = false → s.ctl.stopped = false → l.clk ≠ s.seq.ph → tick l s = (s, .ignored)) ∧
    (l.reset = false → s.ctl.stopped = false → l.clk = s.seq.ph →
      tick l s = tickAction (tableEntry s.seq.opacc) l
        { s with totals.ticks := s.totals.ticks + 1#64, seq.ph := s.seq.ph.flip } ∧
      (tick l s).1.totals.ticks = s.totals.ticks + 1#64 ∧ (tick l s).1.seq.ph ≠ s.seq.ph ∧
      ((tick l s).2 = .ok ∨ (tick l s).2 = .unsupported s.seq.opacc))

/-- The reset operation, item by item (70_reset R340, 10_state R56). -/
def Obligations.ResetAssignments : Prop :=
  ∀ s : State,
    s.resetOp =
      { s with
        regs.pc := 0x0000#16, regs.sp := 0x0000#16, seq.step := 0#8, seq.opacc := 0x0000#16,
        ctl.haltf := false, ctl.iff1 := false, ctl.iff2 := false, ctl.intact := .none,
        bus.m1 := false, bus.mreq := false, bus.rd := false, bus.wr := false, bus.rfsh := false, bus.halt := false,
        bus.busack := false, seq.ph := .high, ctl.unsup := false, ctl.unsupOp := 0x0000#16, ctl.stopped := false,
        totals := { ticks := 0#64, mcycles := 0#64, instrs := 0#64 } }

/-- Reset twice is reset once, and a tick with `RESET` asserted is the reset operation in every state, with no error
result (70_reset R343). -/
def Obligations.ResetIdempotentAndTotal : Prop :=
  ∀ s : State, s.resetOp.resetOp = s.resetOp ∧
    ∀ l : TickIn, l.reset = true → tick l s = (s.resetOp, .reset) ∧ tick l (tick l s).1 = (s.resetOp, .reset)

/-- The seven ticks of an opcode fetch before its last, with no wait, and the eighth, line by line (40_sequencer R163), for
a one-cycle instruction of a ready machine whose host asserts nothing. -/
def Obligations.FetchShowsTheBusTable : Prop :=
  ∀ (s : State) (i : Instr) (rest : List Byte), s.ready = true → s.inputs = [] → s.bus.quiet = true →
    s.cfg.policy = .noop → decode s.pendingByte s.streamBytes = .ok (i, rest) → (entryOf i).cycles = 1 →
    let lines (t : State) := (t.bus.addr, t.bus.m1, t.bus.mreq, t.bus.rd, t.bus.rfsh)
    let ir := joinBytes s.regs.i s.regs.r
    lines (clockN 1 s) = (s.regs.pc, true, false, false, false) ∧
    lines (clockN 2 s) = (s.regs.pc, true, true, true, false) ∧ (clockN 2 s).seq.step = 1#8 ∧
    lines (clockN 3 s) = (s.regs.pc, true, true, true, false) ∧ (clockN 3 s).bus.data = s.mem.read s.regs.pc ∧
    lines (clockN 4 s) = (s.regs.pc, true, true, true, false) ∧ (clockN 4 s).seq.step = 2#8 ∧
      loByte (clockN 4 s).seq.opacc = s.mem.read s.regs.pc ∧
    lines (clockN 5 s) = (ir, false, true, false, true) ∧
    lines (clockN 6 s) = (ir, false, false, false, true) ∧ (clockN 6 s).seq.step = 3#8 ∧
    lines (clockN 7 s) = (ir, false, false, false, true) ∧ (clockN 7 s).regs.pc = s.regs.pc + 1#16 ∧
    lines (clockN 8 s) = (ir, false, false, false, false) ∧ (clockN 8 s).regs.r = refreshNext s.regs.r ∧
      (clockN 8 s).seq.step = 0#8

/-- `PC` changes in exactly three ways (10_state R26): plus one at T4 high of an opcode fetch, plus one at T4 high of an
operand read, zero at a reset. -/
def Obligations.PcChangesOnlyThreeWays : Prop :=
  ∀ (l : TickIn) (s : State),
    (tick l s).1.regs.pc =
      if l.reset then 0x0000#16
      else if s.accepts l && l.clk == .high && s.atStreamT4 then s.regs.pc + 1#16
      else s.regs.pc

/-- `R` changes only at M1 T4 low, and then by the refresh step (10_state R28, 40_sequencer R143). -/
def Obligations.RefreshOnlyAtM1T4Low : Prop :=
  ∀ (l : TickIn) (s : State),
    (tick l s).1.regs.r =
      if s.accepts l && l.clk == .low && s.seq.step == 3#8 then refreshNext s.regs.r else s.regs.r

/-- `STEP` moves only at accepted low ticks, by one increment or one reset to zero, and at a reset of the machine
(10_state R44, 40_sequencer R132, R148). -/
def Obligations.StepCounterMoves : Prop :=
  ∀ (l : TickIn) (s : State), l.reset = false →
    ((tick l s).1.seq.step = s.seq.step ∨
      (s.accepts l = true ∧ l.clk = .low ∧
        ((tick l s).1.seq.step = s.seq.step + 1#8 ∨ (tick l s).1.seq.step = 0#8)))

/-- The flip-flops are read-only to the whole core: a tick leaves both as they are, and only a reset clears them
(60_exceptions R312, 10_state R38). -/
def Obligations.FlipFlopsOnlyReset : Prop :=
  ∀ (l : TickIn) (s : State),
    (tick l s).1.ctl.iff1 = (s.ctl.iff1 && !l.reset) ∧ (tick l s).1.ctl.iff2 = (s.ctl.iff2 && !l.reset)

/-- What no tick ever writes, not even a reset: `BC' DE' HL'`, `I`, `IM`, bit 7 of `R`, the parameters, the schedule, and
memory, which the backend owns (10_state R23, R27, R28, R39, R55). -/
def Obligations.TickNeverWrites : Prop :=
  ∀ (l : TickIn) (s : State),
    (tick l s).1.regs.bcShadow = s.regs.bcShadow ∧ (tick l s).1.regs.deShadow = s.regs.deShadow ∧
    (tick l s).1.regs.hlShadow = s.regs.hlShadow ∧ (tick l s).1.regs.i = s.regs.i ∧
    (tick l s).1.regs.r.getLsbD 7 = s.regs.r.getLsbD 7 ∧ (tick l s).1.ctl.im = s.ctl.im ∧
    (tick l s).1.cfg = s.cfg ∧ (tick l s).1.inputs = s.inputs ∧ (tick l s).1.mem = s.mem

/-- `IM`, `INTACT`, `UNSUP`, `UNSUP_OP`, `TMP` and the totals are never read: two states that agree in everything else
agree in everything else after a tick, with the same result (10_state R39, R41, R45, R47, 60_exceptions R313). -/
def Obligations.StatusIsNeverRead : Prop :=
  ∀ (l : TickIn) (s t : State), SameButUnread s t →
    SameButUnread (tick l s).1 (tick l t).1 ∧ (tick l s).2 = (tick l t).2

/-- `WAIT` is looked at in exactly one place (40_sequencer R162): at T2 low of an opcode fetch, an operand read or a
memory write it changes nothing but `TICKS` and `PH`; at every other tick its level has no effect. -/
def Obligations.WaitOnlyAtT2Low : Prop :=
  ∀ (l : TickIn) (s : State),
    (s.accepts l = true → l.clk = .low → s.atT2 = true → l.wait = true →
      tick l s = ({ s with totals.ticks := s.totals.ticks + 1#64, seq.ph := .high }, .ok)) ∧
    (¬ (s.accepts l = true ∧ l.clk = .low ∧ s.atT2 = true) → ∀ b : Bool, tick { l with wait := b } s = tick l s)

/-- M1 T1 low (40_sequencer R135, R136): `MREQ` and `RD` are asserted, and `STEP` advances unless the machine is halted
and no enabled interrupt line is asserted; nothing else changes. -/
def Obligations.HoldAtM1T1Low : Prop :=
  ∀ (l : TickIn) (s : State), s.accepts l = true → l.clk = .low → s.seq.step = 0#8 →
    tick l s =
      ({ s with
         totals.ticks := s.totals.ticks + 1#64, seq.ph := .high, bus.mreq := true, bus.rd := true,
         seq.step :=
           if s.ctl.haltf && !(s.ctl.iff1 && s.ctl.iff2 && !l.busreq && (l.nmi || l.int)) then 0#8 else 1#8 }, .ok)

/-- The halted hold as a step (40_sequencer R136, 60_exceptions R315): while no enabled interrupt line is asserted, a step
is one pass of M1 T1; the bus shows `PC` with `M1 MREQ RD` asserted, `TICKS` counts two, and no register, no byte
of memory, no control state and no other total changes. -/
def Obligations.HaltedHoldIsAFixedPoint : Prop :=
  ∀ s : State, s.atFetch = true → s.noReset = true → s.ctl.haltf = true →
    (∀ l ∈ s.inputs, s.interruptPending l = false) →
    ∃ t : State, step s = .next t ∧ t.regs = s.regs ∧ t.ctl = s.ctl ∧ t.seq = s.seq ∧ t.mem = s.mem ∧ t.cfg = s.cfg ∧
      t.totals = { s.totals with ticks := s.totals.ticks + 2#64 } ∧
      t.bus = { s.bus with addr := s.regs.pc, data := t.bus.data, m1 := true, mreq := true, rd := true } ∧
      t.inputs <:+ s.inputs

/-- The interrupt-sample point (60_exceptions R303 to R306): at M1 T4 low, and only there, `INTACT` and the halt flag and
line follow the lines, `NMI` before `INT`, if both flip-flops are set and `BUSREQ` is not asserted; `HALT`'s own
completion sets the halt again after it (40_sequencer R143). -/
def Obligations.InterruptSampleOutcome : Prop :=
  ∀ (l : TickIn) (s : State), l.reset = false →
    let t := (tick l s).1
    let here := s.accepts l && l.clk == .low && s.seq.step == 3#8
    let enabled := s.ctl.iff1 && s.ctl.iff2 && !l.busreq
    let taken := here && enabled && (l.nmi || l.int)
    let halts := here && s.seq.opacc == 0x0076#16
    t.ctl.intact = (if taken then (if l.nmi then .nmi else .int) else s.ctl.intact) ∧
    t.ctl.haltf = (halts || (s.ctl.haltf && !taken)) ∧
    t.bus.halt = (halts || (s.bus.halt && !taken))

/-- `INT`, `NMI` and `BUSREQ` are looked at only at M1 T4 low and, while halted, at M1 T1 low (10_state R53, 60_exceptions
R304). -/
def Obligations.InterruptLinesOnlyAtTheirPoints : Prop :=
  ∀ (l : TickIn) (s : State),
    ¬ (s.accepts l = true ∧ l.clk = .low ∧ (s.seq.step = 3#8 ∨ (s.seq.step = 0#8 ∧ s.ctl.haltf = true))) →
    ∀ i n b : Bool, tick { l with int := i, nmi := n, busreq := b } s = tick l s

/-- The totals (10_state R47): a tick without a reset adds at most one to each; `MCYCLES` moves only at the low phase of
T4 of a machine cycle, `INSTRS` only together with it and with `STEP` going to zero. -/
def Obligations.TotalsCount : Prop :=
  ∀ (l : TickIn) (s : State), l.reset = false →
    let t := (tick l s).1
    t.totals.ticks = (if s.accepts l then s.totals.ticks + 1#64 else s.totals.ticks) ∧
    (t.totals.mcycles = s.totals.mcycles ∨
      (t.totals.mcycles = s.totals.mcycles + 1#64 ∧ s.accepts l = true ∧ l.clk = .low ∧ s.seq.step.toNat % 4 = 3)) ∧
    (t.totals.instrs = s.totals.instrs ∨
      (t.totals.instrs = s.totals.instrs + 1#64 ∧ t.totals.mcycles = s.totals.mcycles + 1#64 ∧ t.seq.step = 0#8 ∧
        t.pendingByte = 0x00#8))
end

