-- ==== Sys2Proof/Laws/State.lean ====
section
/-!
SUPPORT. Laws/State.lean: for every named update of the state, one lemma per field of `State` saying what the
update leaves there, so that no proof unfolds a record update.
-/

namespace Sys2Proof.Machine

@[simp] theorem Level.flip_high : Level.high.flip = .low := rfl

@[simp] theorem Level.flip_low : Level.low.flip = .high := rfl

@[simp] theorem Level.flip_flip (c : Level) : c.flip.flip = c := by cases c <;> rfl

/-! ### `setPair` -/

@[simp] theorem State.setPair_ctl (p : Pair) (v : Word) (s : State) : (s.setPair p v).ctl = s.ctl := by cases p <;> rfl
@[simp] theorem State.setPair_seq (p : Pair) (v : Word) (s : State) : (s.setPair p v).seq = s.seq := by cases p <;> rfl
@[simp] theorem State.setPair_totals (p : Pair) (v : Word) (s : State) : (s.setPair p v).totals = s.totals := by cases p <;> rfl
@[simp] theorem State.setPair_bus (p : Pair) (v : Word) (s : State) : (s.setPair p v).bus = s.bus := by cases p <;> rfl
@[simp] theorem State.setPair_mem (p : Pair) (v : Word) (s : State) : (s.setPair p v).mem = s.mem := by cases p <;> rfl
@[simp] theorem State.setPair_cfg (p : Pair) (v : Word) (s : State) : (s.setPair p v).cfg = s.cfg := by cases p <;> rfl
@[simp] theorem State.setPair_inputs (p : Pair) (v : Word) (s : State) : (s.setPair p v).inputs = s.inputs := by cases p <;> rfl

/-! ### `setPairHigh` -/

@[simp] theorem State.setPairHigh_ctl (p : Pair) (v : Byte) (s : State) : (s.setPairHigh p v).ctl = s.ctl := by cases p <;> rfl
@[simp] theorem State.setPairHigh_seq (p : Pair) (v : Byte) (s : State) : (s.setPairHigh p v).seq = s.seq := by cases p <;> rfl
@[simp] theorem State.setPairHigh_totals (p : Pair) (v : Byte) (s : State) : (s.setPairHigh p v).totals = s.totals := by cases p <;> rfl
@[simp] theorem State.setPairHigh_bus (p : Pair) (v : Byte) (s : State) : (s.setPairHigh p v).bus = s.bus := by cases p <;> rfl
@[simp] theorem State.setPairHigh_mem (p : Pair) (v : Byte) (s : State) : (s.setPairHigh p v).mem = s.mem := by cases p <;> rfl
@[simp] theorem State.setPairHigh_cfg (p : Pair) (v : Byte) (s : State) : (s.setPairHigh p v).cfg = s.cfg := by cases p <;> rfl
@[simp] theorem State.setPairHigh_inputs (p : Pair) (v : Byte) (s : State) : (s.setPairHigh p v).inputs = s.inputs := by cases p <;> rfl

/-! ### `setPairLow` -/

@[simp] theorem State.setPairLow_ctl (p : Pair) (v : Byte) (s : State) : (s.setPairLow p v).ctl = s.ctl := by cases p <;> rfl
@[simp] theorem State.setPairLow_seq (p : Pair) (v : Byte) (s : State) : (s.setPairLow p v).seq = s.seq := by cases p <;> rfl
@[simp] theorem State.setPairLow_totals (p : Pair) (v : Byte) (s : State) : (s.setPairLow p v).totals = s.totals := by cases p <;> rfl
@[simp] theorem State.setPairLow_bus (p : Pair) (v : Byte) (s : State) : (s.setPairLow p v).bus = s.bus := by cases p <;> rfl
@[simp] theorem State.setPairLow_mem (p : Pair) (v : Byte) (s : State) : (s.setPairLow p v).mem = s.mem := by cases p <;> rfl
@[simp] theorem State.setPairLow_cfg (p : Pair) (v : Byte) (s : State) : (s.setPairLow p v).cfg = s.cfg := by cases p <;> rfl
@[simp] theorem State.setPairLow_inputs (p : Pair) (v : Byte) (s : State) : (s.setPairLow p v).inputs = s.inputs := by cases p <;> rfl

/-! ### `setReg8` -/

@[simp] theorem State.setReg8_ctl (r : Reg8) (v : Byte) (s : State) : (s.setReg8 r v).ctl = s.ctl := by cases r <;> rfl
@[simp] theorem State.setReg8_seq (r : Reg8) (v : Byte) (s : State) : (s.setReg8 r v).seq = s.seq := by cases r <;> rfl
@[simp] theorem State.setReg8_totals (r : Reg8) (v : Byte) (s : State) : (s.setReg8 r v).totals = s.totals := by cases r <;> rfl
@[simp] theorem State.setReg8_bus (r : Reg8) (v : Byte) (s : State) : (s.setReg8 r v).bus = s.bus := by cases r <;> rfl
@[simp] theorem State.setReg8_mem (r : Reg8) (v : Byte) (s : State) : (s.setReg8 r v).mem = s.mem := by cases r <;> rfl
@[simp] theorem State.setReg8_cfg (r : Reg8) (v : Byte) (s : State) : (s.setReg8 r v).cfg = s.cfg := by cases r <;> rfl
@[simp] theorem State.setReg8_inputs (r : Reg8) (v : Byte) (s : State) : (s.setReg8 r v).inputs = s.inputs := by cases r <;> rfl

/-! ### `setFlags` -/

@[simp] theorem State.setFlags_regs (v : Byte) (s : State) :
    (s.setFlags v).regs = { s.regs with af := joinBytes (hiByte s.regs.af) v } := rfl
@[simp] theorem State.setFlags_ctl (v : Byte) (s : State) : (s.setFlags v).ctl = s.ctl := rfl
@[simp] theorem State.setFlags_seq (v : Byte) (s : State) : (s.setFlags v).seq = s.seq := rfl
@[simp] theorem State.setFlags_totals (v : Byte) (s : State) : (s.setFlags v).totals = s.totals := rfl
@[simp] theorem State.setFlags_bus (v : Byte) (s : State) : (s.setFlags v).bus = s.bus := rfl
@[simp] theorem State.setFlags_mem (v : Byte) (s : State) : (s.setFlags v).mem = s.mem := rfl
@[simp] theorem State.setFlags_cfg (v : Byte) (s : State) : (s.setFlags v).cfg = s.cfg := rfl
@[simp] theorem State.setFlags_inputs (v : Byte) (s : State) : (s.setFlags v).inputs = s.inputs := rfl

/-! ### `advancePc` -/

@[simp] theorem State.advancePc_regs (s : State) :
    (s.advancePc).regs = { s.regs with pc := s.regs.pc + 1#16 } := rfl
@[simp] theorem State.advancePc_ctl (s : State) : (s.advancePc).ctl = s.ctl := rfl
@[simp] theorem State.advancePc_seq (s : State) : (s.advancePc).seq = s.seq := rfl
@[simp] theorem State.advancePc_totals (s : State) : (s.advancePc).totals = s.totals := rfl
@[simp] theorem State.advancePc_bus (s : State) : (s.advancePc).bus = s.bus := rfl
@[simp] theorem State.advancePc_mem (s : State) : (s.advancePc).mem = s.mem := rfl
@[simp] theorem State.advancePc_cfg (s : State) : (s.advancePc).cfg = s.cfg := rfl
@[simp] theorem State.advancePc_inputs (s : State) : (s.advancePc).inputs = s.inputs := rfl

/-! ### `stepRefresh` -/

@[simp] theorem State.stepRefresh_regs (s : State) :
    (s.stepRefresh).regs = { s.regs with r := refreshNext s.regs.r } := rfl
@[simp] theorem State.stepRefresh_ctl (s : State) : (s.stepRefresh).ctl = s.ctl := rfl
@[simp] theorem State.stepRefresh_seq (s : State) : (s.stepRefresh).seq = s.seq := rfl
@[simp] theorem State.stepRefresh_totals (s : State) : (s.stepRefresh).totals = s.totals := rfl
@[simp] theorem State.stepRefresh_bus (s : State) : (s.stepRefresh).bus = s.bus := rfl
@[simp] theorem State.stepRefresh_mem (s : State) : (s.stepRefresh).mem = s.mem := rfl
@[simp] theorem State.stepRefresh_cfg (s : State) : (s.stepRefresh).cfg = s.cfg := rfl
@[simp] theorem State.stepRefresh_inputs (s : State) : (s.stepRefresh).inputs = s.inputs := rfl

/-! ### `takeInterrupt` -/

@[simp] theorem State.takeInterrupt_regs (k : IntActive) (s : State) : (s.takeInterrupt k).regs = s.regs := rfl
@[simp] theorem State.takeInterrupt_ctl (k : IntActive) (s : State) :
    (s.takeInterrupt k).ctl = { s.ctl with intact := k, haltf := false } := rfl
@[simp] theorem State.takeInterrupt_seq (k : IntActive) (s : State) : (s.takeInterrupt k).seq = s.seq := rfl
@[simp] theorem State.takeInterrupt_totals (k : IntActive) (s : State) : (s.takeInterrupt k).totals = s.totals := rfl
@[simp] theorem State.takeInterrupt_bus (k : IntActive) (s : State) :
    (s.takeInterrupt k).bus = { s.bus with halt := false } := rfl
@[simp] theorem State.takeInterrupt_mem (k : IntActive) (s : State) : (s.takeInterrupt k).mem = s.mem := rfl
@[simp] theorem State.takeInterrupt_cfg (k : IntActive) (s : State) : (s.takeInterrupt k).cfg = s.cfg := rfl
@[simp] theorem State.takeInterrupt_inputs (k : IntActive) (s : State) : (s.takeInterrupt k).inputs = s.inputs := rfl

/-! ### `recordUnsupported` -/

@[simp] theorem State.recordUnsupported_regs (op : Word) (s : State) : (s.recordUnsupported op).regs = s.regs := rfl
@[simp] theorem State.recordUnsupported_ctl (op : Word) (s : State) :
    (s.recordUnsupported op).ctl = { s.ctl with unsup := true, unsupOp := op } := rfl
@[simp] theorem State.recordUnsupported_seq (op : Word) (s : State) : (s.recordUnsupported op).seq = s.seq := rfl
@[simp] theorem State.recordUnsupported_totals (op : Word) (s : State) : (s.recordUnsupported op).totals = s.totals := rfl
@[simp] theorem State.recordUnsupported_bus (op : Word) (s : State) : (s.recordUnsupported op).bus = s.bus := rfl
@[simp] theorem State.recordUnsupported_mem (op : Word) (s : State) : (s.recordUnsupported op).mem = s.mem := rfl
@[simp] theorem State.recordUnsupported_cfg (op : Word) (s : State) : (s.recordUnsupported op).cfg = s.cfg := rfl
@[simp] theorem State.recordUnsupported_inputs (op : Word) (s : State) : (s.recordUnsupported op).inputs = s.inputs := rfl

/-! ### `raiseUnsupported` -/

@[simp] theorem State.raiseUnsupported_regs (op : Word) (s : State) : (s.raiseUnsupported op).regs = s.regs := rfl
@[simp] theorem State.raiseUnsupported_ctl (op : Word) (s : State) :
    (s.raiseUnsupported op).ctl = { s.ctl with unsup := true, unsupOp := op, stopped := true } := rfl
@[simp] theorem State.raiseUnsupported_seq (op : Word) (s : State) : (s.raiseUnsupported op).seq = s.seq := rfl
@[simp] theorem State.raiseUnsupported_totals (op : Word) (s : State) : (s.raiseUnsupported op).totals = s.totals := rfl
@[simp] theorem State.raiseUnsupported_bus (op : Word) (s : State) : (s.raiseUnsupported op).bus = s.bus := rfl
@[simp] theorem State.raiseUnsupported_mem (op : Word) (s : State) : (s.raiseUnsupported op).mem = s.mem := rfl
@[simp] theorem State.raiseUnsupported_cfg (op : Word) (s : State) : (s.raiseUnsupported op).cfg = s.cfg := rfl
@[simp] theorem State.raiseUnsupported_inputs (op : Word) (s : State) : (s.raiseUnsupported op).inputs = s.inputs := rfl

/-! ### `acceptTick` -/

@[simp] theorem State.acceptTick_regs (s : State) : (s.acceptTick).regs = s.regs := rfl
@[simp] theorem State.acceptTick_ctl (s : State) : (s.acceptTick).ctl = s.ctl := rfl
@[simp] theorem State.acceptTick_seq (s : State) :
    (s.acceptTick).seq = { s.seq with ph := s.seq.ph.flip } := rfl
@[simp] theorem State.acceptTick_totals (s : State) :
    (s.acceptTick).totals = { s.totals with ticks := s.totals.ticks + 1#64 } := rfl
@[simp] theorem State.acceptTick_bus (s : State) : (s.acceptTick).bus = s.bus := rfl
@[simp] theorem State.acceptTick_mem (s : State) : (s.acceptTick).mem = s.mem := rfl
@[simp] theorem State.acceptTick_cfg (s : State) : (s.acceptTick).cfg = s.cfg := rfl
@[simp] theorem State.acceptTick_inputs (s : State) : (s.acceptTick).inputs = s.inputs := rfl

/-! ### `countCycle` -/

@[simp] theorem State.countCycle_regs (s : State) : (s.countCycle).regs = s.regs := rfl
@[simp] theorem State.countCycle_ctl (s : State) : (s.countCycle).ctl = s.ctl := rfl
@[simp] theorem State.countCycle_seq (s : State) : (s.countCycle).seq = s.seq := rfl
@[simp] theorem State.countCycle_totals (s : State) :
    (s.countCycle).totals = { s.totals with mcycles := s.totals.mcycles + 1#64 } := rfl
@[simp] theorem State.countCycle_bus (s : State) : (s.countCycle).bus = s.bus := rfl
@[simp] theorem State.countCycle_mem (s : State) : (s.countCycle).mem = s.mem := rfl
@[simp] theorem State.countCycle_cfg (s : State) : (s.countCycle).cfg = s.cfg := rfl
@[simp] theorem State.countCycle_inputs (s : State) : (s.countCycle).inputs = s.inputs := rfl

/-! ### `nextStep` -/

@[simp] theorem State.nextStep_regs (s : State) : (s.nextStep).regs = s.regs := rfl
@[simp] theorem State.nextStep_ctl (s : State) : (s.nextStep).ctl = s.ctl := rfl
@[simp] theorem State.nextStep_seq (s : State) :
    (s.nextStep).seq = { s.seq with step := s.seq.step + 1#8 } := rfl
@[simp] theorem State.nextStep_totals (s : State) : (s.nextStep).totals = s.totals := rfl
@[simp] theorem State.nextStep_bus (s : State) : (s.nextStep).bus = s.bus := rfl
@[simp] theorem State.nextStep_mem (s : State) : (s.nextStep).mem = s.mem := rfl
@[simp] theorem State.nextStep_cfg (s : State) : (s.nextStep).cfg = s.cfg := rfl
@[simp] theorem State.nextStep_inputs (s : State) : (s.nextStep).inputs = s.inputs := rfl

/-! ### `finish` -/

@[simp] theorem State.finish_regs (s : State) : (s.finish).regs = s.regs := rfl
@[simp] theorem State.finish_ctl (s : State) : (s.finish).ctl = s.ctl := rfl
@[simp] theorem State.finish_seq (s : State) :
    (s.finish).seq = { s.seq with opacc := joinBytes 0x00#8 (loByte s.seq.opacc), step := 0#8 } := rfl
@[simp] theorem State.finish_totals (s : State) :
    (s.finish).totals = { s.totals with mcycles := s.totals.mcycles + 1#64, instrs := s.totals.instrs + 1#64 } := rfl
@[simp] theorem State.finish_bus (s : State) : (s.finish).bus = s.bus := rfl
@[simp] theorem State.finish_mem (s : State) : (s.finish).mem = s.mem := rfl
@[simp] theorem State.finish_cfg (s : State) : (s.finish).cfg = s.cfg := rfl
@[simp] theorem State.finish_inputs (s : State) : (s.finish).inputs = s.inputs := rfl

/-! ### `setPendingByte` -/

@[simp] theorem State.setPendingByte_regs (s : State) : (s.setPendingByte).regs = s.regs := rfl
@[simp] theorem State.setPendingByte_ctl (s : State) : (s.setPendingByte).ctl = s.ctl := rfl
@[simp] theorem State.setPendingByte_seq (s : State) :
    (s.setPendingByte).seq = { s.seq with opacc := joinBytes (loByte s.seq.opacc) (loByte s.seq.opacc), step := 0#8 } := rfl
@[simp] theorem State.setPendingByte_totals (s : State) :
    (s.setPendingByte).totals = { s.totals with mcycles := s.totals.mcycles + 1#64 } := rfl
@[simp] theorem State.setPendingByte_bus (s : State) : (s.setPendingByte).bus = s.bus := rfl
@[simp] theorem State.setPendingByte_mem (s : State) : (s.setPendingByte).mem = s.mem := rfl
@[simp] theorem State.setPendingByte_cfg (s : State) : (s.setPendingByte).cfg = s.cfg := rfl
@[simp] theorem State.setPendingByte_inputs (s : State) : (s.setPendingByte).inputs = s.inputs := rfl

/-! ### `enterHalt` -/

@[simp] theorem State.enterHalt_regs (s : State) : (s.enterHalt).regs = s.regs := rfl
@[simp] theorem State.enterHalt_ctl (s : State) :
    (s.enterHalt).ctl = { s.ctl with haltf := true } := rfl
@[simp] theorem State.enterHalt_seq (s : State) : (s.enterHalt).seq = s.seq := rfl
@[simp] theorem State.enterHalt_totals (s : State) : (s.enterHalt).totals = s.totals := rfl
@[simp] theorem State.enterHalt_bus (s : State) :
    (s.enterHalt).bus = { s.bus with halt := true } := rfl
@[simp] theorem State.enterHalt_mem (s : State) : (s.enterHalt).mem = s.mem := rfl
@[simp] theorem State.enterHalt_cfg (s : State) : (s.enterHalt).cfg = s.cfg := rfl
@[simp] theorem State.enterHalt_inputs (s : State) : (s.enterHalt).inputs = s.inputs := rfl

/-! ### `setInputs` -/

@[simp] theorem State.setInputs_regs (ls : List TickIn) (s : State) : (s.setInputs ls).regs = s.regs := rfl
@[simp] theorem State.setInputs_ctl (ls : List TickIn) (s : State) : (s.setInputs ls).ctl = s.ctl := rfl
@[simp] theorem State.setInputs_seq (ls : List TickIn) (s : State) : (s.setInputs ls).seq = s.seq := rfl
@[simp] theorem State.setInputs_totals (ls : List TickIn) (s : State) : (s.setInputs ls).totals = s.totals := rfl
@[simp] theorem State.setInputs_bus (ls : List TickIn) (s : State) : (s.setInputs ls).bus = s.bus := rfl
@[simp] theorem State.setInputs_mem (ls : List TickIn) (s : State) : (s.setInputs ls).mem = s.mem := rfl
@[simp] theorem State.setInputs_cfg (ls : List TickIn) (s : State) : (s.setInputs ls).cfg = s.cfg := rfl
@[simp] theorem State.setInputs_inputs (ls : List TickIn) (s : State) :
    (s.setInputs ls).inputs = ls := rfl

/-! ### `resetOp` -/

@[simp] theorem State.resetOp_regs (s : State) :
    (s.resetOp).regs = { s.regs with pc := 0x0000#16, sp := 0x0000#16 } := rfl
@[simp] theorem State.resetOp_mem (s : State) : (s.resetOp).mem = s.mem := rfl
@[simp] theorem State.resetOp_cfg (s : State) : (s.resetOp).cfg = s.cfg := rfl
@[simp] theorem State.resetOp_inputs (s : State) : (s.resetOp).inputs = s.inputs := rfl

/-! ### The backend's service -/

@[simp] theorem State.serviceRead_regs (s : State) : s.serviceRead.regs = s.regs := by
  unfold State.serviceRead; split <;> rfl
@[simp] theorem State.serviceRead_ctl (s : State) : s.serviceRead.ctl = s.ctl := by
  unfold State.serviceRead; split <;> rfl
@[simp] theorem State.serviceRead_seq (s : State) : s.serviceRead.seq = s.seq := by
  unfold State.serviceRead; split <;> rfl
@[simp] theorem State.serviceRead_totals (s : State) : s.serviceRead.totals = s.totals := by
  unfold State.serviceRead; split <;> rfl
@[simp] theorem State.serviceRead_mem (s : State) : s.serviceRead.mem = s.mem := by
  unfold State.serviceRead; split <;> rfl
@[simp] theorem State.serviceRead_cfg (s : State) : s.serviceRead.cfg = s.cfg := by
  unfold State.serviceRead; split <;> rfl
@[simp] theorem State.serviceRead_inputs (s : State) : s.serviceRead.inputs = s.inputs := by
  unfold State.serviceRead; split <;> rfl
@[simp] theorem State.serviceWrite_regs (s : State) : s.serviceWrite.regs = s.regs := by
  unfold State.serviceWrite; split <;> rfl
@[simp] theorem State.serviceWrite_ctl (s : State) : s.serviceWrite.ctl = s.ctl := by
  unfold State.serviceWrite; split <;> rfl
@[simp] theorem State.serviceWrite_seq (s : State) : s.serviceWrite.seq = s.seq := by
  unfold State.serviceWrite; split <;> rfl
@[simp] theorem State.serviceWrite_totals (s : State) : s.serviceWrite.totals = s.totals := by
  unfold State.serviceWrite; split <;> rfl
@[simp] theorem State.serviceWrite_bus (s : State) : s.serviceWrite.bus = s.bus := by
  unfold State.serviceWrite; split <;> rfl
@[simp] theorem State.serviceWrite_cfg (s : State) : s.serviceWrite.cfg = s.cfg := by
  unfold State.serviceWrite; split <;> rfl
@[simp] theorem State.serviceWrite_inputs (s : State) : s.serviceWrite.inputs = s.inputs := by
  unfold State.serviceWrite; split <;> rfl
@[simp] theorem State.service_regs (s : State) : s.service.regs = s.regs := by
  simp [State.service]
@[simp] theorem State.service_ctl (s : State) : s.service.ctl = s.ctl := by
  simp [State.service]
@[simp] theorem State.service_seq (s : State) : s.service.seq = s.seq := by
  simp [State.service]
@[simp] theorem State.service_totals (s : State) : s.service.totals = s.totals := by
  simp [State.service]
@[simp] theorem State.service_cfg (s : State) : s.service.cfg = s.cfg := by
  simp [State.service]
@[simp] theorem State.service_inputs (s : State) : s.service.inputs = s.inputs := by
  simp [State.service]

/-- The service changes no line of the bus but `DATA`. -/
theorem State.service_bus (s : State) :
    s.service.bus = { s.bus with data := s.service.bus.data } := by
  simp only [State.service, State.serviceWrite_bus]
  unfold State.serviceRead
  split <;> rfl

/-! ### The interrupt sample -/

@[simp] theorem State.sample_regs (l : TickIn) (s : State) : (s.sample l).regs = s.regs := by
  unfold State.sample; split
  · split
    · rfl
    · split <;> rfl
  · rfl
@[simp] theorem State.sample_seq (l : TickIn) (s : State) : (s.sample l).seq = s.seq := by
  unfold State.sample; split
  · split
    · rfl
    · split <;> rfl
  · rfl
@[simp] theorem State.sample_totals (l : TickIn) (s : State) : (s.sample l).totals = s.totals := by
  unfold State.sample; split
  · split
    · rfl
    · split <;> rfl
  · rfl
@[simp] theorem State.sample_mem (l : TickIn) (s : State) : (s.sample l).mem = s.mem := by
  unfold State.sample; split
  · split
    · rfl
    · split <;> rfl
  · rfl
@[simp] theorem State.sample_cfg (l : TickIn) (s : State) : (s.sample l).cfg = s.cfg := by
  unfold State.sample; split
  · split
    · rfl
    · split <;> rfl
  · rfl
@[simp] theorem State.sample_inputs (l : TickIn) (s : State) : (s.sample l).inputs = s.inputs := by
  unfold State.sample; split
  · split
    · rfl
    · split <;> rfl
  · rfl

/-- Sampling the lines of a tick at which the host asserts none changes nothing (60_exceptions R305). -/
@[simp] theorem State.sample_idle (c : Level) (s : State) : s.sample (TickIn.idle c) = s := by
  unfold State.sample TickIn.idle; simp

/-! ### A whole state -/

/-- Two states with equal fields are equal. -/
theorem State.ext_fields {s t : State} (hr : s.regs = t.regs) (hc : s.ctl = t.ctl) (hq : s.seq = t.seq)
    (ht : s.totals = t.totals) (hb : s.bus = t.bus) (hm : s.mem = t.mem) (hg : s.cfg = t.cfg)
    (hi : s.inputs = t.inputs) : s = t := by
  cases s; cases t; simp_all

end Sys2Proof.Machine
end

