-- ==== Sys2Proof/Laws/Memory.lean ====
section
/-!
SUPPORT. Laws/Memory.lean: a read after a write, the canonical form, and that every memory operation keeps it
(20_memory R76, R83).
-/

namespace Sys2Proof.Machine

theorem Memory.wfFrom_mono {m : Memory} {lo lo' : Nat} (h : Memory.wfFrom lo m = true) (hl : lo' ≤ lo) :
    Memory.wfFrom lo' m = true := by
  cases m with
  | nil => rfl
  | cons c rest =>
    obtain ⟨k, v⟩ := c
    simp only [Memory.wfFrom, Bool.and_eq_true, decide_eq_true_eq] at h ⊢
    exact ⟨⟨⟨by omega, h.1.1.2⟩, h.1.2⟩, h.2⟩

/-- An address below a canonical list reads as an unlisted one. -/
theorem Memory.readAt_of_lt {m : Memory} {lo a : Nat} (h : Memory.wfFrom lo m = true) (ha : a < lo) :
    m.readAt a = Memory.unlisted := by
  induction m generalizing lo with
  | nil => rfl
  | cons c rest ih =>
    obtain ⟨k, v⟩ := c
    simp only [Memory.wfFrom, Bool.and_eq_true, decide_eq_true_eq] at h
    have hk : k ≠ a := by omega
    simp only [Memory.readAt, hk, if_false]
    exact ih h.2 (by omega)

/-- A write keeps the canonical form. -/
theorem Memory.wfFrom_writeAt {m : Memory} {lo a : Nat} (v : Byte) (h : Memory.wfFrom lo m = true)
    (hl : lo ≤ a) (ha : a < 65536) : Memory.wfFrom lo (m.writeAt a v) = true := by
  induction m generalizing lo with
  | nil =>
    unfold Memory.writeAt
    split
    · rfl
    · next hv => simp [Memory.wfFrom, hl, ha, hv]
  | cons c rest ih =>
    obtain ⟨k, w⟩ := c
    have h' := h
    simp only [Memory.wfFrom, Bool.and_eq_true, decide_eq_true_eq] at h'
    obtain ⟨⟨⟨h1, h2⟩, h3⟩, h4⟩ := h'
    unfold Memory.writeAt
    split
    · next hka =>
      simp only [Memory.wfFrom, Bool.and_eq_true, decide_eq_true_eq]
      exact ⟨⟨⟨h1, h2⟩, h3⟩, ih h4 (by omega)⟩
    · split
      · next hnka hka =>
        subst hka
        split
        · exact Memory.wfFrom_mono h4 (by omega)
        · next hv =>
          simp only [Memory.wfFrom, Bool.and_eq_true, decide_eq_true_eq]
          exact ⟨⟨⟨hl, ha⟩, hv⟩, h4⟩
      · split
        · exact h
        · next hnlt hne hv =>
          simp only [Memory.wfFrom, Bool.and_eq_true, decide_eq_true_eq]
          exact ⟨⟨⟨hl, ha⟩, hv⟩, ⟨⟨by omega, h2⟩, h3⟩, h4⟩

/-- Reading the address just written gives the byte written. -/
theorem Memory.readAt_writeAt_same {m : Memory} {lo a : Nat} (v : Byte) (h : Memory.wfFrom lo m = true) :
    (m.writeAt a v).readAt a = v := by
  induction m generalizing lo with
  | nil =>
    unfold Memory.writeAt
    split
    · next hv => simp [Memory.readAt, hv]
    · simp [Memory.readAt]
  | cons c rest ih =>
    obtain ⟨k, w⟩ := c
    have h' := h
    simp only [Memory.wfFrom, Bool.and_eq_true, decide_eq_true_eq] at h'
    unfold Memory.writeAt
    split
    · next hka =>
      have : k ≠ a := by omega
      simp only [Memory.readAt, this, if_false]
      exact ih h'.2
    · split
      · next hnka hka =>
        subst hka
        split
        · next hv => rw [hv]; exact Memory.readAt_of_lt h'.2 (by omega)
        · simp [Memory.readAt]
      · split
        · next hnlt hne hv =>
          rw [hv]
          exact Memory.readAt_of_lt (lo := k) (by simpa [Memory.wfFrom] using ⟨⟨h'.1.1.2, h'.1.2⟩, h'.2⟩) (by omega)
        · simp [Memory.readAt]

/-- A write leaves every other address alone; no premise on the list. -/
theorem Memory.readAt_writeAt_other (m : Memory) {a b : Nat} (v : Byte) (h : b ≠ a) :
    (m.writeAt a v).readAt b = m.readAt b := by
  induction m with
  | nil =>
    unfold Memory.writeAt
    split
    · rfl
    · simp [Memory.readAt, Ne.symm h]
  | cons c rest ih =>
    obtain ⟨k, w⟩ := c
    unfold Memory.writeAt
    split
    · simp only [Memory.readAt, ih]
    · split
      · next hka =>
        subst hka
        split
        · simp [Memory.readAt, Ne.symm h]
        · simp [Memory.readAt, Ne.symm h]
      · split
        · rfl
        · simp [Memory.readAt, Ne.symm h]

/-- Writing the same byte twice is writing it once. -/
theorem Memory.writeAt_writeAt {m : Memory} {lo a : Nat} (v : Byte) (h : Memory.wfFrom lo m = true) :
    (m.writeAt a v).writeAt a v = m.writeAt a v := by
  induction m generalizing lo with
  | nil =>
    by_cases hv : v = Memory.unlisted <;> simp [Memory.writeAt, hv]
  | cons c rest ih =>
    obtain ⟨k, w⟩ := c
    have h' := h
    simp only [Memory.wfFrom, Bool.and_eq_true, decide_eq_true_eq] at h'
    by_cases h1 : k < a
    · simp [Memory.writeAt, h1, ih h'.2]
    · by_cases h2 : k = a
      · subst h2
        by_cases hv : v = Memory.unlisted
        · simp only [Memory.writeAt, lt_irrefl, if_false, hv, if_true]
          cases rest with
          | nil => simp [Memory.writeAt]
          | cons c2 rest2 =>
            obtain ⟨k2, w2⟩ := c2
            have h3 := h'.2
            simp only [Memory.wfFrom, Bool.and_eq_true, decide_eq_true_eq] at h3
            have hlt : ¬ k2 < k := by omega
            have hne : k2 ≠ k := by omega
            simp [Memory.writeAt, hlt, hne]
        · simp [Memory.writeAt, hv]
      · by_cases hv : v = Memory.unlisted
        · simp [Memory.writeAt, h1, h2, hv]
        · simp [Memory.writeAt, h1, h2, hv]

/-! ### The same over 16-bit addresses -/

theorem Memory.wf_write {m : Memory} (a : Word) (v : Byte) (h : m.wf = true) : (m.write a v).wf = true :=
  Memory.wfFrom_writeAt v h (Nat.zero_le _) a.isLt

theorem Memory.read_write_same {m : Memory} (a : Word) (v : Byte) (h : m.wf = true) :
    (m.write a v).read a = v :=
  Memory.readAt_writeAt_same v h

theorem Memory.read_write_other (m : Memory) {a b : Word} (v : Byte) (h : b ≠ a) :
    (m.write a v).read b = m.read b :=
  Memory.readAt_writeAt_other m v (fun e => h (BitVec.eq_of_toNat_eq e))

theorem Memory.write_write {m : Memory} (a : Word) (v : Byte) (h : m.wf = true) :
    (m.write a v).write a v = m.write a v :=
  Memory.writeAt_writeAt v h

/-- The service keeps the canonical form. -/
theorem State.service_wf {s : State} (h : s.mem.wf = true) : s.service.mem.wf = true := by
  simp only [State.service, State.serviceWrite]
  split
  · exact Memory.wf_write _ _ (by simpa using h)
  · simpa using h

/-- The service leaves memory alone unless `WR` is asserted. -/
theorem State.service_mem_of_not_wr {s : State} (h : s.bus.wr = false) : s.service.mem = s.mem := by
  have hb : s.serviceRead.bus.wr = false := by
    unfold State.serviceRead; split <;> simp_all
  simp [State.service, State.serviceWrite, hb]

/-- The service writes at most the byte at `ADDR`. -/
theorem State.service_read_other {s : State} {a : Word} (h : a ≠ s.bus.addr) :
    s.service.mem.read a = s.mem.read a := by
  have hb : s.serviceRead.bus.addr = s.bus.addr := by unfold State.serviceRead; split <;> rfl
  simp only [State.service, State.serviceWrite]
  split
  · rw [State.serviceRead_mem, hb]; exact Memory.read_write_other _ _ h
  · simp

/-- Servicing twice is servicing once, unless both `RD` and `WR` are asserted (20_memory R74). -/
theorem State.service_service {s : State} (h : s.bus.rd = false ∨ s.bus.wr = false) (hm : s.mem.wf = true ∨ s.bus.wr = false) :
    s.service.service = s.service := by
  have hcase : s.bus.wr = false ∨ (s.bus.rd = false ∧ s.mem.wf = true) := by tauto
  rcases hcase with hw | ⟨hr, hwf⟩
  · have hsw : ∀ t : State, t.bus.wr = false → t.serviceWrite = t := by
      intro t ht; simp [State.serviceWrite, ht]
    have hrw : ∀ t : State, t.bus.wr = false → t.serviceRead.bus.wr = false := by
      intro t ht; unfold State.serviceRead; split <;> simp_all
    have hs : s.service = s.serviceRead := by simp [State.service, hsw _ (hrw s hw)]
    rw [hs]
    have : s.serviceRead.serviceRead = s.serviceRead := by
      unfold State.serviceRead
      by_cases hc : (s.bus.mreq && s.bus.rd && !s.bus.rfsh) = true
      · simp [hc]
      · simp [hc]
    simp [State.service, this, hsw _ (hrw s hw)]
  · have hsr : ∀ t : State, t.bus.rd = false → t.serviceRead = t := by
      intro t ht; simp [State.serviceRead, ht]
    have hs : s.service = s.serviceWrite := by simp [State.service, hsr s hr]
    rw [hs]
    have hrd : s.serviceWrite.bus.rd = false := by simpa using hr
    rw [State.service, hsr _ hrd]
    unfold State.serviceWrite
    by_cases hc : (s.bus.mreq && s.bus.wr && !s.bus.rfsh && writable s.cfg s.bus.addr) = true
    · simp only [hc, if_true, Memory.write_write _ _ hwf]
    · simp [hc]

end Sys2Proof.Machine
end

