-- ==== Sys2Proof/Laws/Operands.lean ====
section
/-!
SUPPORT. Laws/Operands.lean: halves and pairs are two views of one cell (10_state R21), writing a register and reading
it back, and the bits of an assembled flag byte (R30).
-/

namespace Sys2Proof

/-- The bits of `h ++ l` (00_scope R7). -/
theorem getLsbD_joinBytes (h l : Byte) (i : Nat) :
    (joinBytes h l).getLsbD i = if i < 8 then l.getLsbD i else h.getLsbD (i - 8) :=
  BitVec.getLsbD_append

/-- The bits of `w[15:8]`. -/
theorem getLsbD_hiByte (w : Word) (i : Nat) : (hiByte w).getLsbD i = (decide (i < 8) && w.getLsbD (8 + i)) := by
  simp [hiByte, BitVec.getLsbD_extractLsb']

/-- The bits of `w[7:0]`. -/
theorem getLsbD_loByte (w : Word) (i : Nat) : (loByte w).getLsbD i = (decide (i < 8) && w.getLsbD i) := by
  simp [loByte, BitVec.getLsbD_extractLsb']

@[simp] theorem hiByte_joinBytes (h l : Byte) : hiByte (joinBytes h l) = h := by
  apply BitVec.eq_of_getLsbD_eq
  intro i hi
  rw [getLsbD_hiByte, getLsbD_joinBytes, if_neg (by omega), decide_eq_true hi, Bool.true_and,
    Nat.add_sub_cancel_left]

@[simp] theorem loByte_joinBytes (h l : Byte) : loByte (joinBytes h l) = l := by
  apply BitVec.eq_of_getLsbD_eq
  intro i hi
  rw [getLsbD_loByte, getLsbD_joinBytes, if_pos hi, decide_eq_true hi, Bool.true_and]

@[simp] theorem joinBytes_hiByte_loByte (w : Word) : joinBytes (hiByte w) (loByte w) = w := by
  apply BitVec.eq_of_getLsbD_eq
  intro i hi
  rw [getLsbD_joinBytes]
  split
  · next h => rw [getLsbD_loByte, decide_eq_true h, Bool.true_and]
  · next h =>
    rw [getLsbD_hiByte, decide_eq_true (by omega : i - 8 < 8), Bool.true_and,
      show 8 + (i - 8) = i by omega]

/-- Two 16-bit values with equal halves are equal (10_state R21). -/
theorem word_ext {v w : Word} (hh : hiByte v = hiByte w) (hl : loByte v = loByte w) : v = w := by
  rw [← joinBytes_hiByte_loByte v, ← joinBytes_hiByte_loByte w, hh, hl]

theorem joinBytes_inj {h l h' l' : Byte} (e : joinBytes h l = joinBytes h' l') : h = h' ∧ l = l' :=
  ⟨by simpa using congrArg hiByte e, by simpa using congrArg loByte e⟩

namespace Machine

@[simp] theorem State.pair_setPair_same (p : Pair) (v : Word) (s : State) : (s.setPair p v).pair p = v := by
  cases p <;> rfl

theorem State.pair_setPair_other {p q : Pair} (v : Word) (s : State) (h : q ≠ p) :
    (s.setPair p v).pair q = s.pair q := by
  cases p <;> cases q <;> first | rfl | exact absurd rfl h

@[simp] theorem State.setPair_setPair (p : Pair) (v w : Word) (s : State) :
    (s.setPair p v).setPair p w = s.setPair p w := by
  cases p <;> rfl

/-- Writing a half is seen through that half and leaves the other half alone (10_state R21). -/
theorem State.setPairHigh_views (p : Pair) (v : Byte) (s : State) :
    (s.setPairHigh p v).pairHigh p = v ∧ (s.setPairHigh p v).pairLow p = s.pairLow p := by
  simp [State.setPairHigh, State.pairHigh, State.pairLow]

/-- Writing a half is seen through that half and leaves the other half alone (10_state R21). -/
theorem State.setPairLow_views (p : Pair) (v : Byte) (s : State) :
    (s.setPairLow p v).pairLow p = v ∧ (s.setPairLow p v).pairHigh p = s.pairHigh p := by
  simp [State.setPairLow, State.pairHigh, State.pairLow]

@[simp] theorem State.reg8_setReg8_same (r : Reg8) (v : Byte) (s : State) : (s.setReg8 r v).reg8 r = v := by
  cases r <;> simp [State.setReg8, State.reg8, Reg8.isHigh, State.setPairHigh, State.setPairLow,
    State.pairHigh, State.pairLow]

theorem State.reg8_setReg8_other {r q : Reg8} (v : Byte) (s : State) (h : q ≠ r) :
    (s.setReg8 r v).reg8 q = s.reg8 q := by
  cases r <;> cases q <;>
    simp_all [State.setReg8, State.reg8, Reg8.isHigh, Reg8.home, State.setPairHigh, State.setPairLow,
      State.pairHigh, State.pairLow, State.setPair, State.pair]

/-- Loading the low half and then the high half loads the pair (20_memory R77, 42_loads R190). -/
theorem State.setPair_halves (p : Pair) (nn : Word) (s : State) :
    (s.setPairLow p (loByte nn)).setPairHigh p (hiByte nn) = s.setPair p nn := by
  simp [State.setPairHigh, State.setPairLow, State.pairLow]

/-! ### The bits of a flag byte (10_state R30) -/

@[simp] theorem flagS_flagByte (s z f5 h f3 pv n c : Bool) : flagS (flagByte s z f5 h f3 pv n c) = s := by
  revert s z f5 h f3 pv n c; decide

@[simp] theorem flagZ_flagByte (s z f5 h f3 pv n c : Bool) : flagZ (flagByte s z f5 h f3 pv n c) = z := by
  revert s z f5 h f3 pv n c; decide

@[simp] theorem flagF5_flagByte (s z f5 h f3 pv n c : Bool) : flagF5 (flagByte s z f5 h f3 pv n c) = f5 := by
  revert s z f5 h f3 pv n c; decide

@[simp] theorem flagH_flagByte (s z f5 h f3 pv n c : Bool) : flagH (flagByte s z f5 h f3 pv n c) = h := by
  revert s z f5 h f3 pv n c; decide

@[simp] theorem flagF3_flagByte (s z f5 h f3 pv n c : Bool) : flagF3 (flagByte s z f5 h f3 pv n c) = f3 := by
  revert s z f5 h f3 pv n c; decide

@[simp] theorem flagPV_flagByte (s z f5 h f3 pv n c : Bool) : flagPV (flagByte s z f5 h f3 pv n c) = pv := by
  revert s z f5 h f3 pv n c; decide

@[simp] theorem flagN_flagByte (s z f5 h f3 pv n c : Bool) : flagN (flagByte s z f5 h f3 pv n c) = n := by
  revert s z f5 h f3 pv n c; decide

@[simp] theorem flagC_flagByte (s z f5 h f3 pv n c : Bool) : flagC (flagByte s z f5 h f3 pv n c) = c := by
  revert s z f5 h f3 pv n c; decide

/-- The refresh increment keeps bit 7 of `R` (10_state R28). -/
theorem refreshNext_top (r : Byte) : (refreshNext r).getLsbD 7 = r.getLsbD 7 := by
  revert r; decide

end Machine
end Sys2Proof
end

