-- ==== Sys2Proof/Laws/Engine.lean ====
section
/-!
SUPPORT. Laws/Engine.lean: how the run of an entry moves on by one accepted tick. `Advances` and `Ends` say that rounds
of the host's loop lead from one state to another, with a bound on their number that `runBound` covers;
they compose, so that a machine cycle and then an instruction are put together from single ticks.
-/

namespace Sys2Proof.Machine

/-- Rounds that do not end the run lead from `s` to `t`: at most `b`, and at most two more for each record of
the schedule they use up. -/
def Advances (e : Entry) (s : State) (b : Nat) (t : State) : Prop :=
  ∃ n, n + 2 * t.inputs.length ≤ b + 2 * s.inputs.length ∧ ∀ m, runEntry e (n + m) s = runEntry e m t

/-- Rounds lead from `s` to the end `t` of the run: at most `b`, and at most two more for each record. -/
def Ends (e : Entry) (s : State) (b : Nat) (t : State) : Prop :=
  ∃ n, n ≤ b + 2 * s.inputs.length ∧ ∀ m, runEntry e (n + m) s = t

theorem Advances.refl (e : Entry) (s : State) : Advances e s 0 s :=
  ⟨0, by simp, fun m => by simp⟩

theorem Advances.trans {e : Entry} {s t u : State} {b c : Nat} (h : Advances e s b t) (k : Advances e t c u) :
    Advances e s (b + c) u := by
  obtain ⟨n, hn, hrun⟩ := h
  obtain ⟨n', hn', hrun'⟩ := k
  exact ⟨n + n', by omega, fun m => by rw [Nat.add_assoc, hrun, hrun']⟩

theorem Advances.mono {e : Entry} {s t : State} {b c : Nat} (h : Advances e s b t) (hbc : b ≤ c) :
    Advances e s c t := by
  obtain ⟨n, hn, hrun⟩ := h
  exact ⟨n, by omega, hrun⟩

theorem Advances.ends {e : Entry} {s t u : State} {b c : Nat} (h : Advances e s b t) (k : Ends e t c u) :
    Ends e s (b + c) u := by
  obtain ⟨n, hn, hrun⟩ := h
  obtain ⟨n', hn', hrun'⟩ := k
  exact ⟨n + n', by omega, fun m => by rw [Nat.add_assoc, hrun, hrun']⟩

/-- A run that ends within the bound is the meaning of the entry. -/
theorem runInstr_of_ends {e : Entry} {s t : State} {b : Nat} (h : Ends e s b t) (hb : b ≤ 8 * e.cycles) :
    runInstr e s = .next t := by
  obtain ⟨n, hn, hrun⟩ := h
  obtain ⟨m, hm⟩ := Nat.le.dest (show n ≤ runBound e s by
    simp only [runBound, Config.tStates, Config.ticksPerTState]; omega)
  rw [runInstr, ← hm, hrun]

/-! ### Where the schedule stands -/

theorem State.serviceRead_setInputs (s : State) (ls : List TickIn) :
    (s.setInputs ls).serviceRead = s.serviceRead.setInputs ls := by
  unfold State.serviceRead
  by_cases h : (s.bus.mreq && s.bus.rd && !s.bus.rfsh) = true
  · have h' : ((s.setInputs ls).bus.mreq && (s.setInputs ls).bus.rd && !(s.setInputs ls).bus.rfsh) = true := h
    rw [if_pos h', if_pos h]; rfl
  · have h' : ¬ ((s.setInputs ls).bus.mreq && (s.setInputs ls).bus.rd && !(s.setInputs ls).bus.rfsh) = true := h
    rw [if_neg h', if_neg h]

theorem State.serviceWrite_setInputs (s : State) (ls : List TickIn) :
    (s.setInputs ls).serviceWrite = s.serviceWrite.setInputs ls := by
  unfold State.serviceWrite
  by_cases h : (s.bus.mreq && s.bus.wr && !s.bus.rfsh && writable s.cfg s.bus.addr) = true
  · have h' : ((s.setInputs ls).bus.mreq && (s.setInputs ls).bus.wr && !(s.setInputs ls).bus.rfsh &&
        writable (s.setInputs ls).cfg (s.setInputs ls).bus.addr) = true := h
    rw [if_pos h', if_pos h]; rfl
  · have h' : ¬ ((s.setInputs ls).bus.mreq && (s.setInputs ls).bus.wr && !(s.setInputs ls).bus.rfsh &&
        writable (s.setInputs ls).cfg (s.setInputs ls).bus.addr) = true := h
    rw [if_neg h', if_neg h]

theorem State.service_setInputs (s : State) (ls : List TickIn) :
    (s.setInputs ls).service = s.service.setInputs ls := by
  rw [State.service, State.serviceRead_setInputs, State.serviceWrite_setInputs]; rfl

@[simp] theorem State.setInputs_setInputs (s : State) (ls ks : List TickIn) :
    (s.setInputs ls).setInputs ks = s.setInputs ks := rfl

/-- The state in which an accepted tick acts: the backend has served, the rest of the schedule is `ls`, the tick is
counted and `PH` flipped (40_sequencer R149 item 4). -/
def State.accepted (s : State) (ls : List TickIn) : State :=
  (s.service.setInputs ls).acceptTick

/-- `ls` is what is left of the schedule of `s` after some of its records, and a tick with the levels `l` came
last among those, or after the end of the schedule. -/
def State.Gives (s : State) (l : TickIn) (ls : List TickIn) : Prop :=
  (l = TickIn.idle s.seq.ph ∧ ls = []) ∨ (∃ ks, s.inputs = ks ++ l :: ls)

/-- Without a reset to come, a running engine accepts a tick after `n` ignored ones, each of which uses up a
record of the schedule (40_sequencer R133, R149). -/
theorem exists_accepted (s : State) (hs : s.ctl.stopped = false) (hr : s.noReset = true)
    (hv : s.service.service = s.service) :
    ∃ n l ls, l.clk = s.seq.ph ∧ l.reset = false ∧ s.Gives l ls ∧ n + ls.length ≤ s.inputs.length ∧
      ((l = TickIn.idle s.seq.ph ∧ ls = []) ∨ n + 1 + ls.length ≤ s.inputs.length) ∧
      ∀ e m, runEntry e (n + 1 + m) s =
        match tickAction e l (s.accepted ls) with
        | (t, r) => if endsRun r t then t else runEntry e m t := by
  generalize hls : s.inputs = inputs
  induction inputs generalizing s with
  | nil =>
    refine ⟨0, TickIn.idle s.seq.ph, [], rfl, rfl, .inl ⟨rfl, rfl⟩, by simp, .inl ⟨rfl, rfl⟩, fun e m => ?_⟩
    have : clockAs e s = tickAction e (TickIn.idle s.seq.ph) (s.accepted []) := by
      simp [clockAs, tickAs, State.nextLevels, State.served, hls, TickIn.idle, hs, State.accepted]
    rw [Nat.zero_add, Nat.add_comm, runEntry, this]
  | cons l ls ih =>
    have hlr : l.reset = false ∧ ∀ x ∈ ls, x.reset = false := by
      have := hr
      rw [State.noReset, hls] at this
      simpa [List.all_cons] using this
    by_cases hclk : l.clk = s.seq.ph
    · refine ⟨0, l, ls, hclk, hlr.1, .inr ⟨[], hls⟩, by simp, .inr (by simp; omega), fun e m => ?_⟩
      have : clockAs e s = tickAction e l (s.accepted ls) := by
        simp [clockAs, tickAs, State.nextLevels, State.served, hls, hlr.1, hclk, hs, State.accepted]
      rw [Nat.zero_add, Nat.add_comm, runEntry, this]
    · have hstep : ∀ e m, runEntry e (1 + m) s = runEntry e m (s.service.setInputs ls) := by
        intro e m
        have : clockAs e s = ((s.service.setInputs ls), .ignored) := by
          simp [clockAs, tickAs, State.nextLevels, State.served, hls, hlr.1, hs, hclk]
        rw [Nat.add_comm, runEntry, this]
        simp [endsRun]
      have hv' : (s.service.setInputs ls).service = s.service.setInputs ls := by
        rw [State.service_setInputs, hv]
      obtain ⟨n, l', ls', h1, h2, h3, h4, h5, h6⟩ := ih (s.service.setInputs ls) (by simpa using hs)
        (by simpa [State.noReset] using hlr.2) (by rw [hv', hv']) rfl
      have hacc : State.accepted (s.service.setInputs ls) ls' = s.accepted ls' := by
        rw [State.accepted, hv']; rfl
      rw [hacc] at h6
      simp only [State.setInputs_seq, State.service_seq] at h1 h5
      refine ⟨n + 1, l', ls', h1, h2, ?_, by simp; omega, ?_, fun e m => ?_⟩
      · rcases h3 with h3 | ⟨ks, h3⟩
        · exact .inl (by simpa using h3)
        · exact .inr ⟨l :: ks, by rw [hls, List.cons_append]; simpa using h3⟩
      · rcases h5 with h5 | h5
        · exact .inl h5
        · exact .inr (by simp at h5 ⊢; omega)
      · rw [show n + 1 + 1 + m = 1 + (n + 1 + m) by omega, hstep, h6]

end Sys2Proof.Machine
end

