-- ==== Sys2Proof/Laws/Cycles.lean ====
section
/-!
SUPPORT. Laws/Cycles.lean: the machine cycles, each put together from its ticks: the opcode fetch up to the decode point
and up to M1 T4 low, the operand read, the memory write and the internal cycle, whatever waits and ignored
ticks the schedule holds.
-/

namespace Sys2Proof.Machine

/-- Two amounts added to a counter. -/
theorem counter_add (k : Counter) (a b : Nat) :
    k + BitVec.ofNat 64 a + BitVec.ofNat 64 b = k + BitVec.ofNat 64 (a + b) := by
  rw [BitVec.add_assoc, ← BitVec.ofNat_add]

/-! ### One tick of a run -/

/-- Input levels that a tick at the phase `p` can have while the schedule is `ls`. -/
def FromSchedule (p : Level) (ls : List TickIn) (l : TickIn) : Prop := l = TickIn.idle p ∨ l ∈ ls

theorem State.Gives.suffix {s : State} {l : TickIn} {ls : List TickIn} (h : s.Gives l ls) : ls <:+ s.inputs := by
  rcases h with ⟨-, rfl⟩ | ⟨ks, h⟩
  · exact List.nil_suffix
  · exact ⟨ks ++ [l], by rw [h]; simp⟩

theorem State.Gives.from {s : State} {l : TickIn} {ls : List TickIn} (h : s.Gives l ls) :
    FromSchedule s.seq.ph s.inputs l := by
  rcases h with ⟨h, -⟩ | ⟨ks, h⟩
  · exact .inl h
  · exact .inr (by rw [h]; simp)

theorem noReset_of_suffix {s t : State} (h : s.noReset = true) (hs : t.inputs <:+ s.inputs) : t.noReset = true := by
  simp only [State.noReset, List.all_eq_true] at h ⊢
  exact fun l hl => h l (hs.subset hl)

/-- A tick of a run that goes on; what it does may depend on the levels. -/
theorem advances_tick_of {e : Entry} {s : State} (f : TickIn → List TickIn → State) (hs : s.ctl.stopped = false)
    (hr : s.noReset = true) (hv : s.service.service = s.service)
    (h : ∀ l ls, l.clk = s.seq.ph → l.reset = false → tickAction e l (s.accepted ls) = (f l ls, .ok))
    (hf : ∀ l ls, ¬ ((f l ls).seq.step = 0#8 ∧ (f l ls).seq.ph = .high)) (hi : ∀ l ls, (f l ls).inputs = ls) :
    ∃ l ls, FromSchedule s.seq.ph s.inputs l ∧ ls <:+ s.inputs ∧ Advances e s 1 (f l ls) := by
  obtain ⟨n, l, ls, h1, h2, h3, h4, h5, h6⟩ := exists_accepted s hs hr hv
  refine ⟨l, ls, h3.from, h3.suffix, n + 1, ?_, fun m => ?_⟩
  · rw [hi]; omega
  · rw [h6, h l ls h1 h2]
    have : endsRun .ok (f l ls) = false := by simpa [endsRun] using hf l ls
    simp [this]

/-- A tick of a run that goes on. -/
theorem advances_tick {e : Entry} {s : State} (f : State) (hs : s.ctl.stopped = false) (hr : s.noReset = true)
    (hv : s.service.service = s.service)
    (h : ∀ l ls, l.clk = s.seq.ph → l.reset = false → tickAction e l (s.accepted ls) = (f.setInputs ls, .ok))
    (hf : ¬ (f.seq.step = 0#8 ∧ f.seq.ph = .high)) :
    ∃ ls, ls <:+ s.inputs ∧ Advances e s 1 (f.setInputs ls) := by
  obtain ⟨n, l, ls, h1, h2, h3, h4, h5, h6⟩ := exists_accepted s hs hr hv
  refine ⟨ls, h3.suffix, n + 1, ?_, fun m => ?_⟩
  · simp; omega
  · rw [h6, h l ls h1 h2]
    simp [endsRun, hf]

/-- A tick that ends a run. -/
theorem ends_tick {e : Entry} {s : State} (f : TickIn → List TickIn → State) (r : TickResult)
    (hs : s.ctl.stopped = false) (hr : s.noReset = true) (hv : s.service.service = s.service)
    (h : ∀ l ls, l.clk = s.seq.ph → l.reset = false → tickAction e l (s.accepted ls) = (f l ls, r))
    (hf : ∀ l ls, endsRun r (f l ls) = true) :
    ∃ l ls, FromSchedule s.seq.ph s.inputs l ∧ ls <:+ s.inputs ∧ Ends e s 1 (f l ls) := by
  obtain ⟨n, l, ls, h1, h2, h3, h4, h5, h6⟩ := exists_accepted s hs hr hv
  refine ⟨l, ls, h3.from, h3.suffix, n + 1, by omega, fun m => ?_⟩
  rw [h6, h l ls h1 h2]
  simp [hf]

/-- The state with other values of what a wait changes: `TICKS`, `PH` and the schedule. -/
def State.atTick (s : State) (k : Counter) (p : Level) (ls : List TickIn) : State :=
  { s with totals.ticks := k, seq.ph := p, inputs := ls }

/-- The two ticks of T2: `T2` high changes nothing, `T2` low waits as long as the host asserts `WAIT`, and then
leads to `f`; `w` counts the waits. `s` is what the service makes of the state `u` the ticks begin in. -/
theorem advances_t2 {e : Entry} {u s : State} (f : State) (hs : s.ctl.stopped = false)
    (hu : ∀ k p ls, (u.atTick k p ls).service = s.atTick k p ls)
    (hv : ∀ k p ls, (s.atTick k p ls).service = s.atTick k p ls)
    (hhigh : ∀ k ls l, l.clk = .high → tickAction e l (s.atTick k .low ls) = (s.atTick k .low ls, .ok))
    (hwait : ∀ k ls l, l.clk = .low → l.wait = true →
      tickAction e l (s.atTick k .high ls) = (s.atTick k .high ls, .ok))
    (hgo : ∀ k ls l, l.clk = .low → l.wait = false →
      tickAction e l (s.atTick k .high ls) = (f.atTick k .high ls, .ok))
    (hf : f.seq.step ≠ 0#8) (hs0 : s.seq.step ≠ 0#8) (k : Counter) (ks : List TickIn)
    (hr : ks.all (fun l => !l.reset) = true) :
    ∃ (w : Nat) (ls : List TickIn), ls <:+ ks ∧ (ks.all (fun l => !l.wait) = true → w = 0) ∧
      Advances e (u.atTick k .high ks) 2 (f.atTick (k + BitVec.ofNat 64 (2 + 2 * w)) .high ls) := by
  generalize hN : ks.length = N
  induction N using Nat.strongRecOn generalizing u k ks with
  | _ N ih =>
    subst hN
    have acc : ∀ k p ks ls, (s.atTick k p ks).accepted ls = s.atTick (k + 1#64) p.flip ls := by
      intro k p ks ls
      rw [State.accepted, hv]; rfl
    have acc0 : ∀ ls, (u.atTick k .high ks).accepted ls = s.atTick (k + 1#64) .low ls := by
      intro ls
      rw [State.accepted, hu]; rfl
    have hsu : (u.atTick k .high ks).ctl.stopped = false := by
      have := congrArg (fun s => s.ctl) (hu k .high ks)
      simp only [State.service_ctl] at this
      rw [this]; exact hs
    obtain ⟨n, l, ls, h1, h2, h3, h4, h5, h6⟩ :=
      exists_accepted (u.atTick k .high ks) hsu hr (by rw [hu, hv])
    have hls := h3.suffix
    have hr' : ls.all (fun l => !l.reset) = true := by
      simp only [List.all_eq_true] at hr ⊢
      exact fun l hl => hr l (hls.subset hl)
    obtain ⟨n', l', ls', h1', h2', h3', h4', h5', h6'⟩ :=
      exists_accepted (s.atTick (k + 1#64) .low ls) hs hr' (by rw [hv, hv])
    have hls' := h3'.suffix
    change l.clk = .high at h1
    change l'.clk = .low at h1'
    have hrun : ∀ m, runEntry e (n + 1 + m) (u.atTick k .high ks) = runEntry e m (s.atTick (k + 1#64) .low ls) := by
      intro m
      rw [h6, acc0, hhigh _ _ _ h1]
      simp [endsRun, State.atTick]
    have hlen : n + ls.length ≤ ks.length := h4
    have hlen' : n' + ls'.length ≤ ls.length := h4'
    cases hw : l'.wait with
    | false =>
      refine ⟨0, ls', hls'.trans hls, fun _ => rfl, n + 1 + (n' + 1), ?_, fun m => ?_⟩
      · change _ + 2 * ls'.length ≤ 2 + 2 * ks.length
        omega
      · rw [Nat.add_assoc, hrun, h6', acc, Level.flip_low, hgo _ _ _ h1' hw, BitVec.add_assoc]
        have : ¬ f.seq.step = 0#8 := hf
        simp [endsRun, State.atTick, this]
    | true =>
      have hne : l' ≠ TickIn.idle .low := by
        intro hc; rw [hc] at hw; exact absurd hw (by simp [TickIn.idle])
      have hlt : n' + 1 + ls'.length ≤ ls.length := by rcases h5' with ⟨h, -⟩ | h; exacts [absurd h hne, h]
      have hr'' : ls'.all (fun l => !l.reset) = true := by
        simp only [List.all_eq_true] at hr' ⊢
        exact fun l hl => hr' l (hls'.subset hl)
      obtain ⟨w, us, hus, hww, q, hq, hqrun⟩ :=
        ih ls'.length (by omega) hv (k + 1#64 + 1#64) ls' hr'' rfl
      refine ⟨w + 1, us, hus.trans (hls'.trans hls), fun hall => ?_, n + 1 + (n' + 1) + q, ?_, fun m => ?_⟩
      · exfalso
        rcases h3'.from with hc | hc
        · exact hne hc
        · simp only [List.all_eq_true] at hall
          have := hall l' (hls.subset hc)
          rw [hw] at this; simp at this
      · change _ + 2 * us.length ≤ 2 + 2 * ks.length
        change q + 2 * us.length ≤ 2 + 2 * ls'.length at hq
        omega
      · have h7 : ∀ m, runEntry e (n' + 1 + m) (s.atTick (k + 1#64) .low ls) =
            runEntry e m (s.atTick (k + 1#64 + 1#64) .high ls') := by
          intro m
          rw [h6', acc, Level.flip_low, hwait _ _ _ h1' hw]
          have : ¬ s.seq.step = 0#8 := hs0
          simp [endsRun, State.atTick, this]
        rw [show n + 1 + (n' + 1) + q + m = n + 1 + (n' + 1 + (q + m)) by omega, hrun, h7, hqrun]
        have : k + 1#64 + 1#64 + BitVec.ofNat 64 (2 + 2 * w) = k + BitVec.ofNat 64 (2 + 2 * (w + 1)) := by
          rw [BitVec.add_assoc k, BitVec.add_assoc k]
          congr 1
          apply BitVec.eq_of_toNat_eq
          simp only [BitVec.toNat_add, BitVec.toNat_ofNat]
          omega
        rw [this]

/-! ### The opcode fetch -/

/-- The state between M1 T3 high and M1 T3 low, the decode point (40_sequencer R139, R140), of the fetch that begins
in `s`, at the tick count `k`. -/
def State.atDecodePoint (s : State) (k : Counter) (ls : List TickIn) : State :=
  { s with
    seq := { opacc := joinBytes (hiByte s.seq.opacc) (s.mem.read s.regs.pc), step := 2#8, tmp := s.seq.tmp, ph := .low }
    totals.ticks := k
    bus := { addr := joinBytes s.regs.i s.regs.r, data := s.mem.read s.regs.pc, m1 := false, mreq := true,
             rd := false, wr := false, rfsh := true, halt := s.bus.halt, busack := s.bus.busack }
    inputs := ls }

/-- The ticks of the opcode fetch up to M1 T3 high. -/
theorem advances_fetch (e : Entry) {s : State} (hf : s.atFetch = true) (hr : s.noReset = true)
    (hh : s.ctl.haltf = false) :
    ∃ (w : Nat) (ls : List TickIn), ls <:+ s.inputs ∧ (s.inputs.all (fun l => !l.wait) = true → w = 0) ∧
      Advances e s 5 (s.atDecodePoint (s.totals.ticks + BitVec.ofNat 64 (5 + 2 * w)) ls) := by
  obtain ⟨regs, ctl, ⟨opacc, step, tmp, ph⟩, ⟨ticks, mc, ins⟩, ⟨addr, data, m1, mreq, rd, wr, rfsh, halt, busack⟩, mem, cfg, inputs⟩ := s
  simp only [State.atFetch, Bool.and_eq_true, Bool.not_eq_true', beq_iff_eq] at hf
  obtain ⟨⟨⟨⟨⟨rfl, rfl⟩, hst⟩, rfl⟩, rfl⟩, hp⟩ := hf
  simp only at hh hst
  -- M1 T1 high
  obtain ⟨l1, s1, a1⟩ := advances_tick (e := e) (s := ⟨regs, ctl, ⟨opacc, 0#8, tmp, .high⟩, ⟨ticks, mc, ins⟩,
      ⟨addr, data, m1, mreq, rd, false, false, halt, busack⟩, mem, cfg, inputs⟩)
    ⟨regs, ctl, ⟨opacc, 0#8, tmp, .low⟩, ⟨ticks + 1#64, mc, ins⟩,
      ⟨regs.pc, if mreq && rd then mem.read addr else data, true, mreq, rd, false, false, halt, busack⟩, mem, cfg, []⟩
    hst hr (State.service_service (.inr rfl) (.inr rfl))
    (by
      intro l ls h _
      simp only at h
      cases mreq <;> cases rd <;>
        simp [tickAction, State.accepted, State.service, State.serviceRead, State.serviceWrite, State.setInputs,
          State.acceptTick, h, m1T1High])
    (by simp)
  have r1 : (⟨regs, ctl, ⟨opacc, 0#8, tmp, .low⟩, ⟨ticks + 1#64, mc, ins⟩,
      ⟨regs.pc, if mreq && rd then mem.read addr else data, true, mreq, rd, false, false, halt, busack⟩, mem, cfg,
      l1⟩ : State).noReset = true := noReset_of_suffix hr s1
  -- M1 T1 low
  obtain ⟨l2, s2, a2⟩ := advances_tick (e := e) 
    ⟨regs, ctl, ⟨opacc, 1#8, tmp, .high⟩, ⟨ticks + 1#64 + 1#64, mc, ins⟩,
      ⟨regs.pc, if mreq && rd then mem.read regs.pc else data, true, true, true, false, false, halt, busack⟩, mem, cfg, []⟩
    hst r1 (State.service_service (.inr rfl) (.inr rfl))
    (by
      intro l ls h _
      simp only at h
      cases mreq <;> cases rd <;>
        simp [tickAction, State.accepted, State.service, State.serviceRead, State.serviceWrite, State.setInputs,
          State.acceptTick, h, m1T1Low, hh])
    (by simp)
  have r2 : (⟨regs, ctl, ⟨opacc, 1#8, tmp, .high⟩, ⟨ticks + 1#64 + 1#64, mc, ins⟩,
      ⟨regs.pc, if mreq && rd then mem.read regs.pc else data, true, true, true, false, false, halt, busack⟩, mem, cfg,
      l2⟩ : State).noReset = true := noReset_of_suffix r1 s2
  -- M1 T2
  obtain ⟨w, l3, s3, hw, a3⟩ := advances_t2 (e := e)
    (u := ⟨regs, ctl, ⟨opacc, 1#8, tmp, .high⟩, ⟨ticks + 1#64 + 1#64, mc, ins⟩,
      ⟨regs.pc, if mreq && rd then mem.read regs.pc else data, true, true, true, false, false, halt, busack⟩, mem, cfg, []⟩)
    (s := ⟨regs, ctl, ⟨opacc, 1#8, tmp, .high⟩, ⟨ticks + 1#64 + 1#64, mc, ins⟩,
      ⟨regs.pc, mem.read regs.pc, true, true, true, false, false, halt, busack⟩, mem, cfg, []⟩)
    ⟨regs, ctl, ⟨joinBytes (hiByte opacc) (mem.read regs.pc), 2#8, tmp, .high⟩, ⟨ticks + 1#64 + 1#64, mc, ins⟩,
      ⟨regs.pc, mem.read regs.pc, true, true, true, false, false, halt, busack⟩, mem, cfg, []⟩
    hst
    (by intro k p ls; simp [State.atTick, State.service, State.serviceRead, State.serviceWrite])
    (by intro k p ls; simp [State.atTick, State.service, State.serviceRead, State.serviceWrite])
    (by intro k ls l h; simp [State.atTick, tickAction, h])
    (by intro k ls l h h'; simp [State.atTick, tickAction, h, h', m1T2Low])
    (by intro k ls l h h'; simp [State.atTick, tickAction, h, h', m1T2Low])
    (by simp) (by simp) (ticks + 1#64 + 1#64) l2 r2
  have r3 : (⟨regs, ctl, ⟨joinBytes (hiByte opacc) (mem.read regs.pc), 2#8, tmp, .high⟩,
      ⟨ticks + 1#64 + 1#64 + BitVec.ofNat 64 (2 + 2 * w), mc, ins⟩,
      ⟨regs.pc, mem.read regs.pc, true, true, true, false, false, halt, busack⟩, mem, cfg, l3⟩ : State).noReset =
      true := noReset_of_suffix r2 s3
  -- M1 T3 high
  obtain ⟨l4, s4, a4⟩ := advances_tick (e := e)
    ⟨regs, ctl, ⟨joinBytes (hiByte opacc) (mem.read regs.pc), 2#8, tmp, .low⟩,
      ⟨ticks + 1#64 + 1#64 + BitVec.ofNat 64 (2 + 2 * w) + 1#64, mc, ins⟩,
      ⟨joinBytes regs.i regs.r, mem.read regs.pc, false, true, false, false, true, halt, busack⟩, mem, cfg, []⟩
    hst r3 (State.service_service (.inr rfl) (.inr rfl))
    (by
      intro l ls h _
      simp only at h
      simp [tickAction, State.accepted, State.service, State.serviceRead, State.serviceWrite, State.setInputs,
          State.acceptTick, h, m1T3High])
    (by simp)
  refine ⟨w, l4, s4.trans (s3.trans (s2.trans s1)), fun hall => hw ?_, ?_⟩
  · simp only [List.all_eq_true] at hall ⊢
    exact fun l hl => hall l ((s2.trans s1).subset hl)
  · have hk : ticks + BitVec.ofNat 64 (5 + 2 * w) =
        ticks + 1#64 + 1#64 + BitVec.ofNat 64 (2 + 2 * w) + 1#64 := by
      simp only [BitVec.add_assoc]
      congr 1
      apply BitVec.eq_of_toNat_eq
      simp only [BitVec.toNat_add, BitVec.toNat_ofNat]
      omega
    have := ((a1.trans a2).trans a3).trans a4
    simpa only [State.atDecodePoint, State.setInputs, hk] using this

/-- What the decode point leaves in the control state under the policy `noop` (40_sequencer R141). -/
def Entry.decodedCtl (e : Entry) (c : Control) : Control :=
  match e.kind with
  | .unrecognised op => { c with unsup := true, unsupOp := op }
  | .instruction => c
  | .pendingByte => c

/-- The state before M1 T4 low (40_sequencer R142, R143) of the fetch of `e` that begins in `s`. -/
def State.atDispatch (s : State) (e : Entry) (k : Counter) (ls : List TickIn) : State :=
  { s with
    regs.pc := s.regs.pc + 1#16
    ctl := e.decodedCtl s.ctl
    seq := { opacc := joinBytes (hiByte s.seq.opacc) (s.mem.read s.regs.pc), step := 3#8, tmp := s.seq.tmp, ph := .low }
    totals.ticks := k
    bus := { addr := joinBytes s.regs.i s.regs.r, data := s.mem.read s.regs.pc, m1 := false, mreq := false,
             rd := false, wr := false, rfsh := true, halt := s.bus.halt, busack := s.bus.busack }
    inputs := ls }

/-- Seven ticks and the waits lead from a fetch to its M1 T4 low, unless an unrecognised opcode stops the engine. -/
theorem advances_m1 (e : Entry) {s : State} (hf : s.atFetch = true) (hr : s.noReset = true)
    (hh : s.ctl.haltf = false) (hk : s.cfg.policy = .noop ∨ ∀ op, e.kind ≠ .unrecognised op) :
    ∃ (w : Nat) (ls : List TickIn), ls <:+ s.inputs ∧ (s.inputs.all (fun l => !l.wait) = true → w = 0) ∧
      Advances e s 7 (s.atDispatch e (s.totals.ticks + BitVec.ofNat 64 (7 + 2 * w)) ls) := by
  obtain ⟨w, l1, s1, hw, a1⟩ := advances_fetch e hf hr hh
  have hst : s.ctl.stopped = false := by
    simp only [State.atFetch, Bool.and_eq_true, Bool.not_eq_true'] at hf
    exact hf.1.1.1.2
  have r1 : (s.atDecodePoint (s.totals.ticks + BitVec.ofNat 64 (5 + 2 * w)) l1).noReset = true :=
    noReset_of_suffix hr s1
  obtain ⟨l2, s2, a2⟩ := advances_tick (e := e) (s := s.atDecodePoint (s.totals.ticks + BitVec.ofNat 64 (5 + 2 * w)) l1)
    { s with
      ctl := e.decodedCtl s.ctl
      seq := { opacc := joinBytes (hiByte s.seq.opacc) (s.mem.read s.regs.pc), step := 3#8, tmp := s.seq.tmp, ph := .high }
      totals.ticks := s.totals.ticks + BitVec.ofNat 64 (5 + 2 * w) + 1#64
      bus := { addr := joinBytes s.regs.i s.regs.r, data := s.mem.read s.regs.pc, m1 := false, mreq := false,
               rd := false, wr := false, rfsh := true, halt := s.bus.halt, busack := s.bus.busack } }
    hst r1 (State.service_service (.inr rfl) (.inr rfl))
    (by
      intro l ls h _
      change l.clk = .low at h
      cases hkk : e.kind with
      | instruction =>
        simp [tickAction, State.accepted, State.service, State.serviceRead, State.serviceWrite, State.setInputs,
          State.acceptTick, h, m1T3Low, State.atDecodePoint, hkk, Entry.decodedCtl]
      | pendingByte =>
        simp [tickAction, State.accepted, State.service, State.serviceRead, State.serviceWrite, State.setInputs,
          State.acceptTick, h, m1T3Low, State.atDecodePoint, hkk, Entry.decodedCtl]
      | unrecognised op =>
        have hp : s.cfg.policy = .noop := hk.resolve_right (fun hc => hc op hkk)
        simp [tickAction, State.accepted, State.service, State.serviceRead, State.serviceWrite, State.setInputs,
          State.acceptTick, h, m1T3Low, State.atDecodePoint, hkk, Entry.decodedCtl, hp, State.recordUnsupported])
    (by simp)
  have hst' : (e.decodedCtl s.ctl).stopped = false := by
    unfold Entry.decodedCtl; split <;> exact hst
  obtain ⟨l3, s3, a3⟩ := advances_tick (e := e)
    (s := State.setInputs l2 { s with
      ctl := e.decodedCtl s.ctl
      seq := { opacc := joinBytes (hiByte s.seq.opacc) (s.mem.read s.regs.pc), step := 3#8, tmp := s.seq.tmp, ph := .high }
      totals.ticks := s.totals.ticks + BitVec.ofNat 64 (5 + 2 * w) + 1#64
      bus := { addr := joinBytes s.regs.i s.regs.r, data := s.mem.read s.regs.pc, m1 := false, mreq := false,
               rd := false, wr := false, rfsh := true, halt := s.bus.halt, busack := s.bus.busack } })
    (s.atDispatch e (s.totals.ticks + BitVec.ofNat 64 (5 + 2 * w) + 1#64 + 1#64) [])
    hst' (noReset_of_suffix r1 s2) (State.service_service (.inr rfl) (.inr rfl))
    (by
      intro l ls h _
      change l.clk = .high at h
      simp [tickAction, State.accepted, State.service, State.serviceRead, State.serviceWrite, State.setInputs,
          State.acceptTick, h, State.advancePc, State.atDispatch])
    (by simp [State.atDispatch])
  refine ⟨w, l3, s3.trans (s2.trans s1), hw, ?_⟩
  have hk : s.totals.ticks + BitVec.ofNat 64 (7 + 2 * w) =
      s.totals.ticks + BitVec.ofNat 64 (5 + 2 * w) + 1#64 + 1#64 := by
    simp only [BitVec.add_assoc]
    congr 1
    apply BitVec.eq_of_toNat_eq
    simp only [BitVec.toNat_add, BitVec.toNat_ofNat]
    omega
  have := (a1.trans a2).trans a3
  simpa only [State.atDispatch, State.setInputs, hk] using this

/-- Under `strict` the run of an unrecognised opcode ends at the decode point with the engine frozen
(40_sequencer R141, 60_exceptions R300). -/
theorem ends_strict (e : Entry) {s : State} {op : Word} (hf : s.atFetch = true) (hr : s.noReset = true)
    (hh : s.ctl.haltf = false) (hk : e.kind = .unrecognised op) (hp : s.cfg.policy = .strict) :
    ∃ (w : Nat) (ls : List TickIn), ls <:+ s.inputs ∧ (s.inputs.all (fun l => !l.wait) = true → w = 0) ∧
      Ends e s 6 { s with
        ctl := { s.ctl with unsup := true, unsupOp := op, stopped := true }
        seq := { opacc := joinBytes (hiByte s.seq.opacc) (s.mem.read s.regs.pc), step := 2#8, tmp := s.seq.tmp, ph := .high }
        totals.ticks := s.totals.ticks + BitVec.ofNat 64 (6 + 2 * w)
        bus := { addr := joinBytes s.regs.i s.regs.r, data := s.mem.read s.regs.pc, m1 := false, mreq := false,
                 rd := false, wr := false, rfsh := true, halt := s.bus.halt, busack := s.bus.busack }
        inputs := ls } := by
  obtain ⟨w, l1, s1, hw, a1⟩ := advances_fetch e hf hr hh
  have hst : s.ctl.stopped = false := by
    simp only [State.atFetch, Bool.and_eq_true, Bool.not_eq_true'] at hf
    exact hf.1.1.1.2
  have r1 : (s.atDecodePoint (s.totals.ticks + BitVec.ofNat 64 (5 + 2 * w)) l1).noReset = true :=
    noReset_of_suffix hr s1
  obtain ⟨l, l2, -, s2, a2⟩ := ends_tick (e := e) (s := s.atDecodePoint (s.totals.ticks + BitVec.ofNat 64 (5 + 2 * w)) l1)
    (fun _ ls => { s with
      inputs := ls
      ctl := { s.ctl with unsup := true, unsupOp := op, stopped := true }
      seq := { opacc := joinBytes (hiByte s.seq.opacc) (s.mem.read s.regs.pc), step := 2#8, tmp := s.seq.tmp, ph := .high }
      totals.ticks := s.totals.ticks + BitVec.ofNat 64 (5 + 2 * w) + 1#64
      bus := { addr := joinBytes s.regs.i s.regs.r, data := s.mem.read s.regs.pc, m1 := false, mreq := false,
               rd := false, wr := false, rfsh := true, halt := s.bus.halt, busack := s.bus.busack } })
    (.unsupported op) hst r1 (State.service_service (.inr rfl) (.inr rfl))
    (by
      intro l ls h _
      change l.clk = .low at h
      simp [tickAction, State.accepted, State.service, State.serviceRead, State.serviceWrite, State.setInputs,
          State.acceptTick, h, m1T3Low, State.atDecodePoint, hk, hp, State.raiseUnsupported, State.recordUnsupported])
    (by intro l ls; rfl)
  refine ⟨w, l2, s2.trans s1, hw, ?_⟩
  have hk : s.totals.ticks + BitVec.ofNat 64 (6 + 2 * w) =
      s.totals.ticks + BitVec.ofNat 64 (5 + 2 * w) + 1#64 := by
    simp only [BitVec.add_assoc]
    congr 1
    apply BitVec.eq_of_toNat_eq
    simp only [BitVec.toNat_add, BitVec.toNat_ofNat]
    omega
  have := a1.ends a2
  simpa only [State.setInputs, hk] using this

/-! ### The dispatch -/

/-- The state in which the dispatch of `e` acts: the sample on the levels `l` and the refresh increment are done, the
refresh is over (40_sequencer R143). -/
def State.afterM1 (s : State) (e : Entry) (l : TickIn) (k : Counter) (ls : List TickIn) : State :=
  { s with
    regs := { s.regs with pc := s.regs.pc + 1#16, r := refreshNext s.regs.r }
    ctl := e.decodedCtl (s.sample l).ctl
    seq := { opacc := joinBytes (hiByte s.seq.opacc) (s.mem.read s.regs.pc), step := 3#8, tmp := s.seq.tmp, ph := .high }
    totals.ticks := k
    bus := { addr := joinBytes s.regs.i s.regs.r, data := s.mem.read s.regs.pc, m1 := false, mreq := false,
             rd := false, wr := false, rfsh := false, halt := (s.sample l).bus.halt, busack := s.bus.busack }
    inputs := ls }

theorem tickAction_m1T4 (e : Entry) (s : State) (k : Counter) (l : TickIn) (ls ks : List TickIn) (h : l.clk = .low) :
    tickAction e l ((s.atDispatch e k ks).accepted ls) = (dispatchEntry e (s.afterM1 e l (k + 1#64) ls), .ok) := by
  have hacc : (s.atDispatch e k ks).accepted ls =
      { s.atDispatch e (k + 1#64) ls with seq.ph := .high } := by
    simp [State.accepted, State.service, State.serviceRead, State.serviceWrite, State.setInputs, State.acceptTick,
      State.atDispatch]
  rw [hacc]
  have : tickAction e l { s.atDispatch e (k + 1#64) ls with seq.ph := .high } =
      (m1T4Low e l { s.atDispatch e (k + 1#64) ls with seq.ph := .high }, .ok) := by
    simp [tickAction, State.atDispatch, h]
  rw [this, m1T4Low]
  congr 2
  have hen : State.interruptsEnabled l { s.atDispatch e (k + 1#64) ls with seq.ph := .high } =
      s.interruptsEnabled l := by
    simp only [State.interruptsEnabled, State.atDispatch, Entry.decodedCtl]
    split <;> rfl
  unfold State.sample
  rw [hen]
  cases hi : s.interruptsEnabled l <;> cases hn : l.nmi <;> cases hnn : l.int <;> cases hk : e.kind <;>
    simp [State.afterM1, State.sample, hi, hn, hnn, hk, State.atDispatch, Entry.decodedCtl, State.stepRefresh,
      State.takeInterrupt]

/-! ### The later machine cycles -/

/-- The action of a tick of the `j`-th cycle after M1, at T-state `t` (from 0). -/
theorem tickAction_later {e : Entry} {c : Cycle} {j t : Nat} {s : State} (l : TickIn)
    (hc : e.later[j]? = some c) (hj : j < 50) (ht : t < 4) (hs : s.seq.step = BitVec.ofNat 8 (4 * j + t + 4)) :
    tickAction e l s = (laterTick e c (j + 1 == e.later.length) t l s, .ok) := by
  have hn : s.seq.step.toNat = 4 * j + t + 4 := by
    rw [hs, BitVec.toNat_ofNat]; omega
  have h1 : (4 * j + t) / 4 = j := by omega
  have h2 : (4 * j + t) % 4 = t := by omega
  unfold tickAction
  rw [hn]
  simp only [h1, h2, hc]

/-- A state in a later machine cycle, all else as in `s`: registers, `TMP`, `STEP`, `PH`, `TICKS`, the address and
data lines, `MREQ RD WR`, memory and the schedule. -/
def State.inCycle (s : State) (r : Regs) (tmp : Byte) (step : Nat) (p : Level) (k : Counter) (a : Word) (d : Byte)
    (q : Bool × Bool × Bool) (m : Memory) (ls : List TickIn) : State :=
  { s with
    regs := r
    seq := { opacc := s.seq.opacc, step := BitVec.ofNat 8 step, tmp := tmp, ph := p }
    totals.ticks := k
    bus := { addr := a, data := d, m1 := false, mreq := q.1, rd := q.2.1, wr := q.2.2, rfsh := false,
             halt := s.bus.halt, busack := s.bus.busack }
    mem := m
    inputs := ls }

/-- Where a later machine cycle begins: the `j`-th after M1, at T1 high, with every transfer line released. -/
structure AtCycle (e : Entry) (c : Cycle) (j : Nat) (s : State) : Prop where
  cycle : e.later[j]? = some c
  bound : j < 50
  step : s.seq.step = BitVec.ofNat 8 (4 * j + 4)
  phase : s.seq.ph = .high
  quiet : s.bus.quiet = true
  running : s.ctl.stopped = false
  noReset : s.noReset = true

theorem AtCycle.inCycle {e : Entry} {c : Cycle} {j : Nat} {s : State} (h : AtCycle e c j s) :
    s = s.inCycle s.regs s.seq.tmp (4 * j + 4) .high s.totals.ticks s.bus.addr s.bus.data (false, false, false) s.mem
      s.inputs := by
  obtain ⟨-, -, h1, h2, h3, -, -⟩ := h
  simp only [Bus.quiet, Bool.and_eq_true, Bool.not_eq_true'] at h3
  obtain ⟨regs, ctl, ⟨opacc, step, tmp, ph⟩, totals, ⟨addr, data, m1, mreq, rd, wr, rfsh, halt, busack⟩, mem, cfg, inputs⟩ := s
  simp only at h1 h2 h3
  obtain ⟨⟨⟨⟨rfl, rfl⟩, rfl⟩, rfl⟩, rfl⟩ := h3
  subst h1 h2
  rfl

theorem State.inCycle_setInputs (s : State) (r : Regs) (tmp : Byte) (step : Nat) (p : Level) (k : Counter) (a : Word)
    (d : Byte) (q : Bool × Bool × Bool) (m : Memory) (ls ks : List TickIn) :
    (s.inCycle r tmp step p k a d q m ls).setInputs ks = s.inCycle r tmp step p k a d q m ks := rfl

/-- A tick of a later cycle that is not its last: from one such state to another. -/
theorem advances_inCycle {e : Entry} {c : Cycle} {s : State} {j t : Nat} (hc : e.later[j]? = some c) (hj : j < 50)
    (ht : t < 4) {r r' : Regs} {tmp tmp' : Byte} {p : Level} {k : Counter} {a a' : Word} {d d' : Byte}
    {q q' : Bool × Bool × Bool} {m m' : Memory} {ls : List TickIn} {st' : Nat}
    (hs : s.ctl.stopped = false) (hr : (s.inCycle r tmp (4 * j + t + 4) p k a d q m ls).noReset = true)
    (hv : q.2.1 = false ∨ q.2.2 = false) (hm : m.wf = true ∨ q.2.2 = false) (hst : 0 < st') (hst' : st' < 256)
    (h : ∀ l ks, l.clk = p → laterTick e c (j + 1 == e.later.length) t l
        ((s.inCycle r tmp (4 * j + t + 4) p k a d q m ls).accepted ks) =
      s.inCycle r' tmp' st' p.flip (k + 1#64) a' d' q' m' ks) :
    ∃ ks, ks <:+ ls ∧ (s.inCycle r' tmp' st' p.flip (k + 1#64) a' d' q' m' ks).noReset = true ∧
      Advances e (s.inCycle r tmp (4 * j + t + 4) p k a d q m ls) 1
        (s.inCycle r' tmp' st' p.flip (k + 1#64) a' d' q' m' ks) := by
  obtain ⟨ks, h1, h2⟩ := advances_tick (e := e) (s := s.inCycle r tmp (4 * j + t + 4) p k a d q m ls)
    (s.inCycle r' tmp' st' p.flip (k + 1#64) a' d' q' m' []) hs hr
    (State.service_service hv hm)
    (fun l ks hl _ => by
      rw [tickAction_later l hc hj ht (by simp [State.accepted, State.inCycle]), h l ks hl]
      rfl)
    (by
      rintro ⟨h1, -⟩
      have := congrArg BitVec.toNat h1
      simp only [State.inCycle, BitVec.toNat_ofNat] at this
      omega)
  exact ⟨ks, h1, noReset_of_suffix hr h1, h2⟩

theorem State.inCycle_accepted_idle (s : State) (r : Regs) (tmp : Byte) (step : Nat) (p : Level) (k : Counter) (a : Word)
    (d : Byte) (rd wr : Bool) (m : Memory) (ls ks : List TickIn) :
    (s.inCycle r tmp step p k a d (false, rd, wr) m ls).accepted ks =
      s.inCycle r tmp step p.flip (k + 1#64) a d (false, rd, wr) m ks := by
  simp [State.accepted, State.service, State.serviceRead, State.serviceWrite, State.inCycle, State.setInputs,
    State.acceptTick]

theorem State.inCycle_accepted_read (s : State) (r : Regs) (tmp : Byte) (step : Nat) (p : Level) (k : Counter) (a : Word)
    (d : Byte) (m : Memory) (ls ks : List TickIn) :
    (s.inCycle r tmp step p k a d (true, true, false) m ls).accepted ks =
      s.inCycle r tmp step p.flip (k + 1#64) a (m.read a) (true, true, false) m ks := by
  simp [State.accepted, State.service, State.serviceRead, State.serviceWrite, State.inCycle, State.setInputs,
    State.acceptTick]

theorem State.inCycle_accepted_released (s : State) (r : Regs) (tmp : Byte) (step : Nat) (p : Level) (k : Counter)
    (a : Word) (d : Byte) (m : Memory) (ls ks : List TickIn) :
    (s.inCycle r tmp step p k a d (true, false, false) m ls).accepted ks =
      s.inCycle r tmp step p.flip (k + 1#64) a d (true, false, false) m ks := by
  simp [State.accepted, State.service, State.serviceRead, State.serviceWrite, State.inCycle, State.setInputs,
    State.acceptTick]

/-- What a store of `d` at `a` leaves in memory (20_memory R76). -/
def storeByte (c : Config) (m : Memory) (a : Word) (d : Byte) : Memory := if writable c a then m.write a d else m

theorem State.inCycle_accepted_write (s : State) (r : Regs) (tmp : Byte) (step : Nat) (p : Level) (k : Counter)
    (a : Word) (d : Byte) (m : Memory) (ls ks : List TickIn) :
    (s.inCycle r tmp step p k a d (true, false, true) m ls).accepted ks =
      s.inCycle r tmp step p.flip (k + 1#64) a d (true, false, true) (storeByte s.cfg m a d) ks := by
  unfold storeByte
  cases hw : writable s.cfg a <;>
  simp [State.accepted, State.service, State.serviceRead, State.serviceWrite, State.inCycle, State.setInputs,
    State.acceptTick, hw]

theorem State.inCycle_nextStep (s : State) (r : Regs) (tmp : Byte) (step : Nat) (p : Level) (k : Counter)
    (a : Word) (d : Byte) (q : Bool × Bool × Bool) (m : Memory) (ls : List TickIn) :
    (s.inCycle r tmp step p k a d q m ls).nextStep = s.inCycle r tmp (step + 1) p k a d q m ls := by
  simp [State.inCycle, State.nextStep, BitVec.ofNat_add]

theorem advances_internal {e : Entry} {j : Nat} {s : State} (h : AtCycle e .internal j s) :
    ∃ ls, ls <:+ s.inputs ∧
      Advances e s 7 (s.inCycle s.regs s.seq.tmp (4 * j + 7) .low (s.totals.ticks + BitVec.ofNat 64 7)
        s.bus.addr s.bus.data (false, false, false) s.mem ls) := by
  have hs := h.inCycle
  have hr := h.noReset
  rw [hs] at hr
  have hlow : ∀ t, t < 3 → ∀ l p k ls ks, l.clk = .low → p = Level.low → laterTick e .internal (j + 1 == e.later.length) t l
      ((s.inCycle s.regs s.seq.tmp (4 * j + t + 4) p k s.bus.addr s.bus.data (false, false, false) s.mem ls).accepted ks) =
      s.inCycle s.regs s.seq.tmp (4 * j + t + 5) .high (k + 1#64) s.bus.addr s.bus.data (false, false, false) s.mem ks := by
    intro t ht l p k ls ks hl hp
    subst hp
    rw [State.inCycle_accepted_idle, Level.flip_low]
    have : t = 0 ∨ t = 1 ∨ t = 2 := by omega
    rcases this with rfl | rfl | rfl <;> simp [laterTick, hl, internalTick, State.inCycle_nextStep]
  have hhigh : ∀ t, t < 4 → ∀ l p k ls ks, l.clk = .high → p = Level.high → laterTick e .internal (j + 1 == e.later.length) t l
      ((s.inCycle s.regs s.seq.tmp (4 * j + t + 4) p k s.bus.addr s.bus.data (false, false, false) s.mem ls).accepted ks) =
      s.inCycle s.regs s.seq.tmp (4 * j + t + 4) .low (k + 1#64) s.bus.addr s.bus.data (false, false, false) s.mem ks := by
    intro t ht l p k ls ks hl hp
    subst hp
    rw [State.inCycle_accepted_idle, Level.flip_high]
    have : t = 0 ∨ t = 1 ∨ t = 2 ∨ t = 3 := by omega
    rcases this with rfl | rfl | rfl | rfl <;> simp [laterTick, hl, internalTick]
  have hb := h.bound
  obtain ⟨l1, s1, r1, a1⟩ := advances_inCycle h.cycle hb (t := 0) (by omega) h.running hr (.inl rfl) (.inr rfl)
    (by omega) (by omega) (fun l ks hl => hhigh 0 (by omega) l .high _ _ ks hl rfl)
  obtain ⟨l2, s2, r2, a2⟩ := advances_inCycle h.cycle hb (t := 0) (by omega) h.running r1 (.inl rfl) (.inr rfl)
    (by omega) (by omega) (fun l ks hl => hlow 0 (by omega) l .low _ _ ks hl rfl)
  obtain ⟨l3, s3, r3, a3⟩ := advances_inCycle h.cycle hb (t := 1) (by omega) h.running r2 (.inl rfl) (.inr rfl)
    (by omega) (by omega) (fun l ks hl => hhigh 1 (by omega) l .high _ _ ks hl rfl)
  obtain ⟨l4, s4, r4, a4⟩ := advances_inCycle h.cycle hb (t := 1) (by omega) h.running r3 (.inl rfl) (.inr rfl)
    (by omega) (by omega) (fun l ks hl => hlow 1 (by omega) l .low _ _ ks hl rfl)
  obtain ⟨l5, s5, r5, a5⟩ := advances_inCycle h.cycle hb (t := 2) (by omega) h.running r4 (.inl rfl) (.inr rfl)
    (by omega) (by omega) (fun l ks hl => hhigh 2 (by omega) l .high _ _ ks hl rfl)
  obtain ⟨l6, s6, r6, a6⟩ := advances_inCycle h.cycle hb (t := 2) (by omega) h.running r5 (.inl rfl) (.inr rfl)
    (by omega) (by omega) (fun l ks hl => hlow 2 (by omega) l .low _ _ ks hl rfl)
  obtain ⟨l7, s7, r7, a7⟩ := advances_inCycle h.cycle hb (t := 3) (by omega) h.running r6 (.inl rfl) (.inr rfl)
    (by omega) (by omega) (fun l ks hl => hhigh 3 (by omega) l .high _ _ ks hl rfl)
  refine ⟨l7, s7.trans (s6.trans (s5.trans (s4.trans (s3.trans (s2.trans s1))))), ?_⟩
  have := (((((a1.trans a2).trans a3).trans a4).trans a5).trans a6).trans a7
  have hk : s.totals.ticks + 1#64 + 1#64 + 1#64 + 1#64 + 1#64 + 1#64 + 1#64 =
      s.totals.ticks + BitVec.ofNat 64 7 := by
    simp only [BitVec.add_assoc]; rfl
  rw [← hs, hk] at this
  exact this

/-- The two ticks of T2 of a later cycle. -/
theorem advances_t2_inCycle {e : Entry} {c : Cycle} {s : State} {j : Nat} (hc : e.later[j]? = some c) (hj : j < 50)
    {r r' : Regs} {tmp tmp' : Byte} {a a' : Word} {d d1 d' : Byte} {q q' : Bool × Bool × Bool} {m m1 m' : Memory}
    (hs : s.ctl.stopped = false)
    (hu : ∀ p k ls, (s.inCycle r tmp (4 * j + 1 + 4) p k a d q m ls).service =
      s.inCycle r tmp (4 * j + 1 + 4) p k a d1 q m1 ls)
    (hv : ∀ p k ls, (s.inCycle r tmp (4 * j + 1 + 4) p k a d1 q m1 ls).service =
      s.inCycle r tmp (4 * j + 1 + 4) p k a d1 q m1 ls)
    (hhigh : ∀ l t, l.clk = .high → laterTick e c (j + 1 == e.later.length) 1 l t = t)
    (hwait : ∀ l t, l.clk = .low → l.wait = true → laterTick e c (j + 1 == e.later.length) 1 l t = t)
    (hgo : ∀ l k ks, l.clk = .low → l.wait = false → laterTick e c (j + 1 == e.later.length) 1 l
        (s.inCycle r tmp (4 * j + 1 + 4) .high k a d1 q m1 ks) =
      s.inCycle r' tmp' (4 * j + 2 + 4) .high k a' d' q' m' ks)
    (k : Counter) (ls : List TickIn) (hr : (s.inCycle r tmp (4 * j + 1 + 4) .high k a d q m ls).noReset = true) :
    ∃ (w : Nat) (ks : List TickIn), ks <:+ ls ∧ (ls.all (fun l => !l.wait) = true → w = 0) ∧
      (s.inCycle r' tmp' (4 * j + 2 + 4) .high (k + BitVec.ofNat 64 (2 + 2 * w)) a' d' q' m' ks).noReset = true ∧
      Advances e (s.inCycle r tmp (4 * j + 1 + 4) .high k a d q m ls) 2
        (s.inCycle r' tmp' (4 * j + 2 + 4) .high (k + BitVec.ofNat 64 (2 + 2 * w)) a' d' q' m' ks) := by
  have hne : ∀ t, t < 4 → BitVec.ofNat 8 (4 * j + t + 4) ≠ 0#8 := by
    intro t ht hc
    have := congrArg BitVec.toNat hc
    simp only [BitVec.toNat_ofNat] at this
    omega
  obtain ⟨w, ks, h1, h2, h3⟩ := advances_t2 (e := e)
    (u := s.inCycle r tmp (4 * j + 1 + 4) .high 0#64 a d q m [])
    (s := s.inCycle r tmp (4 * j + 1 + 4) .high 0#64 a d1 q m1 [])
    (s.inCycle r' tmp' (4 * j + 2 + 4) .high 0#64 a' d' q' m' []) hs
    (fun k p ls => hu p k ls) (fun k p ls => hv p k ls)
    (fun k ls l hl => by rw [tickAction_later l hc hj (t := 1) (by omega) rfl, hhigh _ _ hl])
    (fun k ls l hl hw => by rw [tickAction_later l hc hj (t := 1) (by omega) rfl, hwait _ _ hl hw])
    (fun k ls l hl hw => by
      rw [tickAction_later l hc hj (t := 1) (by omega) rfl]
      exact congrArg (·, TickResult.ok) (hgo l k ls hl hw))
    (hne 2 (by omega)) (hne 1 (by omega)) k ls hr
  exact ⟨w, ks, h1, h2, noReset_of_suffix hr h1, h3⟩

/-- An operand-read cycle up to T4 high: the register file and `TMP` become what the latch makes of them with the byte
at `PC`, and `PC` moves past it (40_sequencer R150, R152). -/
theorem advances_operandRead {e : Entry} {j : Nat} {s : State} {latch : Byte → State → State}
    (f : Byte → Regs → Regs) (g : Byte → Byte → Byte)
    (hlatch : ∀ d s, latch d s = { s with regs := f d s.regs, seq.tmp := g d s.seq.tmp })
    (h : AtCycle e (.operandRead latch) j s) :
    ∃ (w : Nat) (ls : List TickIn), ls <:+ s.inputs ∧ (s.inputs.all (fun l => !l.wait) = true → w = 0) ∧
      Advances e s 7 (s.inCycle
        { f (s.mem.read s.regs.pc) s.regs with pc := (f (s.mem.read s.regs.pc) s.regs).pc + 1#16 }
        (g (s.mem.read s.regs.pc) s.seq.tmp) (4 * j + 7) .low
        (s.totals.ticks + BitVec.ofNat 64 (7 + 2 * w)) s.regs.pc (s.mem.read s.regs.pc) (false, false, false) s.mem ls) := by
  have hs := h.inCycle
  have hr := h.noReset
  rw [hs] at hr
  have hb := h.bound
  obtain ⟨l1, s1, r1, a1⟩ := advances_inCycle h.cycle hb (t := 0) (r' := s.regs) (tmp' := s.seq.tmp) (a' := s.regs.pc)
    (d' := s.bus.data) (q' := (false, false, false)) (m' := s.mem) (st' := 4 * j + 0 + 4) (by omega) h.running hr (.inl rfl) (.inr rfl)
    (by omega) (by omega) (fun l ks hl => by
      rw [State.inCycle_accepted_idle]; simp [laterTick, hl, operandReadTick]; rfl)
  obtain ⟨l2, s2, r2, a2⟩ := advances_inCycle h.cycle hb (t := 0) (r' := s.regs) (tmp' := s.seq.tmp) (a' := s.regs.pc)
    (d' := s.bus.data) (q' := (true, true, false)) (m' := s.mem) (st' := 4 * j + 1 + 4) (by omega) h.running r1 (.inl rfl) (.inr rfl)
    (by omega) (by omega) (fun l ks hl => by
      rw [State.inCycle_accepted_idle]
      refine Eq.trans ?_ (State.inCycle_nextStep _ _ _ (4 * j + 0 + 4) _ _ _ _ _ _ _)
      simp [laterTick, hl, operandReadTick]; rfl)
  obtain ⟨w, l3, s3, hw, r3, a3⟩ := advances_t2_inCycle (m1 := s.mem) (d1 := s.mem.read s.regs.pc)
    (r' := f (s.mem.read s.regs.pc) s.regs) (tmp' := g (s.mem.read s.regs.pc) s.seq.tmp) (a' := s.regs.pc)
    (d' := s.mem.read s.regs.pc) (q' := (true, true, false)) (m' := s.mem) h.cycle hb h.running
    (fun p k ls => by simp [State.inCycle, State.service, State.serviceRead, State.serviceWrite])
    (fun p k ls => by simp [State.inCycle, State.service, State.serviceRead, State.serviceWrite])
    (fun l t hl => by simp [laterTick, operandReadTick, hl])
    (fun l t hl hw => by simp [laterTick, operandReadTick, hl, hw])
    (fun l k ks hl hw => by
      refine Eq.trans ?_ (State.inCycle_nextStep _ _ _ (4 * j + 1 + 4) _ _ _ _ _ _ _)
      simp [laterTick, operandReadTick, hlatch, hl, hw]; rfl)
    _ l2 r2
  obtain ⟨l4, s4, r4, a4⟩ := advances_inCycle h.cycle hb (t := 2) (r' := f (s.mem.read s.regs.pc) s.regs)
    (tmp' := g (s.mem.read s.regs.pc) s.seq.tmp) (a' := s.regs.pc)
    (d' := s.mem.read s.regs.pc) (q' := (true, false, false)) (m' := s.mem) (st' := 4 * j + 2 + 4) (by omega) h.running r3 (.inr rfl) (.inr rfl)
    (by omega) (by omega) (fun l ks hl => by
      rw [State.inCycle_accepted_read]; simp [laterTick, hl, operandReadTick]; rfl)
  obtain ⟨l5, s5, r5, a5⟩ := advances_inCycle h.cycle hb (t := 2) (r' := f (s.mem.read s.regs.pc) s.regs)
    (tmp' := g (s.mem.read s.regs.pc) s.seq.tmp) (a' := s.regs.pc)
    (d' := s.mem.read s.regs.pc) (q' := (false, false, false)) (m' := s.mem) (st' := 4 * j + 3 + 4) (by omega) h.running r4 (.inr rfl) (.inr rfl)
    (by omega) (by omega) (fun l ks hl => by
      rw [State.inCycle_accepted_released]
      refine Eq.trans ?_ (State.inCycle_nextStep _ _ _ (4 * j + 2 + 4) _ _ _ _ _ _ _)
      simp [laterTick, hl, operandReadTick]; rfl)
  obtain ⟨l6, s6, r6, a6⟩ := advances_inCycle h.cycle hb (t := 3)
    (r' := { f (s.mem.read s.regs.pc) s.regs with pc := (f (s.mem.read s.regs.pc) s.regs).pc + 1#16 })
    (tmp' := g (s.mem.read s.regs.pc) s.seq.tmp) (a' := s.regs.pc)
    (d' := s.mem.read s.regs.pc) (q' := (false, false, false)) (m' := s.mem) (st' := 4 * j + 3 + 4) (by omega) h.running r5 (.inr rfl) (.inr rfl)
    (by omega) (by omega) (fun l ks hl => by
      rw [State.inCycle_accepted_idle]; simp [laterTick, hl, operandReadTick]; rfl)
  have s2' := s2.trans s1
  refine ⟨w, l6, s6.trans (s5.trans (s4.trans (s3.trans s2'))), fun hall => hw ?_, ?_⟩
  · simp only [List.all_eq_true] at hall ⊢
    exact fun l hl => hall l (s2'.subset hl)
  · have hk : s.totals.ticks + 1#64 + 1#64 + BitVec.ofNat 64 (2 + 2 * w) + 1#64 + 1#64 + 1#64 =
        s.totals.ticks + BitVec.ofNat 64 (7 + 2 * w) := by
      rw [show (1#64 : Counter) = BitVec.ofNat 64 1 from rfl]
      simp only [counter_add]
      congr 2; omega
    have := ((((a1.trans a2).trans a3).trans a4).trans a5).trans a6
    rw [← hs, hk] at this
    exact this

theorem storeByte_wf {c : Config} {m : Memory} (a : Word) (d : Byte) (h : m.wf = true) : (storeByte c m a d).wf = true := by
  unfold storeByte; split
  · exact Memory.wf_write a d h
  · exact h

theorem storeByte_storeByte {c : Config} {m : Memory} (a : Word) (d : Byte) (h : m.wf = true) :
    storeByte c (storeByte c m a d) a d = storeByte c m a d := by
  unfold storeByte
  cases writable c a
  · simp
  · simp [Memory.write_write a d h]

/-- The service during the strobe of a memory write. -/
theorem State.inCycle_service_write (s : State) (r : Regs) (tmp : Byte) (step : Nat) (p : Level) (k : Counter)
    (a : Word) (d : Byte) (m : Memory) (ls : List TickIn) :
    (s.inCycle r tmp step p k a d (true, false, true) m ls).service =
      s.inCycle r tmp step p k a d (true, false, true) (storeByte s.cfg m a d) ls := by
  unfold storeByte
  cases hw : writable s.cfg a <;>
    simp [State.service, State.serviceRead, State.serviceWrite, State.inCycle, hw]

/-- A memory-write cycle up to T4 high: the accumulator is stored at the address in the pair, unless the
address is read-only (40_sequencer R155, 20_memory R76). -/
theorem advances_memoryWrite {e : Entry} {j : Nat} {s : State} {rr : Pair} (h : AtCycle e (.memoryWrite rr) j s)
    (hm : s.mem.wf = true) :
    ∃ (w : Nat) (ls : List TickIn), ls <:+ s.inputs ∧ (s.inputs.all (fun l => !l.wait) = true → w = 0) ∧
      Advances e s 7 (s.inCycle s.regs s.seq.tmp (4 * j + 7) .low
        (s.totals.ticks + BitVec.ofNat 64 (7 + 2 * w)) (s.pair rr) (s.reg8 .a) (false, false, false)
        (storeByte s.cfg s.mem (s.pair rr) (s.reg8 .a)) ls) := by
  have hs := h.inCycle
  have hr := h.noReset
  rw [hs] at hr
  have hb := h.bound
  have hm' := storeByte_wf (c := s.cfg) (s.pair rr) (s.reg8 .a) hm
  have hmm := storeByte_storeByte (c := s.cfg) (s.pair rr) (s.reg8 .a) hm
  obtain ⟨l1, s1, r1, a1⟩ := advances_inCycle h.cycle hb (t := 0) (r' := s.regs) (tmp' := s.seq.tmp) (a' := s.pair rr)
    (d' := s.reg8 .a) (q' := (false, false, false)) (m' := s.mem) (st' := 4 * j + 0 + 4) (by omega) h.running hr (.inl rfl) (.inr rfl)
    (by omega) (by omega) (fun l ks hl => by
      rw [State.inCycle_accepted_idle]; cases rr <;> simp [laterTick, hl, memoryWriteTick] <;> rfl)
  obtain ⟨l2, s2, r2, a2⟩ := advances_inCycle h.cycle hb (t := 0) (r' := s.regs) (tmp' := s.seq.tmp) (a' := s.pair rr)
    (d' := s.reg8 .a) (q' := (true, false, true)) (m' := s.mem) (st' := 4 * j + 1 + 4) (by omega) h.running r1 (.inl rfl) (.inr rfl)
    (by omega) (by omega) (fun l ks hl => by
      rw [State.inCycle_accepted_idle]
      refine Eq.trans ?_ (State.inCycle_nextStep _ _ _ (4 * j + 0 + 4) _ _ _ _ _ _ _)
      simp [laterTick, hl, memoryWriteTick]; rfl)
  obtain ⟨w, l3, s3, hw, r3, a3⟩ := advances_t2_inCycle (d1 := s.reg8 .a)
    (m1 := storeByte s.cfg s.mem (s.pair rr) (s.reg8 .a))
    (r' := s.regs) (tmp' := s.seq.tmp) (a' := s.pair rr) (d' := s.reg8 .a) (q' := (true, false, true))
    (m' := storeByte s.cfg s.mem (s.pair rr) (s.reg8 .a)) h.cycle hb h.running
    (fun p k ls => State.inCycle_service_write ..)
    (fun p k ls => by rw [State.inCycle_service_write, hmm])
    (fun l t hl => by simp [laterTick, memoryWriteTick, hl])
    (fun l t hl hw => by simp [laterTick, memoryWriteTick, hl, hw])
    (fun l k ks hl hw => by
      refine Eq.trans ?_ (State.inCycle_nextStep _ _ _ (4 * j + 1 + 4) _ _ _ _ _ _ _)
      simp [laterTick, memoryWriteTick, hl, hw])
    _ l2 r2
  obtain ⟨l4, s4, r4, a4⟩ := advances_inCycle h.cycle hb (t := 2) (r' := s.regs) (tmp' := s.seq.tmp) (a' := s.pair rr)
    (d' := s.reg8 .a) (q' := (true, false, false)) (m' := storeByte s.cfg s.mem (s.pair rr) (s.reg8 .a))
    (st' := 4 * j + 2 + 4) (by omega) h.running r3 (.inl rfl) (.inl hm')
    (by omega) (by omega) (fun l ks hl => by
      rw [State.inCycle_accepted_write, hmm]; simp [laterTick, hl, memoryWriteTick]; rfl)
  obtain ⟨l5, s5, r5, a5⟩ := advances_inCycle h.cycle hb (t := 2) (r' := s.regs) (tmp' := s.seq.tmp) (a' := s.pair rr)
    (d' := s.reg8 .a) (q' := (false, false, false)) (m' := storeByte s.cfg s.mem (s.pair rr) (s.reg8 .a))
    (st' := 4 * j + 3 + 4) (by omega) h.running r4 (.inr rfl) (.inr rfl)
    (by omega) (by omega) (fun l ks hl => by
      rw [State.inCycle_accepted_released]
      refine Eq.trans ?_ (State.inCycle_nextStep _ _ _ (4 * j + 2 + 4) _ _ _ _ _ _ _)
      simp [laterTick, hl, memoryWriteTick]; rfl)
  obtain ⟨l6, s6, r6, a6⟩ := advances_inCycle h.cycle hb (t := 3) (r' := s.regs) (tmp' := s.seq.tmp) (a' := s.pair rr)
    (d' := s.reg8 .a) (q' := (false, false, false)) (m' := storeByte s.cfg s.mem (s.pair rr) (s.reg8 .a))
    (st' := 4 * j + 3 + 4) (by omega) h.running r5 (.inr rfl) (.inr rfl)
    (by omega) (by omega) (fun l ks hl => by
      rw [State.inCycle_accepted_idle]; simp [laterTick, hl, memoryWriteTick])
  have s2' := s2.trans s1
  refine ⟨w, l6, s6.trans (s5.trans (s4.trans (s3.trans s2'))), fun hall => hw ?_, ?_⟩
  · simp only [List.all_eq_true] at hall ⊢
    exact fun l hl => hall l (s2'.subset hl)
  · have hk : s.totals.ticks + 1#64 + 1#64 + BitVec.ofNat 64 (2 + 2 * w) + 1#64 + 1#64 + 1#64 =
        s.totals.ticks + BitVec.ofNat 64 (7 + 2 * w) := by
      rw [show (1#64 : Counter) = BitVec.ofNat 64 1 from rfl]
      simp only [counter_add]
      congr 2; omega
    have := ((((a1.trans a2).trans a3).trans a4).trans a5).trans a6
    rw [← hs, hk] at this
    exact this

/-- T4 low of the last machine cycle: the completion action (40_sequencer R145). -/
theorem ends_cycle {e : Entry} {c : Cycle} {s : State} {j : Nat} (hc : e.later[j]? = some c) (hj : j < 50)
    (hlast : j + 1 = e.later.length) (he : ∀ t, (e.effect t).seq.ph = t.seq.ph)
    (r : Regs) (tmp : Byte) (k : Counter) (a : Word) (d : Byte) (m : Memory) (ls : List TickIn)
    (hs : s.ctl.stopped = false) (hr : (s.inCycle r tmp (4 * j + 7) .low k a d (false, false, false) m ls).noReset = true) :
    ∃ ks, ks <:+ ls ∧ Ends e (s.inCycle r tmp (4 * j + 7) .low k a d (false, false, false) m ls) 1
      (e.effect (s.inCycle r tmp (4 * j + 7) .high (k + 1#64) a d (false, false, false) m ks)).finish := by
  obtain ⟨-, ks, -, h1, h2⟩ := ends_tick (e := e)
    (s := s.inCycle r tmp (4 * j + 7) .low k a d (false, false, false) m ls)
    (fun _ ks => (e.effect (s.inCycle r tmp (4 * j + 7) .high (k + 1#64) a d (false, false, false) m ks)).finish)
    .ok hs hr (State.service_service (.inr rfl) (.inr rfl))
    (fun l ks hl _ => by
      change l.clk = .low at hl
      rw [State.inCycle_accepted_idle, tickAction_later l hc hj (t := 3) (by omega) rfl]
      simp [laterTick, hl, endCycle, hlast])
    (fun l ks => by simp [endsRun, he, State.inCycle])
  exact ⟨ks, h1, h2⟩

/-- T4 low of a machine cycle that is not the last. -/
theorem advances_cycle {e : Entry} {c : Cycle} {s : State} {j : Nat} (hc : e.later[j]? = some c) (hj : j < 50)
    (hlast : j + 1 ≠ e.later.length) 
    (r : Regs) (tmp : Byte) (k : Counter) (a : Word) (d : Byte) (m : Memory) (ls : List TickIn)
    (hs : s.ctl.stopped = false) (hr : (s.inCycle r tmp (4 * j + 7) .low k a d (false, false, false) m ls).noReset = true) :
    ∃ ks, ks <:+ ls ∧ Advances e (s.inCycle r tmp (4 * j + 7) .low k a d (false, false, false) m ls) 1
      (s.inCycle r tmp (4 * j + 8) .high (k + 1#64) a d (false, false, false) m ks).countCycle := by
  obtain ⟨-, ks, -, h1, h2⟩ := advances_tick_of (e := e)
    (s := s.inCycle r tmp (4 * j + 7) .low k a d (false, false, false) m ls)
    (fun _ ks => (s.inCycle r tmp (4 * j + 8) .high (k + 1#64) a d (false, false, false) m ks).countCycle)
    hs hr (State.service_service (.inr rfl) (.inr rfl))
    (fun l ks hl _ => by
      change l.clk = .low at hl
      rw [State.inCycle_accepted_idle, tickAction_later l hc hj (t := 3) (by omega) rfl]
      simp only [laterTick, hl, endCycle, and_self, if_true, beq_eq_false_iff_ne.mpr hlast, Bool.false_eq_true,
        if_false]
      exact congrArg (fun t => (State.countCycle t, TickResult.ok))
        (State.inCycle_nextStep s r tmp (4 * j + 7) .high (k + 1#64) a d (false, false, false) m ks))
    (fun l ks => by
      rintro ⟨h1, -⟩
      have := congrArg BitVec.toNat h1
      simp only [State.inCycle, State.countCycle, BitVec.toNat_ofNat] at this
      omega)
    (fun l ks => rfl)
  exact ⟨ks, h1, h2⟩

end Sys2Proof.Machine
end

