-- ==== Sys2Proof/Laws/Instructions.lean ====
section
/-!
SUPPORT. Laws/Instructions.lean: the run of a whole table entry, one law per shape, from a fetch to the state the entry
ends in, whatever waits and ignored ticks the schedule holds.
-/

namespace Sys2Proof.Machine

theorem State.ready_iff {s : State} : s.ready = true ↔ s.atFetch = true ∧ s.noReset = true ∧ s.ctl.haltf = false := by
  simp [State.ready, and_assoc]

theorem State.atFetch_stopped {s : State} (h : s.atFetch = true) : s.ctl.stopped = false := by
  simp only [State.atFetch, Bool.and_eq_true, Bool.not_eq_true'] at h
  exact h.1.1.1.2

theorem decodedCtl_stopped (e : Entry) (c : Control) : (e.decodedCtl c).stopped = c.stopped := by
  unfold Entry.decodedCtl; split <;> rfl

theorem State.sample_stopped (l : TickIn) (s : State) : (s.sample l).ctl.stopped = s.ctl.stopped := by
  unfold State.sample
  split
  · split
    · rfl
    · split <;> rfl
  · rfl

/-- An entry with no later machine cycle ends with its dispatch. -/
theorem run_m1 (e : Entry) {s : State} (h : s.ready = true) (hl : e.later = [])
    (hk : s.cfg.policy = .noop ∨ ∀ op, e.kind ≠ .unrecognised op) (he : ∀ t, (e.effect t).seq.ph = t.seq.ph) :
    ∃ (w : Nat) (l : TickIn) (ls : List TickIn), s.mayRead l ∧ ls <:+ s.inputs ∧ (s.noWait = true → w = 0) ∧
      runInstr e s =
        .next (dispatchEntry e (s.afterM1 e l (s.totals.ticks + BitVec.ofNat 64 (8 + 2 * w)) ls)) := by
  obtain ⟨hf, hr, hh⟩ := State.ready_iff.mp h
  obtain ⟨w, l1, s1, hw, a1⟩ := advances_m1 e hf hr hh hk
  have hst : (s.atDispatch e (s.totals.ticks + BitVec.ofNat 64 (7 + 2 * w)) l1).ctl.stopped = false := by
    rw [← State.atFetch_stopped hf]; exact decodedCtl_stopped e s.ctl
  obtain ⟨l, l2, hfrom, s2, a2⟩ := ends_tick (e := e)
    (fun l ls => dispatchEntry e (s.afterM1 e l (s.totals.ticks + BitVec.ofNat 64 (8 + 2 * w)) ls)) .ok hst
    (noReset_of_suffix hr s1) (State.service_service (.inr rfl) (.inr rfl))
    (fun l ls hl _ => by
      rw [tickAction_m1T4 e s _ l ls l1 hl, show (1#64 : Counter) = BitVec.ofNat 64 1 from rfl, counter_add]
      rw [show 7 + 2 * w + 1 = 8 + 2 * w by omega])
    (fun l ls => by
      unfold dispatchEntry
      cases hkk : e.kind <;> simp [endsRun, hl, he, State.afterM1, State.setPendingByte, State.countCycle])
  refine ⟨w, l, l2, ?_, s2.trans s1, hw, runInstr_of_ends (a1.ends a2) (by simp [Entry.cycles, hl])⟩
  rcases hfrom with hc | hc
  · exact .inl hc
  · exact .inr (s1.subset hc)

/-- An entry with later machine cycles goes on to the first of them. -/
theorem advances_to_later (e : Entry) {s : State} (h : s.ready = true) {c : Cycle} (hl : e.later[0]? = some c)
    (hk : e.kind = .instruction) :
    ∃ (w : Nat) (l : TickIn) (ls : List TickIn) (t : State), s.mayRead l ∧ ls <:+ s.inputs ∧
      (s.noWait = true → w = 0) ∧ Advances e s 8 t ∧ AtCycle e c 0 t ∧
      t = { s.afterM1 e l (s.totals.ticks + BitVec.ofNat 64 (8 + 2 * w)) ls with
            seq.step := 4#8, totals.mcycles := s.totals.mcycles + 1#64 } := by
  obtain ⟨hf, hr, hh⟩ := State.ready_iff.mp h
  obtain ⟨w, l1, s1, hw, a1⟩ := advances_m1 e hf hr hh (.inr (by rw [hk]; simp))
  have hst : (s.atDispatch e (s.totals.ticks + BitVec.ofNat 64 (7 + 2 * w)) l1).ctl.stopped = false := by
    rw [← State.atFetch_stopped hf]; exact decodedCtl_stopped e s.ctl
  have hne : e.later.isEmpty = false := by
    cases hll : e.later with
    | nil => rw [hll] at hl; simp at hl
    | cons _ _ => rfl
  obtain ⟨l, l2, hfrom, s2, a2⟩ := advances_tick_of (e := e)
    (fun l ls => { s.afterM1 e l (s.totals.ticks + BitVec.ofNat 64 (8 + 2 * w)) ls with
            seq.step := 4#8, totals.mcycles := s.totals.mcycles + 1#64 }) hst
    (noReset_of_suffix hr s1) (State.service_service (.inr rfl) (.inr rfl))
    (fun l ls hl _ => by
      rw [tickAction_m1T4 e s _ l ls l1 hl, show (1#64 : Counter) = BitVec.ofNat 64 1 from rfl, counter_add]
      rw [show 7 + 2 * w + 1 = 8 + 2 * w by omega]
      simp only [dispatchEntry, hk, hne]
      rfl)
    (fun l ls => by simp)
    (fun l ls => rfl)
  refine ⟨w, l, l2, _, ?_, s2.trans s1, hw, a1.trans a2, ?_, rfl⟩
  · rcases hfrom with hc | hc
    · exact .inl hc
    · exact .inr (s1.subset hc)
  · refine ⟨hl, by omega, rfl, rfl, rfl, ?_, noReset_of_suffix hr (s2.trans s1)⟩
    change (e.decodedCtl (s.sample l).ctl).stopped = false
    rw [decodedCtl_stopped, State.sample_stopped, State.atFetch_stopped hf]

/-! ### Effects on the register file -/

/-- The register file after the opcode fetch: `PC` past the opcode byte, `R` stepped (10_state R26, R28). -/
def Regs.fetched (r : Regs) : Regs := { r with pc := r.pc + 1#16, r := refreshNext r.r }

/-- What a state update that writes registers only does to the register file. -/
def onRegs (f : State → State) (r : Regs) : Regs := (f { State.reset with regs := r }).regs

theorem setReg8_eq (r : Reg8) (v : Byte) (s : State) :
    s.setReg8 r v = { s with regs := onRegs (State.setReg8 r v) s.regs } := by
  cases r <;> rfl

theorem setPair_eq (p : Pair) (v : Word) (s : State) :
    s.setPair p v = { s with regs := onRegs (State.setPair p v) s.regs } := by
  cases p <;> rfl

theorem setPairLow_eq (p : Pair) (v : Byte) (s : State) :
    s.setPairLow p v = { s with regs := onRegs (State.setPairLow p v) s.regs } := by
  cases p <;> rfl

theorem setPairHigh_eq (p : Pair) (v : Byte) (s : State) :
    s.setPairHigh p v = { s with regs := onRegs (State.setPairHigh p v) s.regs } := by
  cases p <;> rfl

theorem incReg8_eq (r : Reg8) (s : State) :
    s.incReg8 r = { s with regs := onRegs (State.incReg8 r) s.regs } := by
  cases r <;> rfl

theorem decReg8_eq (r : Reg8) (s : State) :
    s.decReg8 r = { s with regs := onRegs (State.decReg8 r) s.regs } := by
  cases r <;> rfl

theorem incPair_eq (p : Pair) (s : State) :
    s.incPair p = { s with regs := onRegs (State.incPair p) s.regs } := by
  cases p <;> rfl

theorem decPair_eq (p : Pair) (s : State) :
    s.decPair p = { s with regs := onRegs (State.decPair p) s.regs } := by
  cases p <;> rfl

theorem rotateA_eq (s : State) : s.rotateA = { s with regs := onRegs State.rotateA s.regs } := rfl

theorem exchangeAf_eq (s : State) : s.exchangeAf = { s with regs := onRegs State.exchangeAf s.regs } := rfl

theorem addPair_eq (dd ss : Pair) (s : State) :
    s.addPair dd ss = { s with regs := onRegs (State.addPair dd ss) s.regs } := by
  cases dd <;> cases ss <;> rfl

/-! ### A register update before and after the opcode fetch -/

theorem onRegs_incReg8_fetched (r : Reg8) (s : State) :
    onRegs (State.incReg8 r) s.regs.fetched = (s.incReg8 r).regs.moved 1 s := by
  cases r <;> rfl

theorem onRegs_decReg8_fetched (r : Reg8) (s : State) :
    onRegs (State.decReg8 r) s.regs.fetched = (s.decReg8 r).regs.moved 1 s := by
  cases r <;> rfl

theorem onRegs_incPair_fetched (p : Pair) (s : State) :
    onRegs (State.incPair p) s.regs.fetched = (s.incPair p).regs.moved 1 s := by
  cases p <;> rfl

theorem onRegs_decPair_fetched (p : Pair) (s : State) :
    onRegs (State.decPair p) s.regs.fetched = (s.decPair p).regs.moved 1 s := by
  cases p <;> rfl

theorem onRegs_addPair_fetched (dd ss : Pair) (s : State) :
    onRegs (State.addPair dd ss) s.regs.fetched = (s.addPair dd ss).regs.moved 1 s := by
  cases dd <;> cases ss <;> rfl

/-! ### Entries of one machine cycle -/

/-- The run of a one-cycle instruction whose effect is `g` on the register file. -/
theorem run_oneCycle {f : State → State} (g : Regs → Regs) (hf : ∀ u, f u = { u with regs := g u.regs }) {s : State}
    (h : s.ready = true) :
    ∃ l t, runInstr (oneCycle f) s = .next t ∧ Completed 1 l s t ∧ t.regs = g s.regs.fetched ∧ t.mem = s.mem ∧
      t.seq.tmp = s.seq.tmp ∧ t.bus.addr = joinBytes s.regs.i s.regs.r ∧ t.bus.data = s.mem.read s.regs.pc := by
  obtain ⟨w, l, ls, h1, h2, h3, h4⟩ := run_m1 (oneCycle f) h rfl (.inr (by simp [oneCycle]))
    (fun t => by change (f t).seq.ph = _; rw [hf])
  refine ⟨l, _, h4, ?_, ?_⟩
  · simp only [dispatchEntry, oneCycle, List.isEmpty_nil, if_true, hf]
    exact { step := rfl, phase := rfl, lines := rfl, busack := rfl, cycles := rfl, ticks := ⟨w, rfl, h3⟩, params := rfl,
            schedule := h2, levels := h1, control := rfl, halt := rfl,
            opacc := by simp [State.finish, State.countCycle, State.afterM1], instrs := rfl }
  · simp only [dispatchEntry, oneCycle, List.isEmpty_nil, if_true, hf]
    exact ⟨rfl, rfl, rfl, rfl, rfl⟩

/-- The run of `HALT` (41_nop_halt_prefix R181). -/
theorem run_halt {s : State} (h : s.ready = true) :
    ∃ l t, runInstr entryHalt s = .next t ∧ Settled 1 s t ∧ s.mayRead l ∧
      t.ctl = { (s.sample l).ctl with haltf := true } ∧ t.bus.halt = true ∧
      t.seq.opacc = joinBytes 0x00#8 (s.mem.read s.regs.pc) ∧ t.totals.instrs = s.totals.instrs + 1#64 ∧
      t.regs = s.regs.fetched ∧ t.mem = s.mem ∧
      t.seq.tmp = s.seq.tmp ∧ t.bus.addr = joinBytes s.regs.i s.regs.r ∧ t.bus.data = s.mem.read s.regs.pc := by
  obtain ⟨w, l, ls, h1, h2, h3, h4⟩ := run_m1 entryHalt h rfl (.inr (by simp [entryHalt, oneCycle])) (fun t => rfl)
  refine ⟨l, _, h4, ?_, h1, rfl, rfl, ?_, rfl, rfl, rfl, rfl, rfl, rfl⟩
  · exact { step := rfl, phase := rfl, lines := rfl, busack := rfl, cycles := rfl, ticks := ⟨w, rfl, h3⟩, params := rfl,
            schedule := h2 }
  · simp [dispatchEntry, entryHalt, oneCycle, State.finish, State.countCycle, State.afterM1, State.enterHalt]

/-- The run of a prefix byte (40_sequencer R147). -/
theorem run_pending (e : Entry) (hk : e.kind = .pendingByte) (hl : e.later = []) (he : e.effect = id) {s : State}
    (h : s.ready = true) :
    ∃ l t, runInstr e s = .next t ∧ Settled 1 s t ∧ s.mayRead l ∧
      t.ctl = (s.sample l).ctl ∧ t.bus.halt = (s.sample l).bus.halt ∧
      t.seq.opacc = joinBytes (s.mem.read s.regs.pc) (s.mem.read s.regs.pc) ∧ t.totals.instrs = s.totals.instrs ∧
      t.regs = s.regs.fetched ∧ t.mem = s.mem ∧
      t.seq.tmp = s.seq.tmp ∧ t.bus.addr = joinBytes s.regs.i s.regs.r ∧ t.bus.data = s.mem.read s.regs.pc := by
  obtain ⟨w, l, ls, h1, h2, h3, h4⟩ := run_m1 e h hl (.inr (by simp [hk])) (fun t => by rw [he]; rfl)
  refine ⟨l, _, h4, ?_⟩
  simp only [dispatchEntry, hk]
  refine ⟨?_, h1, ?_, rfl, ?_, rfl, rfl, rfl, rfl, rfl, rfl⟩
  · exact { step := rfl, phase := rfl, lines := rfl, busack := rfl, cycles := rfl, ticks := ⟨w, rfl, h3⟩, params := rfl,
            schedule := h2 }
  · simp [State.setPendingByte, State.countCycle, State.afterM1, Entry.decodedCtl, hk]
  · simp [State.setPendingByte, State.countCycle, State.afterM1]

/-- The run of an unrecognised opcode under `noop` (41_nop_halt_prefix R184). -/
theorem run_unrecognised (op : Word) {s : State} (h : s.ready = true) (hp : s.cfg.policy = .noop) :
    ∃ l t, runInstr (entryUnrecognised op) s = .next t ∧ Settled 1 s t ∧ s.mayRead l ∧
      t.ctl = { (s.sample l).ctl with unsup := true, unsupOp := op } ∧ t.bus.halt = (s.sample l).bus.halt ∧
      t.seq.opacc = joinBytes 0x00#8 (s.mem.read s.regs.pc) ∧ t.totals.instrs = s.totals.instrs + 1#64 ∧
      t.regs = s.regs.fetched ∧ t.mem = s.mem ∧
      t.seq.tmp = s.seq.tmp ∧ t.bus.addr = joinBytes s.regs.i s.regs.r ∧ t.bus.data = s.mem.read s.regs.pc := by
  obtain ⟨w, l, ls, h1, h2, h3, h4⟩ := run_m1 (entryUnrecognised op) h rfl (.inl hp) (fun t => rfl)
  refine ⟨l, _, h4, ?_, h1, rfl, rfl, ?_, rfl, rfl, rfl, rfl, rfl, rfl⟩
  · exact { step := rfl, phase := rfl, lines := rfl, busack := rfl, cycles := rfl, ticks := ⟨w, rfl, h3⟩, params := rfl,
            schedule := h2 }
  · simp [dispatchEntry, entryUnrecognised, State.finish, State.countCycle, State.afterM1]

/-! ### Entries of two and three machine cycles -/

/-- A run that has come to T4 low of a machine cycle goes on to the beginning of the next. -/
theorem AtCycle.next {e : Entry} {c c' : Cycle} {j b : Nat} {s : State} (h : AtCycle e c j s)
    (hc : e.later[j + 1]? = some c') (hb : j + 1 < 50) {r : Regs} {tmp : Byte} {k : Counter} {a : Word} {d : Byte} {m : Memory}
    {ls : List TickIn} (hls : ls <:+ s.inputs)
    (hrun : Advances e s b (s.inCycle r tmp (4 * j + 7) .low k a d (false, false, false) m ls)) :
    ∃ ks t, ks <:+ ls ∧ Advances e s (b + 1) t ∧ AtCycle e c' (j + 1) t ∧
      t = (s.inCycle r tmp (4 * j + 8) .high (k + 1#64) a d (false, false, false) m ks).countCycle := by
  have hlast : j + 1 ≠ e.later.length := by
    intro hcon
    rw [List.getElem?_eq_none (by omega)] at hc
    exact absurd hc (by simp)
  obtain ⟨ks, h1, h2⟩ := advances_cycle h.cycle h.bound hlast r tmp k a d m ls h.running (noReset_of_suffix h.noReset hls)
  exact ⟨ks, _, h1, hrun.trans h2, ⟨hc, hb, rfl, rfl, rfl, h.running, noReset_of_suffix h.noReset (h1.trans hls)⟩, rfl⟩

theorem noWait_of_suffix {s : State} {ls : List TickIn} (h : s.noWait = true) (hs : ls <:+ s.inputs) :
    ls.all (fun l => !l.wait) = true := by
  simp only [State.noWait, List.all_eq_true] at h ⊢
  exact fun l hl => h l (hs.subset hl)

/-- The run of a 16-bit add (45_add16 R270). -/
theorem run_add (dd ss : Pair) {s : State} (h : s.ready = true) :
    ∃ (l : TickIn) (t : State), runInstr (addEntry dd ss) s = .next t ∧ Completed 3 l s t ∧
      t.regs = onRegs (State.addPair dd ss) s.regs.fetched ∧ t.mem = s.mem ∧
      t.seq.tmp = s.seq.tmp ∧ t.bus.addr = joinBytes s.regs.i s.regs.r ∧ t.bus.data = s.mem.read s.regs.pc := by
  obtain ⟨w, l, l1, t1, hl, s1, hw, a1, at1, e1⟩ := advances_to_later (addEntry dd ss) h (c := .internal) rfl rfl
  obtain ⟨l2, s2, a2⟩ := advances_internal at1
  obtain ⟨l3, t2, s3, a3, at2, e2⟩ := at1.next (c' := .internal) rfl (by omega) s2 a2
  obtain ⟨l4, s4, a4⟩ := advances_internal at2
  have he : ∀ u : State, (u.addPair dd ss).seq = u.seq := by
    intro u; unfold State.addPair; rw [State.setFlags_seq, State.setPair_seq]
  obtain ⟨l5, s5, a5⟩ := ends_cycle (e := addEntry dd ss) at2.cycle at2.bound rfl
    (fun u => by change (State.addPair dd ss u).seq.ph = _; rw [he]) t2.regs t2.seq.tmp
    (t2.totals.ticks + BitVec.ofNat 64 7) t2.bus.addr t2.bus.data t2.mem l4 at2.running (noReset_of_suffix at2.noReset s4)
  have hend := a1.ends (a3.ends (a4.ends a5))
  have hin : t1.inputs = l1 := by rw [e1]; rfl
  have hin2 : t2.inputs = l3 := by rw [e2]; rfl
  refine ⟨l, _, runInstr_of_ends hend (by simp [Entry.cycles, addEntry]), ?_, ?_⟩
  · have hsuf : l5 <:+ s.inputs := by
      rw [hin] at s2; rw [hin2] at s4
      exact s5.trans (s4.trans (s3.trans (s2.trans s1)))
    have hx : ∀ u : State, ((addEntry dd ss).effect u).seq = u.seq ∧ ((addEntry dd ss).effect u).ctl = u.ctl ∧
        ((addEntry dd ss).effect u).bus = u.bus ∧ ((addEntry dd ss).effect u).totals = u.totals ∧
        ((addEntry dd ss).effect u).cfg = u.cfg ∧ ((addEntry dd ss).effect u).inputs = u.inputs := by
      intro u
      simp [addEntry, State.addPair]
    have hx' := fun u => (hx u).2
    simp only [forall_and] at hx'
    obtain ⟨hxc, hxb, hxt, hxg, hxi⟩ := hx'
    have hxs := fun u => (hx u).1
    subst e2
    subst e1
    exact {
      step := rfl
      phase := by simp [hxs, State.inCycle]
      lines := by simp [hxb, Bus.quiet, State.inCycle]
      busack := by simp [hxb, State.inCycle, State.countCycle, State.afterM1]
      cycles := by
        simp only [State.finish_totals, hxt, State.inCycle, State.countCycle, State.afterM1, counter_add]
      ticks := ⟨w, by
        simp only [State.finish_totals, hxt, State.inCycle, State.countCycle, State.afterM1, counter_add]
        congr 2
        omega, hw⟩
      params := by simp [hxg, State.inCycle, State.countCycle, State.afterM1]
      schedule := by simpa [hxi, State.inCycle] using hsuf
      levels := hl
      control := hxc _
      halt := by simp [hxb, State.inCycle, State.countCycle, State.afterM1]
      opacc := by simp [hxs, State.inCycle, State.countCycle, State.afterM1]
      instrs := by simp [hxt, State.inCycle, State.countCycle, State.afterM1] }
  · subst e2
    subst e1
    refine ⟨?_, ?_, ?_, ?_, ?_⟩
    · change (State.addPair dd ss _).regs = _
      rw [addPair_eq]
      rfl
    · change (State.addPair dd ss _).mem = _
      simp [State.addPair, State.inCycle, State.countCycle, State.afterM1]
    · change (State.addPair dd ss _).seq.tmp = _
      simp [State.addPair, State.inCycle, State.countCycle, State.afterM1]
    · change (State.addPair dd ss _).bus.addr = _
      simp [State.addPair, State.inCycle, State.countCycle, State.afterM1]
    · change (State.addPair dd ss _).bus.data = _
      simp [State.addPair, State.inCycle, State.countCycle, State.afterM1]

theorem entry_effect_id {e : Entry} (h : e.effect = id) (s : State) : (e.effect s).seq.ph = s.seq.ph := by rw [h]; rfl

/-- The run of `LD r,n` (42_loads R200). -/
theorem run_loadReg8 (r : Reg8) (n : Byte) {s : State} (h : s.ready = true) :
    ∃ (l : TickIn) (t : State), runInstr ((loadReg8Entry r).withOperands [n]) s = .next t ∧ Completed 2 l s t ∧
      t.regs = { onRegs (State.setReg8 r n) s.regs.fetched with pc := s.regs.pc + 2#16 } ∧ t.mem = s.mem ∧
      t.seq.tmp = s.seq.tmp ∧ t.bus.addr = s.regs.pc + 1#16 ∧ t.bus.data = s.mem.read (s.regs.pc + 1#16) := by
  generalize he : (loadReg8Entry r).withOperands [n] = e
  have hlater : e.later = [.operandRead (fun _ s => State.setReg8 r n s)] := by subst he; rfl
  have heff : e.effect = id := by subst he; rfl
  obtain ⟨w, l, l1, t1, hl, s1, hw, a1, at1, e1⟩ := advances_to_later e h
    (c := .operandRead (fun _ s => State.setReg8 r n s)) (by rw [hlater]; rfl) (by subst he; rfl)
  obtain ⟨w2, l2, s2, hw2, a2⟩ := advances_operandRead (fun _ => onRegs (State.setReg8 r n)) (fun _ v => v)
    (fun d s => setReg8_eq r n s) at1
  obtain ⟨l3, s3, a3⟩ := ends_cycle (e := e) at1.cycle at1.bound (by rw [hlater]; rfl)
    (entry_effect_id heff) _ _ _ _ _ _ l2 at1.running (noReset_of_suffix at1.noReset s2)
  have hend := a1.ends (a2.ends a3)
  have hin : t1.inputs = l1 := by rw [e1]; rfl
  rw [hin] at s2 hw2
  have hpc : ∀ ρ : Regs, (onRegs (State.setReg8 r n) ρ).pc = ρ.pc := by intro ρ; cases r <;> rfl
  have hp2 : s.regs.pc + 1#16 + 1#16 = s.regs.pc + 2#16 := by rw [BitVec.add_assoc]; rfl
  refine ⟨l, _, runInstr_of_ends hend (by simp [Entry.cycles, hlater]), ?_, ?_⟩
  · have hsuf := s3.trans (s2.trans s1)
    have hkk : e.kind = .instruction := by subst he; rfl
    rw [heff]
    subst e1
    exact {
      step := rfl
      phase := rfl
      lines := rfl
      busack := rfl
      cycles := by
        simp only [State.finish_totals, id, State.inCycle, State.afterM1, counter_add]
      ticks := ⟨w + w2, by
        simp only [State.finish_totals, id, State.inCycle, State.afterM1, counter_add]
        congr 2
        omega, fun hn => by rw [hw hn, hw2 (noWait_of_suffix hn s1)]⟩
      params := rfl
      schedule := hsuf
      levels := hl
      control := by simp only [State.finish_ctl, id, State.inCycle, State.afterM1, Entry.decodedCtl, hkk]
      halt := rfl
      opacc := by simp [State.inCycle, State.afterM1]
      instrs := rfl }
  · rw [heff]
    subst e1
    refine ⟨?_, rfl, rfl, rfl, rfl⟩
    simp only [State.finish_regs, id, State.inCycle, hpc]
    rw [← hp2]
    rfl

/-- The run of `LD (rr),A` (42_loads R210). -/
theorem run_store (rr : Pair) {s : State} (h : s.ready = true) (hm : s.mem.wf = true) :
    ∃ (l : TickIn) (t : State), runInstr (storeEntry rr) s = .next t ∧ Completed 2 l s t ∧
      t.regs = s.regs.fetched ∧ t.mem = storeByte s.cfg s.mem (s.pair rr) (s.reg8 .a) ∧
      t.seq.tmp = s.seq.tmp ∧ t.bus.addr = s.pair rr ∧ t.bus.data = s.reg8 .a := by
  generalize he : storeEntry rr = e
  have hlater : e.later = [.memoryWrite rr] := by subst he; rfl
  have heff : e.effect = id := by subst he; rfl
  obtain ⟨w, l, l1, t1, hl, s1, hw, a1, at1, e1⟩ := advances_to_later e h
    (c := .memoryWrite rr) (by rw [hlater]; rfl) (by subst he; rfl)
  obtain ⟨w2, l2, s2, hw2, a2⟩ := advances_memoryWrite at1 (by rw [e1]; exact hm)
  obtain ⟨l3, s3, a3⟩ := ends_cycle (e := e) at1.cycle at1.bound (by rw [hlater]; rfl)
    (entry_effect_id heff) _ _ _ _ _ _ l2 at1.running (noReset_of_suffix at1.noReset s2)
  have hend := a1.ends (a2.ends a3)
  have hin : t1.inputs = l1 := by rw [e1]; rfl
  rw [hin] at s2 hw2
  have hpair : t1.pair rr = s.pair rr := by rw [e1]; cases rr <;> rfl
  have hreg : t1.reg8 .a = s.reg8 .a := by rw [e1]; rfl
  have hcfg : t1.cfg = s.cfg := by rw [e1]; rfl
  have hmem : t1.mem = s.mem := by rw [e1]; rfl
  rw [hpair, hreg, hcfg, hmem] at hend
  refine ⟨l, _, runInstr_of_ends hend (by simp [Entry.cycles, hlater]), ?_, ?_⟩
  · have hsuf := s3.trans (s2.trans s1)
    have hkk : e.kind = .instruction := by subst he; rfl
    rw [heff]
    subst e1
    exact {
      step := rfl
      phase := rfl
      lines := rfl
      busack := rfl
      cycles := by
        simp only [State.finish_totals, id, State.inCycle, State.afterM1, counter_add]
      ticks := ⟨w + w2, by
        simp only [State.finish_totals, id, State.inCycle, State.afterM1, counter_add]
        congr 2
        omega, fun hn => by rw [hw hn, hw2 (noWait_of_suffix hn s1)]⟩
      params := rfl
      schedule := hsuf
      levels := hl
      control := by simp only [State.finish_ctl, id, State.inCycle, State.afterM1, Entry.decodedCtl, hkk]
      halt := rfl
      opacc := by simp [State.inCycle, State.afterM1]
      instrs := rfl }
  · rw [heff]
    subst e1
    exact ⟨rfl, rfl, rfl, rfl, rfl⟩

/-- The run of `LD rr,nn` (42_loads R190). -/
theorem run_loadPair (rr : Pair) (lo hi : Byte) {s : State} (h : s.ready = true) :
    ∃ (l : TickIn) (t : State), runInstr ((loadPairEntry rr).withOperands [lo, hi]) s = .next t ∧ Completed 3 l s t ∧
      t.regs = { onRegs (State.setPair rr (joinBytes hi lo)) s.regs.fetched with pc := s.regs.pc + 3#16 } ∧
      t.mem = s.mem ∧ t.seq.tmp = lo ∧ t.bus.addr = s.regs.pc + 2#16 ∧
      t.bus.data = s.mem.read (s.regs.pc + 2#16) := by
  generalize he : (loadPairEntry rr).withOperands [lo, hi] = e
  have hlater : e.later = [.operandRead (fun _ s => latchLow rr lo s), .operandRead (fun _ s => latchHigh rr hi s)] := by
    subst he; rfl
  have heff : e.effect = id := by subst he; rfl
  obtain ⟨w, l, l1, t1, hl, s1, hw, a1, at1, e1⟩ := advances_to_later e h
    (c := .operandRead (fun _ s => latchLow rr lo s)) (by rw [hlater]; rfl) (by subst he; rfl)
  obtain ⟨w2, l2, s2, hw2, a2⟩ := advances_operandRead (fun _ => onRegs (State.setPairLow rr lo)) (fun _ _ => lo)
    (fun d s => by simp only [latchLow, setPairLow_eq]) at1
  obtain ⟨l3, t2, s3, a3, at2, e2⟩ := at1.next (c' := .operandRead (fun _ s => latchHigh rr hi s)) (by rw [hlater]; rfl)
    (by omega) s2 a2
  obtain ⟨w4, l4, s4, hw4, a4⟩ := advances_operandRead (fun _ => onRegs (State.setPairHigh rr hi)) (fun _ v => v)
    (fun d s => setPairHigh_eq rr hi s) at2
  obtain ⟨l5, s5, a5⟩ := ends_cycle (e := e) at2.cycle at2.bound (by rw [hlater]; rfl)
    (entry_effect_id heff) _ _ _ _ _ _ l4 at2.running (noReset_of_suffix at2.noReset s4)
  have hend := a1.ends (a3.ends (a4.ends a5))
  have hin : t1.inputs = l1 := by rw [e1]; rfl
  have hin2 : t2.inputs = l3 := by rw [e2]; rfl
  rw [hin] at s2 hw2
  rw [hin2] at s4 hw4
  have hpc : ∀ ρ : Regs, (onRegs (State.setPairLow rr lo) ρ).pc = ρ.pc := by intro ρ; cases rr <;> rfl
  have hpc' : ∀ ρ : Regs, (onRegs (State.setPairHigh rr hi) ρ).pc = ρ.pc := by intro ρ; cases rr <;> rfl
  refine ⟨l, _, runInstr_of_ends hend (by simp [Entry.cycles, hlater]), ?_, ?_⟩
  · have hsuf := s5.trans (s4.trans (s3.trans (s2.trans s1)))
    have hkk : e.kind = .instruction := by subst he; rfl
    rw [heff]
    subst e2
    subst e1
    exact {
      step := rfl
      phase := rfl
      lines := rfl
      busack := rfl
      cycles := by
        simp only [State.finish_totals, id, State.inCycle, State.afterM1, State.countCycle, counter_add]
      ticks := ⟨w + w2 + w4, by
        simp only [State.finish_totals, id, State.inCycle, State.afterM1, State.countCycle, counter_add]
        congr 2
        omega, fun hn => by
          rw [hw hn, hw2 (noWait_of_suffix hn s1), hw4 (noWait_of_suffix hn (s3.trans (s2.trans s1)))]⟩
      params := rfl
      schedule := hsuf
      levels := hl
      control := by
        simp only [State.finish_ctl, id, State.inCycle, State.afterM1, State.countCycle, Entry.decodedCtl, hkk]
      halt := rfl
      opacc := by simp [State.inCycle, State.afterM1, State.countCycle]
      instrs := rfl }
  · rw [heff]
    subst e2
    subst e1
    have h1 : s.regs.pc + 1#16 + 1#16 = s.regs.pc + 2#16 := by rw [BitVec.add_assoc]; rfl
    have h2 : s.regs.pc + 2#16 + 1#16 = s.regs.pc + 3#16 := by rw [BitVec.add_assoc]; rfl
    refine ⟨?_, rfl, rfl, ?_, ?_⟩
    · simp only [State.finish_regs, id, State.inCycle, State.countCycle, State.afterM1, hpc, hpc', h1, h2, Regs.fetched]
      cases rr <;>
        simp [onRegs, State.setPairHigh, State.setPairLow, State.setPair, State.pairLow, State.pairHigh, State.pair]
    · simp [State.inCycle, State.countCycle, State.afterM1, hpc, h1]
    · simp [State.inCycle, State.countCycle, State.afterM1, hpc, h1]

end Sys2Proof.Machine
end

