-- ==== Sys2Proof/Laws/PerInstr.lean ====
section
/-!
SUPPORT. Laws/PerInstr.lean: the statements made once per instruction. `Lookup`: the opcode table gives back the
instruction from its own effective opcode and operand bytes (30_encoding R108).
-/

namespace Sys2Proof

/-- The table's keys are the opcodes that `WellFormed` lists (30_encoding R108). -/
theorem opcodeTable_keys :
    opcodeTable.map TableRow.op = tableOpcodesPlain ++ tableOpcodesIx ++ tableOpcodesIy := by
  decide

/-- No key stands twice: decoding is unambiguous. -/
theorem opcodeTable_nodup : (opcodeTable.map TableRow.op).Nodup := by
  decide

/-- An effective opcode without an entry finds no row. -/
theorem find_none_of_not_entry {op : Word} (h : isTableOpcode op = false) :
    opcodeTable.find? (fun r => r.op == op) = none := by
  rw [List.find?_eq_none]
  intro r hr hop
  have hmem : op ∈ opcodeTable.map TableRow.op :=
    List.mem_map.mpr ⟨r, hr, by simpa using hop⟩
  rw [opcodeTable_keys] at hmem
  simp only [isTableOpcode, Bool.or_eq_false_iff, List.contains_eq_mem, decide_eq_false_iff_not] at h
  simp only [List.mem_append] at hmem
  tauto

/-- An effective opcode with an entry finds a row that carries it. -/
theorem find_some_of_entry {op : Word} (h : isTableOpcode op = true) :
    ∃ r ∈ opcodeTable, r.op = op ∧ opcodeTable.find? (fun r => r.op == op) = some r := by
  have hmem : op ∈ opcodeTable.map TableRow.op := by
    rw [opcodeTable_keys]
    simp only [isTableOpcode, Bool.or_eq_true, List.contains_eq_mem, decide_eq_true_eq] at h
    simp only [List.mem_append]
    tauto
  obtain ⟨r, hr, hop⟩ := List.mem_map.mp hmem
  cases hf : opcodeTable.find? (fun r => r.op == op) with
  | none => exact absurd hop (by simpa using (List.find?_eq_none.mp hf) r hr)
  | some q => exact ⟨q, List.mem_of_find?_eq_some hf, by simpa using List.find?_some hf, rfl⟩

theorem lookup_of_not_entry {op : Word} (h : isTableOpcode op = false) (b1 b2 : Byte) :
    lookup op b1 b2 = .unrecognised op := by
  simp [lookup, find_none_of_not_entry h]

namespace Laws.Lookup

/-- The table gives back the instruction from its effective opcode and operand bytes. -/
def Statement (i : Instr) : Prop :=
  i.wellFormed = true → lookup i.opcode (i.operands.getD 0 0#8) (i.operands.getD 1 0#8) = i

theorem nop : Statement .nop := fun _ => rfl

theorem ldBcNn (nn : Word) : Statement (.ldBcNn nn) := fun _ =>
  congrArg Instr.ldBcNn (joinBytes_hiByte_loByte nn)

theorem ldAtBcA : Statement .ldAtBcA := fun _ => rfl

theorem incBc : Statement .incBc := fun _ => rfl

theorem incB : Statement .incB := fun _ => rfl

theorem decB : Statement .decB := fun _ => rfl

theorem ldBN (n : Byte) : Statement (.ldBN n) := fun _ => rfl

theorem rlca : Statement .rlca := fun _ => rfl

theorem exAfAf : Statement .exAfAf := fun _ => rfl

theorem addHlBc : Statement .addHlBc := fun _ => rfl

theorem decBc : Statement .decBc := fun _ => rfl

theorem incC : Statement .incC := fun _ => rfl

theorem decC : Statement .decC := fun _ => rfl

theorem ldCN (n : Byte) : Statement (.ldCN n) := fun _ => rfl

theorem ldDeNn (nn : Word) : Statement (.ldDeNn nn) := fun _ =>
  congrArg Instr.ldDeNn (joinBytes_hiByte_loByte nn)

theorem ldAtDeA : Statement .ldAtDeA := fun _ => rfl

theorem incDe : Statement .incDe := fun _ => rfl

theorem incD : Statement .incD := fun _ => rfl

theorem decD : Statement .decD := fun _ => rfl

theorem ldDN (n : Byte) : Statement (.ldDN n) := fun _ => rfl

theorem addHlDe : Statement .addHlDe := fun _ => rfl

theorem decDe : Statement .decDe := fun _ => rfl

theorem incE : Statement .incE := fun _ => rfl

theorem decE : Statement .decE := fun _ => rfl

theorem ldEN (n : Byte) : Statement (.ldEN n) := fun _ => rfl

theorem ldHlNn (nn : Word) : Statement (.ldHlNn nn) := fun _ =>
  congrArg Instr.ldHlNn (joinBytes_hiByte_loByte nn)

theorem incHl : Statement .incHl := fun _ => rfl

theorem incH : Statement .incH := fun _ => rfl

theorem decH : Statement .decH := fun _ => rfl

theorem ldHN (n : Byte) : Statement (.ldHN n) := fun _ => rfl

theorem addHlHl : Statement .addHlHl := fun _ => rfl

theorem decHl : Statement .decHl := fun _ => rfl

theorem incL : Statement .incL := fun _ => rfl

theorem decL : Statement .decL := fun _ => rfl

theorem ldLN (n : Byte) : Statement (.ldLN n) := fun _ => rfl

theorem ldSpNn (nn : Word) : Statement (.ldSpNn nn) := fun _ =>
  congrArg Instr.ldSpNn (joinBytes_hiByte_loByte nn)

theorem incSp : Statement .incSp := fun _ => rfl

theorem addHlSp : Statement .addHlSp := fun _ => rfl

theorem decSp : Statement .decSp := fun _ => rfl

theorem incA : Statement .incA := fun _ => rfl

theorem decA : Statement .decA := fun _ => rfl

theorem ldAN (n : Byte) : Statement (.ldAN n) := fun _ => rfl

theorem halt : Statement .halt := fun _ => rfl

theorem ldAtHlA : Statement .ldAtHlA := fun _ => rfl

theorem prefixIx : Statement .prefixIx := fun _ => rfl

theorem prefixIy : Statement .prefixIy := fun _ => rfl

theorem addIxBc : Statement .addIxBc := fun _ => rfl

theorem addIxDe : Statement .addIxDe := fun _ => rfl

theorem ldIxNn (nn : Word) : Statement (.ldIxNn nn) := fun _ =>
  congrArg Instr.ldIxNn (joinBytes_hiByte_loByte nn)

theorem incIx : Statement .incIx := fun _ => rfl

theorem addIxIx : Statement .addIxIx := fun _ => rfl

theorem decIx : Statement .decIx := fun _ => rfl

theorem addIxSp : Statement .addIxSp := fun _ => rfl

theorem addIyBc : Statement .addIyBc := fun _ => rfl

theorem addIyDe : Statement .addIyDe := fun _ => rfl

theorem ldIyNn (nn : Word) : Statement (.ldIyNn nn) := fun _ =>
  congrArg Instr.ldIyNn (joinBytes_hiByte_loByte nn)

theorem incIy : Statement .incIy := fun _ => rfl

theorem addIyIy : Statement .addIyIy := fun _ => rfl

theorem decIy : Statement .decIy := fun _ => rfl

theorem addIySp : Statement .addIySp := fun _ => rfl

theorem unrecognised (op : Word) : Statement (.unrecognised op) := fun h =>
  lookup_of_not_entry (by simp [Instr.wellFormed] at h; exact h.1) _ _

end Laws.Lookup

end Sys2Proof
end

