-- ==== Sys2Proof/Laws/Table.lean ====
section
/-!
SUPPORT. Laws/Table.lean: what shapes the entries of the opcode table have, so that a proof about every tick looks at a few
shapes and not at 61 entries: the effects and latches write registers only, but for `HALT` and `TMP`.
-/

namespace Sys2Proof.Machine

/-- A state update that changes the register file only. -/
def RegsOnly (f : State → State) : Prop := ∃ g : Regs → Regs, ∀ s, f s = { s with regs := g s.regs }

theorem RegsOnly.id : RegsOnly id := ⟨fun r => r, fun _ => rfl⟩

/-- The effect of every entry but `HALT`'s changes the register file only; it keeps `PC`, `I`, `R` and the shadows but
`AF'`. -/
theorem entryOf_effect (i : Instr) (h : i ≠ .halt) :
    ∃ g : Regs → Regs, (∀ s, (entryOf i).effect s = { s with regs := g s.regs }) ∧
      ∀ r, (g r).pc = r.pc ∧ (g r).i = r.i ∧ (g r).r = r.r ∧ (g r).bcShadow = r.bcShadow ∧
        (g r).deShadow = r.deShadow ∧ (g r).hlShadow = r.hlShadow := by
  refine ⟨fun r => ((entryOf i).effect { State.reset with regs := r }).regs, ?_, ?_⟩
  · cases i <;> first | (intro s; rfl) | exact absurd rfl h
  · cases i <;> (intro r; exact ⟨rfl, rfl, rfl, rfl, rfl, rfl⟩)

theorem entryOf_halt_effect (s : State) : (entryOf .halt).effect s = s.enterHalt := rfl

/-- A latch that writes registers and `TMP` only; it keeps `PC`, `I`, `R` and the shadows. -/
def LatchOnly (latch : Byte → State → State) : Prop :=
  ∃ (g : Byte → Regs → Regs) (k : Byte → Byte → Byte),
    (∀ d s, latch d s = { s with regs := g d s.regs, seq.tmp := k d s.seq.tmp }) ∧
    ∀ d r, (g d r).pc = r.pc ∧ (g d r).i = r.i ∧ (g d r).r = r.r ∧ (g d r).bcShadow = r.bcShadow ∧
      (g d r).deShadow = r.deShadow ∧ (g d r).hlShadow = r.hlShadow

theorem latchOnly_setReg8 (r : Reg8) : LatchOnly (State.setReg8 r) := by
  refine ⟨fun d ρ => (State.setReg8 r d { State.reset with regs := ρ }).regs, fun _ v => v, ?_, ?_⟩
  · cases r <;> (intro d s; rfl)
  · cases r <;> (intro d ρ; exact ⟨rfl, rfl, rfl, rfl, rfl, rfl⟩)

theorem latchOnly_latchLow (rr : Pair) : LatchOnly (latchLow rr) := by
  refine ⟨fun d ρ => (State.setPairLow rr d { State.reset with regs := ρ }).regs, fun d _ => d, ?_, ?_⟩
  · cases rr <;> (intro d s; rfl)
  · cases rr <;> (intro d ρ; exact ⟨rfl, rfl, rfl, rfl, rfl, rfl⟩)

theorem latchOnly_latchHigh (rr : Pair) : LatchOnly (latchHigh rr) := by
  refine ⟨fun d ρ => (State.setPairHigh rr d { State.reset with regs := ρ }).regs, fun _ v => v, ?_, ?_⟩
  · cases rr <;> (intro d s; rfl)
  · cases rr <;> (intro d ρ; exact ⟨rfl, rfl, rfl, rfl, rfl, rfl⟩)

/-- The later machine cycles of an entry: none, an operand read, a memory write, two operand reads, two internal cycles
(40_sequencer R146). -/
inductive LaterShape : List Cycle → Prop
  | none : LaterShape []
  | read {f : Byte → State → State} (h : LatchOnly f) : LaterShape [.operandRead f]
  | write (rr : Pair) : LaterShape [.memoryWrite rr]
  | reads {f g : Byte → State → State} (hf : LatchOnly f) (hg : LatchOnly g) : LaterShape [.operandRead f, .operandRead g]
  | internals : LaterShape [.internal, .internal]

theorem entryOf_later (i : Instr) : LaterShape (entryOf i).later := by
  cases i <;> first
    | exact .none
    | exact .internals
    | exact .write _
    | exact .read (latchOnly_setReg8 _)
    | exact .reads (latchOnly_latchLow _) (latchOnly_latchHigh _)

/-- The class of an entry: a pending byte and an unrecognised opcode have one machine cycle and no effect. -/
theorem entryOf_kind (i : Instr) :
    (entryOf i).kind = .instruction ∨
    ((entryOf i).kind = .pendingByte ∧ (entryOf i).later = [] ∧ (entryOf i).effect = id) ∨
    (∃ op, i = .unrecognised op ∧ (entryOf i).kind = .unrecognised op ∧ (entryOf i).later = [] ∧
      (entryOf i).effect = id) := by
  cases i <;> first
    | exact .inl rfl
    | exact .inr (.inl ⟨rfl, rfl, rfl⟩)
    | exact .inr (.inr ⟨_, rfl, rfl, rfl, rfl⟩)

theorem entryOf_latch {i : Instr} {k : Nat} {f : Byte → State → State}
    (h : (entryOf i).later[k]? = some (.operandRead f)) : LatchOnly f := by
  have hs := entryOf_later i
  generalize (entryOf i).later = later at h hs
  cases hs with
  | none => simp at h
  | read hf => cases k <;> simp at h; subst h; exact hf
  | write rr => cases k <;> simp at h
  | reads hf hg =>
    match k with
    | 0 => simp at h; subst h; exact hf
    | 1 => simp at h; subst h; exact hg
    | n + 2 => simp at h
  | internals =>
    match k with
    | 0 => simp at h
    | 1 => simp at h
    | n + 2 => simp at h

theorem entryOf_later_length (i : Instr) : (entryOf i).later.length ≤ 2 := by
  have hs := entryOf_later i
  generalize (entryOf i).later = later at hs
  cases hs <;> simp

/-- Every effect, `HALT`'s too, changes no register but those an instruction names. -/
theorem tableEntry_effect_regs (op : Word) (u : State) :
    ((tableEntry op).effect u).regs.pc = u.regs.pc ∧ ((tableEntry op).effect u).regs.i = u.regs.i ∧
    ((tableEntry op).effect u).regs.r = u.regs.r ∧
    ((tableEntry op).effect u).regs.bcShadow = u.regs.bcShadow ∧
    ((tableEntry op).effect u).regs.deShadow = u.regs.deShadow ∧
    ((tableEntry op).effect u).regs.hlShadow = u.regs.hlShadow ∧
    ((tableEntry op).effect u).seq = u.seq ∧ ((tableEntry op).effect u).totals = u.totals ∧
    ((tableEntry op).effect u).mem = u.mem ∧ ((tableEntry op).effect u).cfg = u.cfg ∧
    ((tableEntry op).effect u).inputs = u.inputs ∧ 
    ((tableEntry op).effect u).ctl = { u.ctl with haltf := ((tableEntry op).effect u).ctl.haltf } ∧
    ((tableEntry op).effect u).bus = { u.bus with halt := ((tableEntry op).effect u).bus.halt } := by
  unfold tableEntry
  by_cases hh : lookup op 0#8 0#8 = .halt
  · rw [hh]; exact ⟨rfl, rfl, rfl, rfl, rfl, rfl, rfl, rfl, rfl, rfl, rfl, rfl, rfl⟩
  · obtain ⟨g, hg, hg2⟩ := entryOf_effect _ hh
    rw [hg]
    obtain ⟨a, b, c, d, e, f⟩ := hg2 u.regs
    exact ⟨a, b, c, d, e, f, rfl, rfl, rfl, rfl, rfl, rfl, rfl⟩

theorem tableEntry_latch {op : Word} {k : Nat} {f : Byte → State → State}
    (h : (tableEntry op).later[k]? = some (.operandRead f)) : LatchOnly f := entryOf_latch h

end Sys2Proof.Machine
end

