-- ==== Sys2Proof/Laws/Ticks.lean ====
section
/-!
SUPPORT. Laws/Ticks.lean: what one tick can do, said once: a tick is a reset, a stopped or ignored call, or an accepted one,
and the action of an accepted one is one of the M1 actions, the action of a later machine cycle, or nothing.
-/

namespace Sys2Proof.Machine

/-- The four ways a tick goes (40_sequencer R149). -/
theorem tick_cases (l : TickIn) (s : State) :
    (l.reset = true ∧ tick l s = (s.resetOp, .reset)) ∨
    (l.reset = false ∧ s.ctl.stopped = true ∧ tick l s = (s, .stopped)) ∨
    (l.reset = false ∧ s.ctl.stopped = false ∧ l.clk ≠ s.seq.ph ∧ tick l s = (s, .ignored)) ∨
    (l.reset = false ∧ s.ctl.stopped = false ∧ l.clk = s.seq.ph ∧
      tick l s = tickAction (tableEntry s.seq.opacc) l s.acceptTick) := by
  unfold tick tickAs
  cases l.reset <;> cases s.ctl.stopped <;> by_cases h : l.clk = s.seq.ph <;> simp [h]

/-- The action of an accepted tick, case by case. -/
theorem tickAction_elim {e : Entry} {l : TickIn} {s : State} {P : State × TickResult → Prop}
    (h0h : s.seq.step = 0#8 → l.clk = .high → P (m1T1High s, .ok))
    (h0l : s.seq.step = 0#8 → l.clk = .low → P (m1T1Low l s, .ok))
    (h1h : s.seq.step = 1#8 → l.clk = .high → P (s, .ok))
    (h1l : s.seq.step = 1#8 → l.clk = .low → P (m1T2Low l s, .ok))
    (h2h : s.seq.step = 2#8 → l.clk = .high → P (m1T3High s, .ok))
    (h2l : s.seq.step = 2#8 → l.clk = .low → P (m1T3Low e s))
    (h3h : s.seq.step = 3#8 → l.clk = .high → P (s.advancePc, .ok))
    (h3l : s.seq.step = 3#8 → l.clk = .low → P (m1T4Low e l s, .ok))
    (hn : ∀ n, s.seq.step.toNat = n + 4 → e.later[n / 4]? = none → P (s, .ok))
    (hc : ∀ n c, s.seq.step.toNat = n + 4 → e.later[n / 4]? = some c →
      P (laterTick e c (n / 4 + 1 == e.later.length) (n % 4) l s, .ok)) :
    P (tickAction e l s) := by
  have hst : ∀ k : Nat, k < 256 → s.seq.step.toNat = k → s.seq.step = BitVec.ofNat 8 k := by
    intro k hk h
    apply BitVec.eq_of_toNat_eq
    rw [h, BitVec.toNat_ofNat, Nat.mod_eq_of_lt hk]
  unfold tickAction
  generalize hs : s.seq.step.toNat = k at hst hn hc
  cases hcl : l.clk <;> match k with
  | 0 => first | exact h0h (hst 0 (by omega) rfl) hcl | exact h0l (hst 0 (by omega) rfl) hcl
  | 1 => first | exact h1h (hst 1 (by omega) rfl) hcl | exact h1l (hst 1 (by omega) rfl) hcl
  | 2 => first | exact h2h (hst 2 (by omega) rfl) hcl | exact h2l (hst 2 (by omega) rfl) hcl
  | 3 => first | exact h3h (hst 3 (by omega) rfl) hcl | exact h3l (hst 3 (by omega) rfl) hcl
  | n + 4 =>
    simp only
    cases hcc : e.later[n / 4]? with
    | none => exact hn n rfl hcc
    | some c => exact hc n c rfl hcc

/-- The action of a tick of a later machine cycle, case by case. -/
theorem laterTick_elim {e : Entry} {c : Cycle} {last : Bool} {t : Nat} {l : TickIn} {s : State} {P : State → Prop}
    (ht : t < 4)
    (hend : t = 3 → l.clk = .low → P (endCycle e last s))
    (r0h : ∀ f, c = .operandRead f → t = 0 → l.clk = .high → P { s with bus.addr := s.regs.pc })
    (r0l : ∀ f, c = .operandRead f → t = 0 → l.clk = .low → P (State.nextStep { s with bus.mreq := true, bus.rd := true }))
    (r1h : ∀ f, c = .operandRead f → t = 1 → l.clk = .high → P s)
    (r1w : ∀ f, c = .operandRead f → t = 1 → l.clk = .low → l.wait = true → P s)
    (r1l : ∀ f, c = .operandRead f → t = 1 → l.clk = .low → l.wait = false → P (f s.bus.data s).nextStep)
    (r2h : ∀ f, c = .operandRead f → t = 2 → l.clk = .high → P { s with bus.rd := false })
    (r2l : ∀ f, c = .operandRead f → t = 2 → l.clk = .low → P (State.nextStep { s with bus.mreq := false }))
    (r3h : ∀ f, c = .operandRead f → t = 3 → l.clk = .high → P s.advancePc)
    (w0h : ∀ rr, c = .memoryWrite rr → t = 0 → l.clk = .high → P { s with bus.addr := s.pair rr, bus.data := s.reg8 .a })
    (w0l : ∀ rr, c = .memoryWrite rr → t = 0 → l.clk = .low →
      P (State.nextStep { s with bus.mreq := true, bus.wr := true }))
    (w1h : ∀ rr, c = .memoryWrite rr → t = 1 → l.clk = .high → P s)
    (w1w : ∀ rr, c = .memoryWrite rr → t = 1 → l.clk = .low → l.wait = true → P s)
    (w1l : ∀ rr, c = .memoryWrite rr → t = 1 → l.clk = .low → l.wait = false → P s.nextStep)
    (w2h : ∀ rr, c = .memoryWrite rr → t = 2 → l.clk = .high → P { s with bus.wr := false })
    (w2l : ∀ rr, c = .memoryWrite rr → t = 2 → l.clk = .low → P (State.nextStep { s with bus.mreq := false }))
    (w3h : ∀ rr, c = .memoryWrite rr → t = 3 → l.clk = .high → P s)
    (ih : c = .internal → l.clk = .high → P s)
    (il : c = .internal → t ≠ 3 → l.clk = .low → P s.nextStep) :
    P (laterTick e c last t l s) := by
  have h4 : t = 0 ∨ t = 1 ∨ t = 2 ∨ t = 3 := by omega
  unfold laterTick
  cases hcl : l.clk <;> rcases h4 with rfl | rfl | rfl | rfl <;> cases c <;>
    simp only [hcl, operandReadTick, memoryWriteTick, internalTick, and_self, and_true, and_false, if_true,
      if_false, OfNat.zero_ne_ofNat, OfNat.one_ne_ofNat, reduceCtorEq,
      show (2 : Nat) = 3 ↔ False by decide]
  all_goals first
    | exact hend rfl hcl
    | exact r0h _ rfl rfl hcl
    | exact r0l _ rfl rfl hcl
    | exact r1h _ rfl rfl hcl
    | exact r2h _ rfl rfl hcl
    | exact r2l _ rfl rfl hcl
    | exact r3h _ rfl rfl hcl
    | exact w0h _ rfl rfl hcl
    | exact w0l _ rfl rfl hcl
    | exact w1h _ rfl rfl hcl
    | exact w2h _ rfl rfl hcl
    | exact w2l _ rfl rfl hcl
    | exact w3h _ rfl rfl hcl
    | exact ih rfl hcl
    | exact il rfl (by decide) hcl
    | skip
  all_goals
    cases hw : l.wait
  all_goals first
    | exact r1l _ rfl rfl hcl hw
    | exact r1w _ rfl rfl hcl hw
    | exact w1l _ rfl rfl hcl hw
    | exact w1w _ rfl rfl hcl hw

end Sys2Proof.Machine
end

