-- ==== Sys2Proof/Laws/Invariant.lean ====
section
/-!
SUPPORT. Laws/Invariant.lean: every tick keeps the invariant `State.inv` (10_state R57), shown action by action, and so does
whatever a backend does between ticks.
-/

namespace Sys2Proof.Machine

/-- The class of an entry is that of a prefix byte. -/
def Entry.isPendingByte (e : Entry) : Bool :=
  match e.kind with
  | .pendingByte => true
  | .instruction => false
  | .unrecognised _ => false

theorem opcodeTable_pendingByte :
    (opcodeTable.all fun r => !(entryOf (r.make 0#8 0#8)).isPendingByte || r.op == 0x00dd#16 || r.op == 0x00fd#16) = true := by
  decide

/-- Only the two prefix bytes have a pending-byte entry (30_encoding R106). -/
theorem op_of_pendingByte {op : Word} (h : (tableEntry op).kind = .pendingByte) :
    op = 0x00dd#16 ∨ op = 0x00fd#16 := by
  unfold tableEntry lookup at h
  cases hf : opcodeTable.find? (fun r => r.op == op) with
  | none => simp [hf, entryOf, entryUnrecognised] at h
  | some r =>
    have hall := List.all_eq_true.mp opcodeTable_pendingByte r (List.mem_of_find?_eq_some hf)
    have hop : r.op = op := by simpa using List.find?_some hf
    rw [hf] at h
    have hp : (entryOf (r.make 0#8 0#8)).isPendingByte = true := by simp only [Entry.isPendingByte]; rw [h]
    simpa [hp, hop] using hall

theorem State.linesFit_later {s : State} {n : Nat} (h : s.seq.step.toNat = n + 4) :
    s.linesFit = (!s.bus.m1 && !s.bus.rfsh &&
      match (tableEntry s.seq.opacc).later[n / 4]? with
      | none   => false
      | some c => (s.bus.mreq, s.bus.rd, s.bus.wr) == c.levels (n % 4) s.seq.ph) := by
  unfold State.linesFit
  split <;> simp_all
  all_goals rfl

theorem State.toNat_step_succ {s : State} {n : Nat} (h : s.seq.step.toNat = n) (hn : n < 255) :
    (s.seq.step + 1#8).toNat = n + 1 := by
  rw [BitVec.toNat_add, h]; simp; omega

theorem inv_resetOp (s : State) : s.resetOp.inv = true := by
  simp [State.inv, State.linesFit, State.resetOp, State.pendingByte, isPendingByte, hiByte]

/-- The invariant from its parts, for a state at M1 (a step below 4) or later. -/
theorem inv_iff (s : State) : s.inv = true ↔
    s.bus.halt = s.ctl.haltf ∧ s.bus.busack = false ∧ isPendingByte s.pendingByte = true ∧
    (s.ctl.stopped = true → s.seq.step = 2#8 ∧ s.seq.ph = .high ∧ s.cfg.policy = .strict ∧ s.ctl.unsup = true) ∧
    s.linesFit = true := by
  unfold State.inv
  cases s.ctl.stopped <;> simp [and_assoc]

theorem sample_haltf (l : TickIn) {s : State} (h : s.bus.halt = s.ctl.haltf) :
    (s.sample l).bus.halt = (s.sample l).ctl.haltf ∧ (s.sample l).bus.busack = s.bus.busack ∧
    (s.sample l).bus.m1 = s.bus.m1 ∧ (s.sample l).bus.mreq = s.bus.mreq ∧ (s.sample l).bus.rd = s.bus.rd ∧
    (s.sample l).bus.wr = s.bus.wr ∧ (s.sample l).ctl.stopped = s.ctl.stopped := by
  unfold State.sample
  split <;> (try split) <;> (try split) <;> simp [h]

theorem effect_haltf (op : Word) {u : State} (h : u.bus.halt = u.ctl.haltf) :
    ((tableEntry op).effect u).bus.halt = ((tableEntry op).effect u).ctl.haltf := by
  unfold tableEntry
  by_cases hh : lookup op 0#8 0#8 = .halt
  · rw [hh]; rfl
  · obtain ⟨g, hg, -⟩ := entryOf_effect _ hh
    rw [hg]; exact h

theorem inv_finish (op : Word) {u : State} (hh : u.bus.halt = u.ctl.haltf) (hb : u.bus.busack = false)
    (hs : u.ctl.stopped = false) (hp : u.seq.ph = .high) (hq : u.bus.quiet = true) :
    (((tableEntry op).effect u).finish).inv = true := by
  obtain ⟨-, -, -, -, -, -, h1, -, -, -, -, h2, h3⟩ := tableEntry_effect_regs op u
  have h4 := effect_haltf op hh
  simp only [Bus.quiet, Bool.and_eq_true, Bool.not_eq_true'] at hq
  obtain ⟨⟨⟨⟨q1, q2⟩, q3⟩, q4⟩, q5⟩ := hq
  generalize (tableEntry op).effect u = w at h1 h2 h3 h4
  have b1 : w.bus.m1 = false := by rw [h3]; exact q1
  have b2 : w.bus.mreq = false := by rw [h3]; exact q2
  have b3 : w.bus.rd = false := by rw [h3]; exact q3
  have b4 : w.bus.wr = false := by rw [h3]; exact q4
  have b5 : w.bus.rfsh = false := by rw [h3]; exact q5
  have b6 : w.bus.busack = false := by rw [h3]; exact hb
  have b7 : w.ctl.stopped = false := by rw [h2]; exact hs
  clear h2 h3
  rw [inv_iff]
  refine ⟨by simpa using h4, by simpa using b6, by simp [State.pendingByte, isPendingByte], by simp [b7], ?_⟩
  simp [State.linesFit, h1, hp, b1, b2, b3, b4, b5]

/-- The invariant in a later machine cycle. -/
theorem later_inv {u : State} {n : Nat} {c : Cycle} (hh : u.bus.halt = u.ctl.haltf) (hb : u.bus.busack = false)
    (hp : isPendingByte u.pendingByte = true) (hs : u.ctl.stopped = false) (hn : u.seq.step.toNat = n + 4)
    (hc : (tableEntry u.seq.opacc).later[n / 4]? = some c) (h1 : u.bus.m1 = false) (h2 : u.bus.rfsh = false)
    (hl : (u.bus.mreq, u.bus.rd, u.bus.wr) = c.levels (n % 4) u.seq.ph) : u.inv = true := by
  rw [inv_iff, State.linesFit_later hn, hc]
  exact ⟨hh, hb, hp, by simp [hs], by simp [h1, h2, hl]⟩

theorem dispatchEntry_inv {u : State} (hh : u.bus.halt = u.ctl.haltf) (hb : u.bus.busack = false)
    (hp : isPendingByte u.pendingByte = true) (hs : u.ctl.stopped = false) (hph : u.seq.ph = .high)
    (hq : u.bus.quiet = true) : (dispatchEntry (tableEntry u.seq.opacc) u).inv = true := by
  unfold dispatchEntry
  cases hk : (tableEntry u.seq.opacc).kind with
  | pendingByte =>
    have hop := op_of_pendingByte hk
    simp only [Bus.quiet, Bool.and_eq_true, Bool.not_eq_true'] at hq
    simp only [inv_iff]
    refine ⟨by simpa using hh, by simpa using hb, ?_, by simp [hs], ?_⟩
    · rcases hop with h | h <;> simp [State.pendingByte, isPendingByte, h, loByte]
    · simp [State.linesFit, hq, hph]
  | unrecognised op => exact inv_finish _ hh hb hs hph hq
  | instruction =>
    simp only
    split
    · exact inv_finish _ hh hb hs hph hq
    · rename_i hemp
      simp only [Bus.quiet, Bool.and_eq_true, Bool.not_eq_true'] at hq
      rw [inv_iff]
      refine ⟨by simpa using hh, by simpa using hb, by simpa [State.pendingByte] using hp, by simp [hs], ?_⟩
      rw [State.linesFit_later (n := 0) (by simp)]
      simp only [State.countCycle_bus, hq]
      cases hla : (tableEntry u.seq.opacc).later with
      | nil => simp [hla] at hemp
      | cons c cs => cases c <;> simp [Cycle.levels, hla]

theorem m1T4Low_inv (l : TickIn) {s : State} (hh : s.bus.halt = s.ctl.haltf) (hb : s.bus.busack = false)
    (hp : isPendingByte s.pendingByte = true) (hs : s.ctl.stopped = false) (hph : s.seq.ph = .high)
    (hq : (s.bus.m1 = false ∧ s.bus.mreq = false) ∧ s.bus.rd = false ∧ s.bus.wr = false) :
    (m1T4Low (tableEntry s.seq.opacc) l s).inv = true := by
  obtain ⟨u1, u2, u3, u4, u5, u6, u7⟩ := sample_haltf l hh
  have hsm : (s.sample l).seq = s.seq := by simp
  have hm : (m1T4Low (tableEntry s.seq.opacc) l s) = dispatchEntry (tableEntry s.seq.opacc)
    { (s.sample l).stepRefresh with bus.rfsh := false } := rfl
  rw [hm]
  rw [show s.seq.opacc = ({ (s.sample l).stepRefresh with bus.rfsh := false } : State).seq.opacc by simp]
  generalize s.sample l = u at *
  apply dispatchEntry_inv
  · simpa using u1
  · simpa [hb] using u2
  · simpa [State.pendingByte, hsm] using hp
  · simpa [hs] using u7
  · simpa [hsm] using hph
  · simp [Bus.quiet, u3, u4, u5, u6, hq]

theorem tick_inv (l : TickIn) {s : State} (hs : s.inv = true) : (tick l s).1.inv = true := by
  rcases tick_cases l s with ⟨h, e⟩ | ⟨h, h2, e⟩ | ⟨h, h2, h3, e⟩ | ⟨h, h2, h3, e⟩
  · rw [e]; exact inv_resetOp s
  · rw [e]; exact hs
  · rw [e]; exact hs
  rw [e]
  obtain ⟨hh, hb, hp, -, hl⟩ := (inv_iff s).mp hs
  clear hs e
  apply tickAction_elim (P := fun x => x.1.inv = true)
  case h0h =>
    intro a b; change s.seq.step = _ at a; have hph := h3.symm.trans b
    simp only [State.linesFit, a, hph] at hl
    simp [m1T1High, State.inv, State.linesFit, a, hph, hh, hb, h2]
    simp at hl
    rcases hl with ⟨⟨⟨hl1, hl2⟩, hl3⟩, hl4⟩
    simp_all [State.pendingByte]
  case h0l =>
    intro a b; change s.seq.step = _ at a; have hph := h3.symm.trans b
    simp only [m1T1Low]
    split <;> simp_all [State.inv, State.linesFit, State.pendingByte]
  case h1h =>
    intro a b; change s.seq.step = _ at a; have hph := h3.symm.trans b
    simp_all [State.inv, State.linesFit, State.pendingByte]
  case h1l =>
    intro a b; change s.seq.step = _ at a; have hph := h3.symm.trans b
    simp only [m1T2Low]
    split <;> simp_all [State.inv, State.linesFit, State.pendingByte]
  case h2h =>
    intro a b; change s.seq.step = _ at a; have hph := h3.symm.trans b
    simp_all [m1T3High, State.inv, State.linesFit, State.pendingByte]
  case h2l =>
    intro a b; change s.seq.step = _ at a; have hph := h3.symm.trans b
    simp only [m1T3Low]
    split <;> (try split) <;> simp_all [State.inv, State.linesFit, State.pendingByte]
  case h3h =>
    intro a b; change s.seq.step = _ at a; have hph := h3.symm.trans b
    simp_all [State.inv, State.linesFit, State.pendingByte]
  case hn =>
    intro n a b; change s.seq.step.toNat = _ at a
    rw [State.linesFit_later a] at hl
    change (tableEntry s.seq.opacc).later[n / 4]? = none at b
    rw [b] at hl; simp at hl
  case h3l =>
    intro a b; change s.seq.step = _ at a; have hph := h3.symm.trans b
    simp only [State.linesFit, a, hph] at hl
    simp at hl
    exact m1T4Low_inv l (s := s.acceptTick) hh hb hp h2 (by simp [hph]) (by simp [hl]) 
  case hc =>
    intro n c a b; change s.seq.step.toNat = _ at a
    change (tableEntry s.seq.opacc).later[n / 4]? = some c at b
    rw [State.linesFit_later a, b] at hl
    have hn4 : n % 4 < 4 := by omega
    have hlt : s.seq.step.toNat < 256 := s.seq.step.isLt
    have h8 : (tableEntry s.seq.opacc).later.length ≤ 2 := entryOf_later_length _
    have hlen : n / 4 < (tableEntry s.seq.opacc).later.length := by
      rcases List.getElem?_eq_some_iff.mp b with ⟨h, -⟩; exact h
    have hsucc : (s.seq.step + 1#8).toNat = n + 1 + 4 := by
      rw [State.toNat_step_succ a (by omega)]
    simp only at hl
    simp at hl
    apply laterTick_elim (P := fun x => x.inv = true) hn4
    case hend =>
      intro h3' hcl
      have hph := h3.symm.trans hcl
      unfold endCycle
      have hq : s.bus.mreq = false ∧ s.bus.rd = false ∧ s.bus.wr = false := by
        cases c <;> simp_all [Cycle.levels]
      split
      · exact inv_finish s.seq.opacc (u := s.acceptTick) hh hb h2 (by simp [hph]) (by simp [Bus.quiet, hl, hq])
      · rename_i hlast
        have hne : n / 4 + 1 ≠ (tableEntry s.seq.opacc).later.length := by simpa using hlast
        rw [inv_iff]
        refine ⟨by simpa using hh, by simpa using hb, by simpa [State.pendingByte] using hp, by simp [h2], ?_⟩
        rw [State.linesFit_later (n := n + 1) (by simpa using hsucc)]
        have hd : (n + 1) / 4 = n / 4 + 1 := by omega
        have hm : (n + 1) % 4 = 0 := by omega
        have hget : (tableEntry s.seq.opacc).later[n / 4 + 1]? = some ((tableEntry s.seq.opacc).later[n / 4 + 1]'(by omega)) :=
          List.getElem?_eq_getElem (by omega)
        simp [hd, hm, hget, hl, hph, hq]
        generalize (tableEntry s.seq.opacc).later[n / 4 + 1]'_ = c'
        cases c' <;> simp [Cycle.levels]
    case r1l =>
      intro f hcf ht hcl hw
      obtain ⟨g, k, hg, -⟩ := tableEntry_latch (hcf ▸ b)
      have hph := h3.symm.trans hcl
      rw [hg]
      have hd : (n + 1) / 4 = n / 4 := by omega
      have hm : (n + 1) % 4 = 2 := by omega
      exact later_inv (n := n + 1) (c := c) hh hb hp h2 hsucc (by rw [hd]; exact b) hl.1.1 hl.1.2
        (by rw [hm]; subst hcf; simp_all [Cycle.levels])
    all_goals intros
    all_goals have hph := h3.symm.trans ‹l.clk = _›
    all_goals first
      | exact later_inv (c := c) hh hb hp h2 a b hl.1.1 hl.1.2 (by subst_vars; simp_all [Cycle.levels])
      | skip
    all_goals
      have hd : (n + 1) / 4 = n / 4 := by omega
      refine later_inv (n := n + 1) (c := c) hh hb hp h2 hsucc (by rw [hd]; exact b) hl.1.1 hl.1.2 ?_
    all_goals
      have h4 : n % 4 = 0 ∨ n % 4 = 1 ∨ n % 4 = 2 ∨ n % 4 = 3 := by omega
      have hm : (n + 1) % 4 = (n % 4 + 1) % 4 := by omega
      rw [hm]
      rcases h4 with h4 | h4 | h4 | h4 <;> simp_all [Cycle.levels]
/-- A backend writes `DATA` and memory, and the host its schedule; the invariant speaks of none of them. -/
theorem inv_backend (s : State) (d : Byte) (m : Memory) (ls : List TickIn) :
    ({ s with bus.data := d, mem := m, inputs := ls } : State).inv = s.inv := rfl

/-- One round of the host's loop keeps the invariant. -/
theorem clock_inv {s : State} (hs : s.inv = true) : (clock s).1.inv = true := by
  refine tick_inv _ ?_
  rw [← hs]
  unfold State.served State.service State.serviceRead State.serviceWrite
  split <;> split <;> rfl

theorem clockN_inv (n : Nat) {s : State} (hs : s.inv = true) : (clockN n s).inv = true := by
  induction n generalizing s with
  | zero => exact hs
  | succ n ih => exact ih (clock_inv hs)

end Sys2Proof.Machine
end

