-- ==== Sys2Proof/Laws/Rounds.lean ====
section
/-!
SUPPORT. Laws/Rounds.lean: the run of a decoded instruction is rounds of the host's loop. Along the run the entry in
force is the one that `OPACC` selects, and the bytes the operand reads latch are the decoded operand bytes.
-/

namespace Sys2Proof.Machine

/-- Every meaning is the run of its instruction's entry with its operand bytes. -/
theorem exec_eq_runInstr (i : Instr) (s : State) :
    exec i s = runInstr ((entryOf i).withOperands i.operands) s := by
  cases i <;> rfl

/-- The entry that the effective opcode of an instruction selects. -/
theorem tableEntry_opcode {i : Instr} (h : i.wellFormed = true) : tableEntry i.opcode = entryOf i := by
  cases i <;> first
    | rfl
    | (rename_i op
       simp only [Instr.wellFormed, Bool.and_eq_true, Bool.not_eq_true'] at h
       rw [tableEntry]
       exact congrArg entryOf (lookup_of_not_entry h.1 _ _))

theorem withOperands_kind (e : Entry) (ops : List Byte) : (e.withOperands ops).kind = e.kind := rfl

theorem withOperands_effect (e : Entry) (ops : List Byte) : (e.withOperands ops).effect = e.effect := rfl

theorem fillOperands_length (cs : List Cycle) (bs : List Byte) : (fillOperands cs bs).length = cs.length := by
  induction cs generalizing bs with
  | nil => rfl
  | cons c cs ih =>
    cases c <;> cases bs <;> simp [fillOperands, ih]

/-- The operand reads of an instruction take its own operand bytes, in order, and nothing else changes. -/
theorem fillOperands_entryOf (i : Instr) (j : Nat) :
    (∃ f b, (entryOf i).later[j]? = some (.operandRead f) ∧ i.operands[j]? = some b ∧
      (fillOperands (entryOf i).later i.operands)[j]? = some (.operandRead (fun _ s => f b s))) ∨
    ((∀ f, (entryOf i).later[j]? ≠ some (.operandRead f)) ∧
      (fillOperands (entryOf i).later i.operands)[j]? = (entryOf i).later[j]?) := by
  match j with
  | 0 => cases i <;> first | exact .inl ⟨_, _, rfl, rfl, rfl⟩ | exact .inr ⟨(by intro f h; cases h), rfl⟩
  | 1 => cases i <;> first | exact .inl ⟨_, _, rfl, rfl, rfl⟩ | exact .inr ⟨(by intro f h; cases h), rfl⟩
  | n + 2 =>
    have hl := entryOf_later_length i
    refine .inr ⟨fun f h => ?_, ?_⟩
    · rw [List.getElem?_eq_none (by omega)] at h; cases h
    · have hf : (fillOperands (entryOf i).later i.operands).length ≤ n + 2 := by rw [fillOperands_length]; omega
      rw [List.getElem?_eq_none hf, List.getElem?_eq_none (by omega)]

/-- A cycle before an operand read is an operand read. -/
theorem entryOf_read_before {i : Instr} {j : Nat} {f : Byte → State → State}
    (h : (entryOf i).later[j + 1]? = some (.operandRead f)) :
    ∃ g, (entryOf i).later[j]? = some (.operandRead g) := by
  have hs := entryOf_later i
  generalize (entryOf i).later = later at h hs
  cases hs with
  | none => simp at h
  | read hf => simp at h
  | write rr => simp at h
  | reads hf hg =>
    match j with
    | 0 => exact ⟨_, rfl⟩
    | n + 1 => simp at h
  | internals =>
    match j with
    | 0 => simp at h
    | n + 1 => simp at h

/-- Two entries that differ in the operand latches only do the same in a tick that latches no operand, and in one whose
`DATA` is the operand byte. -/
theorem tickAction_withOperands (i : Instr) (l : TickIn) (s : State)
    (h : ∀ j f, s.seq.step.toNat = 4 * j + 5 → (entryOf i).later[j]? = some (.operandRead f) →
      l.clk = .low → i.operands[j]? = some s.bus.data) :
    tickAction ((entryOf i).withOperands i.operands) l s = tickAction (entryOf i) l s := by
  unfold tickAction
  generalize hk : s.seq.step.toNat = k at h
  cases hcl : l.clk <;> match k with
  | 0 => rfl
  | 1 => rfl
  | 2 => rfl
  | 3 =>
    first
      | rfl
      | (simp only [m1T4Low, dispatchEntry, withOperands_kind, withOperands_effect]
         have : ((entryOf i).withOperands i.operands).later.isEmpty = (entryOf i).later.isEmpty := by
           have := fillOperands_length (entryOf i).later i.operands
           rw [Entry.withOperands]
           cases hl : (entryOf i).later <;> cases hf : fillOperands (entryOf i).later i.operands <;>
             simp_all
         rw [this])
  | n + 4 =>
    simp only
    have hlen : ((entryOf i).withOperands i.operands).later.length = (entryOf i).later.length :=
      fillOperands_length _ _
    have hend : ∀ b t, endCycle ((entryOf i).withOperands i.operands) b t = endCycle (entryOf i) b t := fun _ _ => rfl
    rcases fillOperands_entryOf i (n / 4) with ⟨f, b, h1, h2, h3⟩ | ⟨h1, h2⟩
    · have h3' : ((entryOf i).withOperands i.operands).later[n / 4]? = some (.operandRead (fun _ s => f b s)) := h3
      rw [h3', h1, hlen]
      simp only [laterTick, hend, hcl]
      split
      · rfl
      · by_cases ht : n % 4 = 1
        · first
            | (rw [ht]
               simp only [operandReadTick, hcl]
               done)
            | (have := h (n / 4) f (by omega) h1 hcl
               rw [h2] at this
               injection this with this
               rw [ht]
               simp only [operandReadTick, hcl, this])
        · have h4 : n % 4 = 0 ∨ n % 4 = 2 ∨ n % 4 = 3 := by omega
          rcases h4 with h4 | h4 | h4 <;> rw [h4] <;> simp only [operandReadTick, hcl]
    · have h2' : ((entryOf i).withOperands i.operands).later[n / 4]? = (entryOf i).later[n / 4]? := h2
      rw [h2']
      cases hc : (entryOf i).later[n / 4]? with
      | none => rfl
      | some c =>
        simp only [laterTick, hlen, hend]

/-! ### What holds along the run -/

/-- Where the run of the instruction `i` that began at the fetch in `s` stands in `u`: in the fetch, the bytes at `PC` are
those it will latch; after it `OPACC` selects the entry of `i`, and each operand read is at its own byte. -/
structure OnTheWay (s : State) (i : Instr) (u : State) : Prop where
  early : u.seq.step.toNat < 2 →
    u.mem = s.mem ∧ u.regs.pc = s.regs.pc ∧ hiByte u.seq.opacc = hiByte s.seq.opacc ∧ u.bus.wr = false ∧
    u.bus.rfsh = false ∧ (u.seq.ph = .low ∨ u.seq.step.toNat = 1 → u.bus.addr = s.regs.pc) ∧
    (u.seq.step.toNat = 1 → u.bus.mreq = true ∧ u.bus.rd = true)
  decoded : 2 ≤ u.seq.step.toNat → tableEntry u.seq.opacc = entryOf i
  fetch : u.seq.step.toNat = 2 ∨ u.seq.step.toNat = 3 →
    u.mem = s.mem ∧ u.bus.wr = false ∧
    u.regs.pc = s.regs.pc + (if u.seq.step.toNat = 3 ∧ u.seq.ph = .low then 1#16 else 0#16)
  reads : ∀ (j t : Nat) f, u.seq.step.toNat = 4 * j + t + 4 → t < 4 → (entryOf i).later[j]? = some (.operandRead f) →
    u.mem = s.mem ∧ u.bus.wr = false ∧ u.bus.rfsh = false ∧
    u.regs.pc = s.regs.pc + BitVec.ofNat 16 (1 + j) + (if t = 3 ∧ u.seq.ph = .low then 1#16 else 0#16) ∧
    (t = 0 ∧ u.seq.ph = .low ∨ t = 1 → u.bus.addr = u.regs.pc) ∧ (t = 1 → u.bus.mreq = true ∧ u.bus.rd = true)

theorem OnTheWay.begin {s : State} (i : Instr) (h : s.atFetch = true) : OnTheWay s i s := by
  simp only [State.atFetch, Bool.and_eq_true, Bool.not_eq_true', beq_iff_eq] at h
  obtain ⟨⟨⟨⟨⟨h1, h2⟩, -⟩, h4⟩, h5⟩, -⟩ := h
  refine ⟨fun _ => ⟨rfl, rfl, rfl, h4, h5, ?_, ?_⟩, ?_, ?_, ?_⟩
  · rintro (h | h)
    · rw [h2] at h; cases h
    · rw [h1] at h; simp at h
  · intro h; rw [h1] at h; simp at h
  · intro h; rw [h1] at h; simp at h
  · intro h; rw [h1] at h; simp at h
  · intro j t f h; rw [h1] at h; simp at h

/-- The service and the schedule do not matter to it. -/
theorem OnTheWay.served {s u : State} {i : Instr} (h : OnTheWay s i u)  : OnTheWay s i u.served := by
  have hb := State.service_bus u
  have hm : u.bus.wr = false → u.served.mem = u.mem := fun hw => State.service_mem_of_not_wr hw
  have hq : u.served.seq = u.seq := State.service_seq u
  have hr : u.served.regs = u.regs := State.service_regs u
  have ha : u.served.bus.addr = u.bus.addr ∧ u.served.bus.wr = u.bus.wr ∧ u.served.bus.rfsh = u.bus.rfsh ∧
      u.served.bus.mreq = u.bus.mreq ∧ u.served.bus.rd = u.bus.rd := by
    change u.service.bus.addr = _ ∧ u.service.bus.wr = _ ∧ u.service.bus.rfsh = _ ∧ u.service.bus.mreq = _ ∧
      u.service.bus.rd = _
    rw [hb]; exact ⟨rfl, rfl, rfl, rfl, rfl⟩
  obtain ⟨a1, a2, a3, a4, a5⟩ := ha
  constructor
  · rw [hq, hr, a1, a2, a3, a4, a5]
    intro hlt
    have := h.early hlt
    rw [hm this.2.2.2.1]
    exact this
  · rw [hq]; exact h.decoded
  · rw [hq, hr, a2]
    intro hlt
    have := h.fetch hlt
    rw [hm this.2.1]
    exact this
  · rw [hq, hr, a1, a2, a3, a4, a5]
    intro j t f h1 h2 h3
    have := h.reads j t f h1 h2 h3
    rw [hm this.2.1]
    exact this

theorem step_toNat_next {s : State} {k : Nat} (h : s.seq.step.toNat = k) (hk : k < 255) :
    s.nextStep.seq.step.toNat = k + 1 := by
  rw [State.nextStep_seq, BitVec.toNat_add, h]
  change (k + 1) % 256 = k + 1
  omega

/-- In a state whose `STEP` is in a later machine cycle, only the last two clauses say something. -/
theorem OnTheWay.ofLater {s u : State} {i : Instr} {j t : Nat} (hst : u.seq.step.toNat = 4 * j + t + 4) (ht : t < 4)
    (hd : tableEntry u.seq.opacc = entryOf i)
    (h : ∀ f, (entryOf i).later[j]? = some (.operandRead f) →
      u.mem = s.mem ∧ u.bus.wr = false ∧ u.bus.rfsh = false ∧
      u.regs.pc = s.regs.pc + BitVec.ofNat 16 (1 + j) + (if t = 3 ∧ u.seq.ph = .low then 1#16 else 0#16) ∧
      (t = 0 ∧ u.seq.ph = .low ∨ t = 1 → u.bus.addr = u.regs.pc) ∧ (t = 1 → u.bus.mreq = true ∧ u.bus.rd = true)) :
    OnTheWay s i u := by
  refine ⟨fun hl => by omega, fun _ => hd, fun hf => by omega, fun j' t' f h1 h2 h3 => ?_⟩
  have hj : j' = j := by omega
  have ht' : t' = t := by omega
  subst hj ht'
  exact h f h3

/-- One tick keeps it, unless it ends the run. `v` is the state that the service has left. -/
theorem OnTheWay.action {s v : State} {i : Instr} {l : TickIn} (h : OnTheWay s i v)
    (hdata : v.bus.mreq = true → v.bus.rd = true → v.bus.rfsh = false → v.bus.wr = false →
      v.bus.data = v.mem.read v.bus.addr)
    (hop : tableEntry (joinBytes (hiByte s.seq.opacc) (s.mem.read s.regs.pc)) = entryOf i) (hl : l.clk = v.seq.ph) :
    endsRun (tickAction (tableEntry v.seq.opacc) l v.acceptTick).2 (tickAction (tableEntry v.seq.opacc) l v.acceptTick).1 =
      false → OnTheWay s i (tickAction (tableEntry v.seq.opacc) l v.acceptTick).1 := by
  have hzero : ∀ x : Word, x + 0#16 = x := fun x => BitVec.add_zero x
  apply tickAction_elim (P := fun x => endsRun x.2 x.1 = false → OnTheWay s i x.1)
  · intro hs hc _
    change v.seq.step = 0#8 at hs
    obtain ⟨e1, e2, e3, e4, e5, -, -⟩ := h.early (by rw [hs]; decide)
    have hph : v.seq.ph = .high := by rw [← hl, hc]
    refine ⟨fun _ => ⟨e1, e2, e3, e4, e5, fun _ => e2, ?_⟩, ?_, ?_, ?_⟩ <;>
      simp [m1T1High, hs]
  · intro hs hc hend
    change v.seq.step = 0#8 at hs
    obtain ⟨e1, e2, e3, e4, e5, e6, -⟩ := h.early (by rw [hs]; decide)
    have hph : v.seq.ph = .low := by rw [← hl, hc]
    by_cases hhold : (v.ctl.haltf && !v.interruptPending l) = true
    · have : (m1T1Low l v.acceptTick).seq = { v.seq with ph := .high } := by
        have hh : (v.acceptTick.ctl.haltf && !v.acceptTick.interruptPending l) = true := hhold
        simp only [m1T1Low, hh, if_true]
        simp [hph]
      simp [endsRun, this, hs] at hend
    · have hx : (m1T1Low l v.acceptTick) =
          { v.acceptTick with bus.mreq := true, bus.rd := true, seq.step := 1#8 } := by
        have hh : ¬ (v.acceptTick.ctl.haltf && !v.acceptTick.interruptPending l) = true := hhold
        simp only [m1T1Low, hh]
        simp
      simp only [hx]
      refine ⟨fun _ => ⟨e1, e2, e3, e4, e5, fun _ => e6 (.inl hph), fun _ => ⟨rfl, rfl⟩⟩, ?_, ?_, ?_⟩ <;> simp
  · intro hs hc _
    change v.seq.step = 1#8 at hs
    obtain ⟨e1, e2, e3, e4, e5, e6, e7⟩ := h.early (by rw [hs]; decide)
    have h1 : v.seq.step.toNat = 1 := by rw [hs]; decide
    refine ⟨fun _ => ⟨e1, e2, e3, e4, e5, fun _ => e6 (.inr h1), fun _ => e7 h1⟩, ?_, ?_, ?_⟩ <;> simp [hs]
  · intro hs hc _
    change v.seq.step = 1#8 at hs
    obtain ⟨e1, e2, e3, e4, e5, e6, e7⟩ := h.early (by rw [hs]; decide)
    have h1 : v.seq.step.toNat = 1 := by rw [hs]; decide
    unfold m1T2Low
    split
    · refine ⟨fun _ => ⟨e1, e2, e3, e4, e5, fun _ => e6 (.inr h1), fun _ => e7 h1⟩, ?_, ?_, ?_⟩ <;> simp [hs]
    · have hdd := hdata (e7 h1).1 (e7 h1).2 e5 e4
      rw [e1, e6 (.inr h1)] at hdd
      refine ⟨?_, fun _ => ?_, fun _ => ⟨e1, e4, ?_⟩, ?_⟩
      · simp
      · change tableEntry (joinBytes (hiByte v.seq.opacc) v.bus.data) = _
        rw [hdd, e3, hop]
      · simp [e2]
      · simp
  · intro hs hc _
    change v.seq.step = 2#8 at hs
    have h2 : v.seq.step.toNat = 2 := by rw [hs]; decide
    obtain ⟨f1, f2, f3⟩ := h.fetch (.inl h2)
    have hd := h.decoded (by omega)
    refine ⟨?_, fun _ => hd, fun _ => ⟨f1, f2, ?_⟩, ?_⟩
    · simp [m1T3High, hs]
    · simpa [m1T3High, hs] using f3
    · simp [m1T3High, hs]
  · intro hs hc hend
    change v.seq.step = 2#8 at hs
    have h2 : v.seq.step.toNat = 2 := by rw [hs]; decide
    obtain ⟨f1, f2, f3⟩ := h.fetch (.inl h2)
    have hd := h.decoded (by omega)
    have hph : v.seq.ph = .low := by rw [← hl, hc]
    have hres : ∀ t : State, t.mem = s.mem → t.bus.wr = false → t.regs.pc = v.regs.pc → t.seq.opacc = v.seq.opacc →
        t.seq.step = 3#8 → t.seq.ph = .high → OnTheWay s i t := by
      intro t t1 t2 t3 t4 t5 t6
      refine ⟨?_, fun _ => by rw [t4]; exact hd, fun _ => ⟨t1, t2, ?_⟩, ?_⟩
      · simp [t5]
      · rw [t3, f3]; simp [h2, t6]
      · simp [t5]
    unfold m1T3Low at hend ⊢
    cases hk : (tableEntry v.seq.opacc).kind with
    | instruction => exact hres _ f1 f2 rfl rfl rfl (by simp [hph])
    | pendingByte => exact hres _ f1 f2 rfl rfl rfl (by simp [hph])
    | unrecognised op =>
      cases hp : v.cfg.policy with
      | noop =>
        simp only [hk, State.acceptTick_cfg, hp] at hend ⊢
        exact hres _ f1 f2 rfl rfl rfl (by simp [hph])
      | strict =>
        simp only [hk, State.acceptTick_cfg, hp] at hend
        simp [endsRun] at hend
  · intro hs hc _
    change v.seq.step = 3#8 at hs
    have h3 : v.seq.step.toNat = 3 := by rw [hs]; decide
    obtain ⟨f1, f2, f3⟩ := h.fetch (.inr h3)
    have hd := h.decoded (by omega)
    have hph : v.seq.ph = .high := by rw [← hl, hc]
    refine ⟨?_, fun _ => hd, fun _ => ⟨f1, f2, ?_⟩, ?_⟩
    · simp [hs]
    · rw [h3, hph] at f3
      simp at f3
      simp [h3, hph, f3]
    · simp [hs]
  · intro hs hc hend
    change v.seq.step = 3#8 at hs
    have h3 : v.seq.step.toNat = 3 := by rw [hs]; decide
    obtain ⟨f1, f2, f3⟩ := h.fetch (.inr h3)
    have hd := h.decoded (by omega)
    have hph : v.seq.ph = .low := by rw [← hl, hc]
    have heff : ∀ u : State, ((tableEntry v.seq.opacc).effect u).seq = u.seq :=
      fun u => (tableEntry_effect_regs v.seq.opacc u).2.2.2.2.2.2.1
    unfold m1T4Low dispatchEntry at hend ⊢
    cases hk : (tableEntry v.seq.opacc).kind with
    | pendingByte => simp [hk, endsRun, hph] at hend
    | unrecognised op => simp [hk, endsRun, hph, heff] at hend
    | instruction =>
      simp only [hk] at hend ⊢
      split at hend
      · simp [endsRun, hph, heff] at hend
      · rename_i hne
        rw [if_neg hne]
        refine OnTheWay.ofLater (j := 0) (t := 0) rfl (by omega) ?_ (fun f hf => ⟨?_, ?_, rfl, ?_, ?_, ?_⟩)
        · simpa using hd
        · simpa using f1
        · change ((v.acceptTick.sample l).bus.wr) = false
          rw [show (v.acceptTick.sample l).bus.wr = v.bus.wr by
            unfold State.sample; split <;> (try split) <;> (try split) <;> rfl]
          exact f2
        · rw [h3, hph] at f3
          simp at f3
          simp [f3, hph]
        · simp [hph]
        · simp
  · intro n hs hn _
    change v.seq.step.toNat = n + 4 at hs
    have hd := h.decoded (by omega)
    refine OnTheWay.ofLater (j := n / 4) (t := n % 4) (by simp; omega) (by omega) hd (fun f hf => ?_)
    rw [hd] at hn
    rw [hn] at hf; cases hf
  · intro n c hs hn
    change v.seq.step.toNat = n + 4 at hs
    have hd := h.decoded (by omega)
    have hlen := entryOf_later_length i
    have hj : n / 4 < 2 := by
      by_contra hcon
      rw [hd, List.getElem?_eq_none (by omega)] at hn
      cases hn
    rw [hd] at hn
    have hr := h.reads (n / 4) (n % 4)
    have hsame : ∀ t : State, t.seq.step = v.seq.step → t.seq.opacc = v.seq.opacc →
        (∀ f, c = .operandRead f → t.mem = s.mem ∧ t.bus.wr = false ∧ t.bus.rfsh = false ∧
          t.regs.pc = s.regs.pc + BitVec.ofNat 16 (1 + n / 4) + (if n % 4 = 3 ∧ t.seq.ph = .low then 1#16 else 0#16) ∧
          (n % 4 = 0 ∧ t.seq.ph = .low ∨ n % 4 = 1 → t.bus.addr = t.regs.pc) ∧
          (n % 4 = 1 → t.bus.mreq = true ∧ t.bus.rd = true)) → OnTheWay s i t := by
      intro t t1 t2 t3
      refine OnTheWay.ofLater (j := n / 4) (t := n % 4) (by rw [t1]; omega) (by omega) (by rw [t2]; exact hd)
        (fun f hf => t3 f ?_)
      rw [hn] at hf; injection hf
    have hnext : ∀ t : State, n % 4 < 3 → t.seq.step = v.seq.step → t.seq.opacc = v.seq.opacc →
        (∀ f, c = .operandRead f → t.mem = s.mem ∧ t.bus.wr = false ∧ t.bus.rfsh = false ∧
          t.regs.pc = s.regs.pc + BitVec.ofNat 16 (1 + n / 4) +
            (if n % 4 + 1 = 3 ∧ t.seq.ph = .low then 1#16 else 0#16) ∧
          (n % 4 + 1 = 1 → t.bus.addr = t.regs.pc) ∧
          (n % 4 + 1 = 1 → t.bus.mreq = true ∧ t.bus.rd = true)) → OnTheWay s i t.nextStep := by
      intro t t0 t1 t2 t3
      have hx := step_toNat_next (s := t) (k := n + 4) (by rw [t1]; exact hs) (by omega)
      refine OnTheWay.ofLater (j := n / 4) (t := n % 4 + 1) (by rw [hx]; omega) (by omega)
        (by rw [State.nextStep_seq]; change tableEntry t.seq.opacc = _; rw [t2]; exact hd) (fun f hf => ?_)
      rw [hn] at hf; injection hf with hf
      obtain ⟨b1, b2, b3, b4, b5, b6⟩ := t3 f hf
      exact ⟨b1, b2, b3, b4, fun hh => b5 (by omega), b6⟩
    apply laterTick_elim (P := fun x => endsRun .ok x = false → OnTheWay s i x) (by omega)
    · intro ht hc hend
      have hph : v.seq.ph = .low := by rw [← hl, hc]
      have heff : ∀ u : State, ((tableEntry v.seq.opacc).effect u).seq = u.seq :=
        fun u => (tableEntry_effect_regs v.seq.opacc u).2.2.2.2.2.2.1
      unfold endCycle at hend ⊢
      split at hend
      · simp [endsRun, hph, heff] at hend
      · rename_i hne
        rw [if_neg hne]
        have hx := step_toNat_next (s := v.acceptTick.countCycle) (k := n + 4) hs (by omega)
        refine OnTheWay.ofLater (j := n / 4 + 1) (t := 0) (by rw [hx]; omega) (by omega) (by simpa using hd)
          (fun f hf => ?_)
        obtain ⟨g, hg⟩ := entryOf_read_before hf
        obtain ⟨b1, b2, b3, b4, b5, b6⟩ := hr g (by omega) (by omega) hg
        refine ⟨b1, b2, b3, ?_, ?_, by simp⟩
        · simp only [State.nextStep_regs, State.countCycle_regs, State.acceptTick_regs, b4, ht, hph]
          simp [hph, BitVec.ofNat_add, BitVec.add_assoc]
        · simp [hph]
    · intro f hf ht hc _
      have hph : v.seq.ph = .high := by rw [← hl, hc]
      obtain ⟨b1, b2, b3, b4, b5, b6⟩ := hr f (by omega) (by omega) (by rw [hn, hf])
      refine hsame _ rfl rfl (fun g _ => ⟨b1, b2, b3, ?_, fun _ => rfl, fun h => by omega⟩)
      rw [hph] at b4
      simpa [hph, ht] using b4
    · intro f hf ht hc _
      have hph : v.seq.ph = .low := by rw [← hl, hc]
      obtain ⟨b1, b2, b3, b4, b5, b6⟩ := hr f (by omega) (by omega) (by rw [hn, hf])
      refine hnext _ (by omega) rfl rfl (fun g _ => ⟨b1, b2, b3, ?_, fun _ => b5 (.inl ⟨ht, hph⟩), fun _ => ⟨rfl, rfl⟩⟩)
      simpa [hph, ht] using b4
    · intro f hf ht hc _
      have hph : v.seq.ph = .high := by rw [← hl, hc]
      obtain ⟨b1, b2, b3, b4, b5, b6⟩ := hr f (by omega) (by omega) (by rw [hn, hf])
      refine hsame _ rfl rfl (fun g _ => ⟨b1, b2, b3, ?_, fun _ => b5 (.inr ht), fun _ => b6 ht⟩)
      simpa [hph, ht] using b4
    · intro f hf ht hc hw _
      have hph : v.seq.ph = .low := by rw [← hl, hc]
      obtain ⟨b1, b2, b3, b4, b5, b6⟩ := hr f (by omega) (by omega) (by rw [hn, hf])
      refine hsame _ rfl rfl (fun g _ => ⟨b1, b2, b3, ?_, fun _ => b5 (.inr ht), fun _ => b6 ht⟩)
      simpa [hph, ht] using b4
    · intro f hf ht hc hw _
      have hph : v.seq.ph = .low := by rw [← hl, hc]
      obtain ⟨b1, b2, b3, b4, b5, b6⟩ := hr f (by omega) (by omega) (by rw [hn, hf])
      obtain ⟨g, k, hg, hg2⟩ := entryOf_latch (i := i) (k := n / 4) (f := f) (by rw [hn, hf])
      rw [hg]
      refine hnext _ (by omega) rfl rfl (fun _ _ => ⟨b1, b2, b3, ?_, fun h => by omega, fun h => by omega⟩)
      simpa [hph, ht, (hg2 _ _).1] using b4
    · intro f hf ht hc _
      have hph : v.seq.ph = .high := by rw [← hl, hc]
      obtain ⟨b1, b2, b3, b4, b5, b6⟩ := hr f (by omega) (by omega) (by rw [hn, hf])
      refine hsame _ rfl rfl (fun g _ => ⟨b1, b2, b3, ?_, fun h => by omega, fun h => by omega⟩)
      simpa [hph, ht] using b4
    · intro f hf ht hc _
      have hph : v.seq.ph = .low := by rw [← hl, hc]
      obtain ⟨b1, b2, b3, b4, b5, b6⟩ := hr f (by omega) (by omega) (by rw [hn, hf])
      refine hnext _ (by omega) rfl rfl (fun g _ => ⟨b1, b2, b3, ?_, fun h => by omega, fun h => by omega⟩)
      simpa [hph, ht] using b4
    · intro f hf ht hc _
      have hph : v.seq.ph = .high := by rw [← hl, hc]
      obtain ⟨b1, b2, b3, b4, b5, b6⟩ := hr f (by omega) (by omega) (by rw [hn, hf])
      refine hsame _ rfl rfl (fun g _ => ⟨b1, b2, b3, ?_, fun h => by omega, fun h => by omega⟩)
      rw [hph] at b4
      simp [hph, ht, b4]
    · intro rr hrr ht hc _
      exact hsame _ rfl rfl (fun g hg => by rw [hrr] at hg; cases hg)
    · intro rr hrr ht hc _
      exact hnext _ (by omega) rfl rfl (fun g hg => by rw [hrr] at hg; cases hg)
    · intro rr hrr ht hc _
      exact hsame _ rfl rfl (fun g hg => by rw [hrr] at hg; cases hg)
    · intro rr hrr ht hc _ _
      exact hsame _ rfl rfl (fun g hg => by rw [hrr] at hg; cases hg)
    · intro rr hrr ht hc _ _
      exact hnext _ (by omega) rfl rfl (fun g hg => by rw [hrr] at hg; cases hg)
    · intro rr hrr ht hc _
      exact hsame _ rfl rfl (fun g hg => by rw [hrr] at hg; cases hg)
    · intro rr hrr ht hc _
      exact hnext _ (by omega) rfl rfl (fun g hg => by rw [hrr] at hg; cases hg)
    · intro rr hrr ht hc _
      exact hsame _ rfl rfl (fun g hg => by rw [hrr] at hg; cases hg)
    · intro hi hc _
      exact hsame _ rfl rfl (fun g hg => by rw [hi] at hg; cases hg)
    · intro hi ht hc _
      exact hnext _ (by omega) rfl rfl (fun g hg => by rw [hi] at hg; cases hg)

/-- While `STEP` is 0 or 1 no action looks at the entry. -/
theorem tickAction_early (e e' : Entry) {l : TickIn} {s : State} (h : s.seq.step.toNat < 2) :
    tickAction e l s = tickAction e' l s := by
  unfold tickAction
  generalize hk : s.seq.step.toNat = k at h
  cases l.clk <;> match k with
  | 0 => rfl
  | 1 => rfl

/-- One round of the run is one round of the host's loop, and what holds along the run goes on to hold. -/
theorem OnTheWay.round {s u : State} {i : Instr} {rest : List Byte} (h : OnTheWay s i u) (hw : i.wellFormed = true)
    (hp : s.pendingByte = i.pendingByte) (hb : s.streamBytes = i.body ++ rest) :
    clockAs ((entryOf i).withOperands i.operands) u = clock u ∧
      (endsRun (clock u).2 (clock u).1 = false → OnTheWay s i (clock u).1) := by
  have hv := h.served
  have hq : u.served.seq = u.seq := State.service_seq u
  have hopc : joinBytes (hiByte s.seq.opacc) (s.mem.read s.regs.pc) = i.opcode := by
    have h0 : s.mem.read s.regs.pc = loByte i.opcode := by
      simp only [State.streamBytes, Instr.body, List.cons_append, List.cons.injEq] at hb
      exact hb.1
    have h1 : hiByte s.seq.opacc = hiByte i.opcode := hp
    rw [h0, h1, joinBytes_hiByte_loByte]
  have hop : tableEntry (joinBytes (hiByte s.seq.opacc) (s.mem.read s.regs.pc)) = entryOf i := by
    rw [hopc]; exact tableEntry_opcode hw
  have hdata : u.served.bus.mreq = true → u.served.bus.rd = true → u.served.bus.rfsh = false →
      u.served.bus.wr = false → u.served.bus.data = u.served.mem.read u.served.bus.addr := by
    have hbus := State.service_bus u
    change u.service.bus.mreq = true → u.service.bus.rd = true → u.service.bus.rfsh = false →
      u.service.bus.wr = false → u.service.bus.data = u.service.mem.read u.service.bus.addr
    intro h1 h2 h3 h4
    have k1 : u.bus.mreq = true := by rw [hbus] at h1; exact h1
    have k2 : u.bus.rd = true := by rw [hbus] at h2; exact h2
    have k3 : u.bus.rfsh = false := by rw [hbus] at h3; exact h3
    have k4 : u.bus.wr = false := by rw [hbus] at h4; exact h4
    simp [State.service, State.serviceWrite, State.serviceRead, k1, k2, k3, k4]
  have hact : u.nextLevels.clk = u.served.seq.ph → tickAction ((entryOf i).withOperands i.operands) u.nextLevels u.served.acceptTick =
      tickAction (tableEntry u.seq.opacc) u.nextLevels u.served.acceptTick := by
    intro hclk
    by_cases hlt : u.served.seq.step.toNat < 2
    · exact tickAction_early _ _ hlt
    · rw [h.decoded (by rw [← hq]; omega)]
      apply tickAction_withOperands
      intro j f hst hf hlow
      obtain ⟨b1, b2, b3, b4, b5, b6⟩ := hv.reads j 1 f (by change u.served.seq.step.toNat = _ at hst; omega) (by omega) hf
      change i.operands[j]? = some u.served.bus.data
      rw [hdata (b6 rfl).1 (b6 rfl).2 b3 b2, b5 (.inr rfl), b1, b4]
      simp only [OfNat.one_ne_ofNat, false_and, if_false, BitVec.add_zero]
      have hjl := entryOf_later_length i
      have hj : j < 2 := by
        by_contra hcon
        rw [List.getElem?_eq_none (by omega)] at hf; cases hf
      have hm : s.streamBytes[j + 1]? = some (s.mem.read (s.regs.pc + BitVec.ofNat 16 (1 + j))) := by
        match j with
        | 0 => rfl
        | 1 => rfl
        | n + 2 => omega
      rw [hb] at hm
      rcases fillOperands_entryOf i j with ⟨f', b, -, h2, -⟩ | ⟨h1, -⟩
      · rw [h2]
        simp only [Instr.body, List.cons_append, List.getElem?_cons_succ] at hm
        have hjlt : j < i.operands.length := by
          by_contra hcon
          rw [List.getElem?_eq_none (by omega)] at h2; cases h2
        rw [List.getElem?_append_left hjlt, h2] at hm
        exact hm
      · exact absurd hf (h1 f)
  have hq' : u.served.seq.opacc = u.seq.opacc := by rw [hq]
  unfold clock clockAs tick tickAs
  rw [hq']
  by_cases hr : u.nextLevels.reset = true
  · simp [hr, endsRun]
  by_cases hst : u.served.ctl.stopped = true
  · simp [hr, hst, endsRun]
  by_cases hclk : u.nextLevels.clk = u.served.seq.ph
  · simp only [hr, hst, hclk, Bool.false_eq_true, if_false, ne_eq, not_true_eq_false]
    refine ⟨hact hclk, fun hend => ?_⟩
    rw [← hq'] at hend ⊢
    exact hv.action hdata hop hclk hend
  · simp only [hr, hst, hclk, Bool.false_eq_true, if_false, ne_eq, not_false_eq_true, if_true]
    exact ⟨trivial, fun _ => hv⟩

/-- The run of a decoded instruction is one or more rounds of the host's loop. -/
theorem runEntry_rounds {s u : State} {i : Instr} {rest : List Byte} (h : OnTheWay s i u) (hw : i.wellFormed = true)
    (hp : s.pendingByte = i.pendingByte) (hb : s.streamBytes = i.body ++ rest) (fuel : Nat) :
    ∃ n, (0 < fuel → 0 < n) ∧ runEntry ((entryOf i).withOperands i.operands) fuel u = clockN n u := by
  induction fuel generalizing u with
  | zero => exact ⟨0, by simp, rfl⟩
  | succ fuel ih =>
    obtain ⟨h1, h2⟩ := h.round hw hp hb
    rw [runEntry, h1]
    cases hend : endsRun (clock u).2 (clock u).1 with
    | true => exact ⟨1, by simp, by simp [clockN, hend]⟩
    | false =>
      obtain ⟨n, -, hn⟩ := ih (h2 hend)
      exact ⟨n + 1, by simp, by simp [clockN, hend, hn]⟩

end Sys2Proof.Machine
end

