-- ==== Sys2Proof/Tests/Slice0.lean ====
section
/-!
SUPPORT. Tests/Slice0.lean: small tests of the model, and a witness for the hypotheses of every obligation that has some. The
expected results are the worked examples of spec/41 to 45 and the vectors of spec/95_test_vectors.md; each test
names its source. A test is one step, or a few ticks, on a small state.
-/

namespace Sys2Proof.Tests

open Sys2Proof.Machine

/-! ### Helpers -/

/-- The launch state of a vector: reset, with the bytes `mem` and the registers `r`. -/
def launch (mem : Memory) (r : Regs) : State := { State.reset with mem := mem, regs := r }

/-- The registers that the vectors start from, all zero. -/
def zero : Regs := State.reset.regs

/-- The launch state with the pending byte `p`, as the step of a prefix byte leaves it. -/
def pending (p : Byte) (mem : Memory) (r : Regs) : State :=
  { launch mem r with seq.opacc := joinBytes p p }

/-- What `f` sees of the next state of a step. -/
def view {α : Type} (f : State → α) (s : State) : Option α :=
  match step s with
  | .next t => some (f t)
  | .fault _ => none
  | .refused _ => none

/-- The levels of a tick with `WAIT` asserted. -/
def waiting (c : Level) : TickIn := { TickIn.idle c with wait := true }

/-! ### Well-formed terms: each check refuses an ill-formed one -/

theorem test_wf_entry_is_not_unrecognised : (Instr.unrecognised 0x0000#16).wellFormed = false := by decide
theorem test_wf_prefix_entry_is_not_unrecognised : (Instr.unrecognised 0x00dd#16).wellFormed = false := by decide
theorem test_wf_prefixed_entry_is_not_unrecognised : (Instr.unrecognised 0xfd39#16).wellFormed = false := by decide
theorem test_wf_illegal_pending_byte : (Instr.unrecognised 0xcb07#16).wellFormed = false := by decide
theorem test_wf_unrecognised : (Instr.unrecognised 0xdd04#16).wellFormed = true := by decide

/-! ### Decoding: words written out from 30_encoding R108, the bytes as they lie in memory -/

theorem test_decode_plain_00_to_06 :
    decodeBytes [0x00#8] = .ok (.nop, []) ∧
    decodeBytes [0x01#8, 0x34#8, 0x12#8] = .ok (.ldBcNn 0x1234#16, []) ∧
    decodeBytes [0x02#8] = .ok (.ldAtBcA, []) ∧
    decodeBytes [0x03#8] = .ok (.incBc, []) ∧
    decodeBytes [0x04#8] = .ok (.incB, []) ∧
    decodeBytes [0x05#8] = .ok (.decB, []) ∧
    decodeBytes [0x06#8, 0x12#8] = .ok (.ldBN 0x12#8, []) := by
  decide

theorem test_decode_plain_07_to_0e :
    decodeBytes [0x07#8] = .ok (.rlca, []) ∧
    decodeBytes [0x08#8] = .ok (.exAfAf, []) ∧
    decodeBytes [0x09#8] = .ok (.addHlBc, []) ∧
    decodeBytes [0x0b#8] = .ok (.decBc, []) ∧
    decodeBytes [0x0c#8] = .ok (.incC, []) ∧
    decodeBytes [0x0d#8] = .ok (.decC, []) ∧
    decodeBytes [0x0e#8, 0x34#8] = .ok (.ldCN 0x34#8, []) := by
  decide

theorem test_decode_plain_11_to_19 :
    decodeBytes [0x11#8, 0xef#8, 0xbe#8] = .ok (.ldDeNn 0xbeef#16, []) ∧
    decodeBytes [0x12#8] = .ok (.ldAtDeA, []) ∧
    decodeBytes [0x13#8] = .ok (.incDe, []) ∧
    decodeBytes [0x14#8] = .ok (.incD, []) ∧
    decodeBytes [0x15#8] = .ok (.decD, []) ∧
    decodeBytes [0x16#8, 0x00#8] = .ok (.ldDN 0x00#8, []) ∧
    decodeBytes [0x19#8] = .ok (.addHlDe, []) := by
  decide

theorem test_decode_plain_1b_to_23 :
    decodeBytes [0x1b#8] = .ok (.decDe, []) ∧
    decodeBytes [0x1c#8] = .ok (.incE, []) ∧
    decodeBytes [0x1d#8] = .ok (.decE, []) ∧
    decodeBytes [0x1e#8, 0xff#8] = .ok (.ldEN 0xff#8, []) ∧
    decodeBytes [0x21#8, 0x00#8, 0x80#8] = .ok (.ldHlNn 0x8000#16, []) ∧
    decodeBytes [0x23#8] = .ok (.incHl, []) := by
  decide

theorem test_decode_plain_24_to_2e :
    decodeBytes [0x24#8] = .ok (.incH, []) ∧
    decodeBytes [0x25#8] = .ok (.decH, []) ∧
    decodeBytes [0x26#8, 0x12#8] = .ok (.ldHN 0x12#8, []) ∧
    decodeBytes [0x29#8] = .ok (.addHlHl, []) ∧
    decodeBytes [0x2b#8] = .ok (.decHl, []) ∧
    decodeBytes [0x2c#8] = .ok (.incL, []) ∧
    decodeBytes [0x2d#8] = .ok (.decL, []) ∧
    decodeBytes [0x2e#8, 0x80#8] = .ok (.ldLN 0x80#8, []) := by
  decide

theorem test_decode_plain_31_to_77 :
    decodeBytes [0x31#8, 0xfe#8, 0xff#8] = .ok (.ldSpNn 0xfffe#16, []) ∧
    decodeBytes [0x33#8] = .ok (.incSp, []) ∧
    decodeBytes [0x39#8] = .ok (.addHlSp, []) ∧
    decodeBytes [0x3b#8] = .ok (.decSp, []) ∧
    decodeBytes [0x3c#8] = .ok (.incA, []) ∧
    decodeBytes [0x3d#8] = .ok (.decA, []) ∧
    decodeBytes [0x3e#8, 0x81#8] = .ok (.ldAN 0x81#8, []) ∧
    decodeBytes [0x76#8] = .ok (.halt, []) ∧
    decodeBytes [0x77#8] = .ok (.ldAtHlA, []) := by
  decide

theorem test_decode_under_dd :
    decodeBytes [0xdd#8, 0x09#8] = .ok (.addIxBc, []) ∧
    decodeBytes [0xdd#8, 0x19#8] = .ok (.addIxDe, []) ∧
    decodeBytes [0xdd#8, 0x21#8, 0xff#8, 0x0f#8] = .ok (.ldIxNn 0x0fff#16, []) ∧
    decodeBytes [0xdd#8, 0x23#8] = .ok (.incIx, []) ∧
    decodeBytes [0xdd#8, 0x29#8] = .ok (.addIxIx, []) ∧
    decodeBytes [0xdd#8, 0x2b#8] = .ok (.decIx, []) ∧
    decodeBytes [0xdd#8, 0x39#8] = .ok (.addIxSp, []) := by
  decide

theorem test_decode_under_fd :
    decodeBytes [0xfd#8, 0x09#8] = .ok (.addIyBc, []) ∧
    decodeBytes [0xfd#8, 0x19#8] = .ok (.addIyDe, []) ∧
    decodeBytes [0xfd#8, 0x21#8, 0xcd#8, 0xab#8] = .ok (.ldIyNn 0xabcd#16, []) ∧
    decodeBytes [0xfd#8, 0x23#8] = .ok (.incIy, []) ∧
    decodeBytes [0xfd#8, 0x29#8] = .ok (.addIyIy, []) ∧
    decodeBytes [0xfd#8, 0x2b#8] = .ok (.decIy, []) ∧
    decodeBytes [0xfd#8, 0x39#8] = .ok (.addIySp, []) := by
  decide

theorem test_decode_default_row :
    decodeBytes [0x36#8] = .ok (.unrecognised 0x0036#16, []) ∧
    decodeBytes [0xdd#8, 0xdd#8] = .ok (.unrecognised 0xdddd#16, []) ∧
    decodeBytes [0xfd#8, 0x00#8] = .ok (.unrecognised 0xfd00#16, []) := by
  decide

/-- A prefix byte with no prefix pending is an entry of its own (30_encoding R105), and so decodes as what the engine
fetches; as the start of an instruction in memory it needs the byte after it (R111). -/
theorem test_decode_prefix_bytes :
    decode 0x00#8 [0xdd#8] = .ok (.prefixIx, []) ∧ decode 0x00#8 [0xfd#8] = .ok (.prefixIy, []) := by decide

theorem test_decode_refuses_by_name :
    decode 0x00#8 [] = .error .noOpcode ∧ decode 0x00#8 [0x3e#8] = .error (.missingOperand 0x003e#16) ∧
    decode 0xcb#8 [0x07#8] = .error (.illegalPending 0xcb#8) := by decide

/-- Words as spec/opcode_table.json numbers them: the effective opcode in bits 15:0, its high byte the pending byte (log
7). -/
theorem test_decodeTableWord :
    decodeTableWord 16 0x0001 = some (.ldBcNn 0x0000#16) ∧ decodeTableWord 16 0xdd21 = some (.ldIxNn 0x0000#16) ∧
    decodeTableWord 16 0xfd2b = some .decIy ∧ decodeTableWord 16 0x00dd = some .prefixIx := by decide

/-! ### Single steps, from the examples of spec/42 to 45 -/

/-- 42_loads R191. -/
theorem test_ldBcNn : view (fun t => (t.regs.bc, t.regs.af, t.regs.pc, t.seq.tmp))
    (launch [(0, 0x01#8), (1, 0x34#8), (2, 0x12#8)] { zero with bc := 0xaaaa#16, af := 0x00ff#16 }) = some (0x1234#16, 0x00ff#16, 0x0003#16, 0x34#8) := by decide

/-- 42_loads R192. -/
theorem test_ldDeNn : view (fun t => (t.regs.de, t.regs.af, t.regs.pc, t.seq.tmp))
    (launch [(0, 0x11#8), (1, 0xef#8), (2, 0xbe#8)] { zero with de := 0xaaaa#16, af := 0x00ff#16 }) = some (0xbeef#16, 0x00ff#16, 0x0003#16, 0xef#8) := by decide

/-- 42_loads R193. -/
theorem test_ldHlNn : view (fun t => (t.regs.hl, t.regs.af, t.regs.pc, t.seq.tmp))
    (launch [(0, 0x21#8), (2, 0x80#8)] { zero with hl := 0xaaaa#16, af := 0x00ff#16 }) = some (0x8000#16, 0x00ff#16, 0x0003#16, 0x00#8) := by decide

/-- 42_loads R194. -/
theorem test_ldSpNn : view (fun t => (t.regs.sp, t.regs.af, t.regs.pc, t.seq.tmp))
    (launch [(0, 0x31#8), (1, 0xfe#8), (2, 0xff#8)] { zero with sp := 0xaaaa#16, af := 0x00ff#16 }) = some (0xfffe#16, 0x00ff#16, 0x0003#16, 0xfe#8) := by decide

/-- 42_loads R195, from the byte 21 on. -/
theorem test_ldIxNn : view (fun t => (t.regs.ix, t.regs.af, t.regs.pc, t.seq.tmp))
    (pending 0xdd#8 [(0, 0x21#8), (1, 0xff#8), (2, 0x0f#8)] { zero with ix := 0xaaaa#16, af := 0x00ff#16 }) = some (0x0fff#16, 0x00ff#16, 0x0003#16, 0xff#8) := by decide

/-- 42_loads R196, from the byte 21 on. -/
theorem test_ldIyNn : view (fun t => (t.regs.iy, t.regs.af, t.regs.pc, t.seq.tmp))
    (pending 0xfd#8 [(0, 0x21#8), (1, 0xff#8)] { zero with iy := 0xaaaa#16, af := 0x00ff#16 }) = some (0x00ff#16, 0x00ff#16, 0x0003#16, 0xff#8) := by decide

/-- 42_loads R201. -/
theorem test_ldBN : view (fun t => (t.regs.bc, t.regs.af, t.regs.pc))
    (launch [(0, 0x06#8), (1, 0x12#8)] { zero with bc := 0xaaaa#16, af := 0x00ff#16 }) = some (0x12aa#16, 0x00ff#16, 0x0002#16) := by decide

/-- 42_loads R202. -/
theorem test_ldCN : view (fun t => (t.regs.bc, t.regs.af, t.regs.pc))
    (launch [(0, 0x0e#8), (1, 0x34#8)] { zero with bc := 0xaaaa#16, af := 0x00ff#16 }) = some (0xaa34#16, 0x00ff#16, 0x0002#16) := by decide

/-- 42_loads R203. -/
theorem test_ldDN : view (fun t => (t.regs.de, t.regs.af, t.regs.pc))
    (launch [(0, 0x16#8)] { zero with de := 0xaaaa#16, af := 0x00ff#16 }) = some (0x00aa#16, 0x00ff#16, 0x0002#16) := by decide

/-- 42_loads R204. -/
theorem test_ldEN : view (fun t => (t.regs.de, t.regs.af, t.regs.pc))
    (launch [(0, 0x1e#8), (1, 0xff#8)] { zero with de := 0xaaaa#16, af := 0x00ff#16 }) = some (0xaaff#16, 0x00ff#16, 0x0002#16) := by decide

/-- 42_loads R205. -/
theorem test_ldHN : view (fun t => (t.regs.hl, t.regs.af, t.regs.pc))
    (launch [(0, 0x26#8), (1, 0x12#8)] { zero with hl := 0xaaaa#16, af := 0x00ff#16 }) = some (0x12aa#16, 0x00ff#16, 0x0002#16) := by decide

/-- 42_loads R206. -/
theorem test_ldLN : view (fun t => (t.regs.hl, t.regs.af, t.regs.pc))
    (launch [(0, 0x2e#8), (1, 0x80#8)] { zero with hl := 0xaaaa#16, af := 0x00ff#16 }) = some (0xaa80#16, 0x00ff#16, 0x0002#16) := by decide

/-- 42_loads R207. -/
theorem test_ldAN : view (fun t => (t.regs.af, t.regs.pc))
    (launch [(0, 0x3e#8), (1, 0x81#8)] { zero with af := 0xaaff#16 }) = some (0x81ff#16, 0x0002#16) := by decide

/-- 42_loads R211. -/
theorem test_ldAtBcA : view (fun t => (t.mem, t.bus.addr, t.bus.data, t.regs.pc, t.regs.bc, t.regs.af))
    (launch [(0, 0x02#8)] { zero with bc := 0x1234#16, af := 0x03ff#16 }) =
    some ([(0, 0x02#8), (4660, 0x03#8)], 0x1234#16, 0x03#8, 0x0001#16, 0x1234#16, 0x03ff#16) := by decide

/-- 42_loads R212. -/
theorem test_ldAtDeA : view (fun t => (t.mem, t.bus.addr, t.bus.data, t.regs.pc, t.regs.de, t.regs.af))
    (launch [(0, 0x12#8)] { zero with de := 0xffff#16, af := 0x5aff#16 }) =
    some ([(0, 0x12#8), (65535, 0x5a#8)], 0xffff#16, 0x5a#8, 0x0001#16, 0xffff#16, 0x5aff#16) := by decide

/-- 42_loads R213. -/
theorem test_ldAtHlA : view (fun t => (t.mem, t.bus.addr, t.bus.data, t.regs.pc, t.regs.hl, t.regs.af))
    (launch [(0, 0x77#8)] { zero with hl := 0x4000#16, af := 0xc3ff#16 }) =
    some ([(0, 0x77#8), (16384, 0xc3#8)], 0x4000#16, 0xc3#8, 0x0001#16, 0x4000#16, 0xc3ff#16) := by decide

/-- 95_test_vectors V-ST, last row: the backend drops the write, the bus carries it. -/
theorem test_store_dropped : view (fun t => (t.mem, t.bus.addr, t.bus.data))
    { launch [(0, 0x02#8)] { zero with af := 0x5500#16 } with cfg.readOnly := [⟨0, 0x4000⟩] } =
    some ([(0, 0x02#8)], 0x0000#16, 0x55#8) := by decide

/-- 43_incdec R221. -/
theorem test_incB : view (fun t => (t.regs.bc, t.regs.af, t.regs.pc))
    (launch [(0, 0x04#8)] { zero with bc := 0x0000#16, af := 0x0000#16 }) = some (0x0100#16, 0x0000#16, 0x0001#16) := by decide

/-- 43_incdec R222. -/
theorem test_incC : view (fun t => (t.regs.bc, t.regs.af, t.regs.pc))
    (launch [(0, 0x0c#8)] { zero with bc := 0x00ff#16, af := 0x0000#16 }) = some (0x0000#16, 0x0050#16, 0x0001#16) := by decide

/-- 43_incdec R223. -/
theorem test_incD : view (fun t => (t.regs.de, t.regs.af, t.regs.pc))
    (launch [(0, 0x14#8)] { zero with de := 0x7f00#16, af := 0x0000#16 }) = some (0x8000#16, 0x0094#16, 0x0001#16) := by decide

/-- 43_incdec R224. -/
theorem test_incE : view (fun t => (t.regs.de, t.regs.af, t.regs.pc))
    (launch [(0, 0x1c#8)] { zero with de := 0x000f#16, af := 0x0001#16 }) = some (0x0010#16, 0x0011#16, 0x0001#16) := by decide

/-- 43_incdec R225. -/
theorem test_incH : view (fun t => (t.regs.hl, t.regs.af, t.regs.pc))
    (launch [(0, 0x24#8)] { zero with hl := 0x2700#16, af := 0x00ff#16 }) = some (0x2800#16, 0x0029#16, 0x0001#16) := by decide

/-- 43_incdec R226. -/
theorem test_incL : view (fun t => (t.regs.hl, t.regs.af, t.regs.pc))
    (launch [(0, 0x2c#8)] { zero with hl := 0x00fe#16, af := 0x00d7#16 }) = some (0x00ff#16, 0x00a9#16, 0x0001#16) := by decide

/-- 43_incdec R231. -/
theorem test_decB : view (fun t => (t.regs.bc, t.regs.af, t.regs.pc))
    (launch [(0, 0x05#8)] { zero with bc := 0x0100#16, af := 0x0000#16 }) = some (0x0000#16, 0x0042#16, 0x0001#16) := by decide

/-- 43_incdec R232. -/
theorem test_decC : view (fun t => (t.regs.bc, t.regs.af, t.regs.pc))
    (launch [(0, 0x0d#8)] { zero with bc := 0x0000#16, af := 0x0000#16 }) = some (0x00ff#16, 0x00ba#16, 0x0001#16) := by decide

/-- 43_incdec R233. -/
theorem test_decD : view (fun t => (t.regs.de, t.regs.af, t.regs.pc))
    (launch [(0, 0x15#8)] { zero with de := 0x8000#16, af := 0x0000#16 }) = some (0x7f00#16, 0x003e#16, 0x0001#16) := by decide

/-- 43_incdec R234. -/
theorem test_decE : view (fun t => (t.regs.de, t.regs.af, t.regs.pc))
    (launch [(0, 0x1d#8)] { zero with de := 0x0010#16, af := 0x0001#16 }) = some (0x000f#16, 0x001b#16, 0x0001#16) := by decide

/-- 43_incdec R235. -/
theorem test_decH : view (fun t => (t.regs.hl, t.regs.af, t.regs.pc))
    (launch [(0, 0x25#8)] { zero with hl := 0x2900#16, af := 0x00ff#16 }) = some (0x2800#16, 0x002b#16, 0x0001#16) := by decide

/-- 43_incdec R236. -/
theorem test_decL : view (fun t => (t.regs.hl, t.regs.af, t.regs.pc))
    (launch [(0, 0x2d#8)] { zero with hl := 0x00ff#16, af := 0x0000#16 }) = some (0x00fe#16, 0x00aa#16, 0x0001#16) := by decide

/-- 43_incdec R227. -/
theorem test_incA : view (fun t => (t.regs.af, t.regs.pc))
    (launch [(0, 0x3c#8)] { zero with af := 0x7f01#16 }) = some (0x8095#16, 0x0001#16) := by decide

/-- 43_incdec R237. -/
theorem test_decA : view (fun t => (t.regs.af, t.regs.pc))
    (launch [(0, 0x3d#8)] { zero with af := 0x0001#16 }) = some (0xffbb#16, 0x0001#16) := by decide

/-- 43_incdec R241. -/
theorem test_incBc : view (fun t => (t.regs.bc, t.regs.af, t.regs.pc))
    (launch [(0, 0x03#8)] { zero with bc := 0x00ff#16, af := 0x00d7#16 }) = some (0x0100#16, 0x00d7#16, 0x0001#16) := by decide

/-- 43_incdec R242. -/
theorem test_incDe : view (fun t => (t.regs.de, t.regs.af, t.regs.pc))
    (launch [(0, 0x13#8)] { zero with de := 0xffff#16, af := 0x00d7#16 }) = some (0x0000#16, 0x00d7#16, 0x0001#16) := by decide

/-- 43_incdec R243. -/
theorem test_incHl : view (fun t => (t.regs.hl, t.regs.af, t.regs.pc))
    (launch [(0, 0x23#8)] { zero with hl := 0x7fff#16, af := 0x00d7#16 }) = some (0x8000#16, 0x00d7#16, 0x0001#16) := by decide

/-- 43_incdec R244. -/
theorem test_incSp : view (fun t => (t.regs.sp, t.regs.af, t.regs.pc))
    (launch [(0, 0x33#8)] { zero with sp := 0x0000#16, af := 0x00d7#16 }) = some (0x0001#16, 0x00d7#16, 0x0001#16) := by decide

/-- 43_incdec R251. -/
theorem test_decBc : view (fun t => (t.regs.bc, t.regs.af, t.regs.pc))
    (launch [(0, 0x0b#8)] { zero with bc := 0x0100#16, af := 0x0028#16 }) = some (0x00ff#16, 0x0028#16, 0x0001#16) := by decide

/-- 43_incdec R252. -/
theorem test_decDe : view (fun t => (t.regs.de, t.regs.af, t.regs.pc))
    (launch [(0, 0x1b#8)] { zero with de := 0x0000#16, af := 0x0028#16 }) = some (0xffff#16, 0x0028#16, 0x0001#16) := by decide

/-- 43_incdec R253. -/
theorem test_decHl : view (fun t => (t.regs.hl, t.regs.af, t.regs.pc))
    (launch [(0, 0x2b#8)] { zero with hl := 0x8000#16, af := 0x0028#16 }) = some (0x7fff#16, 0x0028#16, 0x0001#16) := by decide

/-- 43_incdec R254. -/
theorem test_decSp : view (fun t => (t.regs.sp, t.regs.af, t.regs.pc))
    (launch [(0, 0x3b#8)] { zero with sp := 0x0001#16, af := 0x0028#16 }) = some (0x0000#16, 0x0028#16, 0x0001#16) := by decide

/-- 43_incdec R245, from the opcode byte on. -/
theorem test_incIx : view (fun t => (t.regs.ix, t.regs.af, t.regs.pc))
    (pending 0xdd#8 [(0, 0x23#8)] { zero with ix := 0x00ff#16, af := 0x00d7#16 }) = some (0x0100#16, 0x00d7#16, 0x0001#16) := by decide

/-- 43_incdec R246, from the opcode byte on. -/
theorem test_incIy : view (fun t => (t.regs.iy, t.regs.af, t.regs.pc))
    (pending 0xfd#8 [(0, 0x23#8)] { zero with iy := 0xffff#16, af := 0x00d7#16 }) = some (0x0000#16, 0x00d7#16, 0x0001#16) := by decide

/-- 43_incdec R255, from the opcode byte on. -/
theorem test_decIx : view (fun t => (t.regs.ix, t.regs.af, t.regs.pc))
    (pending 0xdd#8 [(0, 0x2b#8)] { zero with ix := 0x0100#16, af := 0x0028#16 }) = some (0x00ff#16, 0x0028#16, 0x0001#16) := by decide

/-- 43_incdec R256, from the opcode byte on. -/
theorem test_decIy : view (fun t => (t.regs.iy, t.regs.af, t.regs.pc))
    (pending 0xfd#8 [(0, 0x2b#8)] { zero with iy := 0x0000#16, af := 0x0028#16 }) = some (0xffff#16, 0x0028#16, 0x0001#16) := by decide

/-- 44_rlca_ex R260, first row, the source's example. -/
theorem test_rlca : view (fun t => (t.regs.af, t.regs.pc))
    (launch [(0, 0x07#8)] { zero with af := 0x81ff#16 }) = some (0x03c5#16, 0x0001#16) := by decide

/-- 44_rlca_ex R260, second row. -/
theorem test_rlca_keeps_zero_flag : view (fun t => (t.regs.af, t.regs.pc))
    (launch [(0, 0x07#8)] { zero with af := 0x0040#16 }) = some (0x0040#16, 0x0001#16) := by decide

/-- 44_rlca_ex R261. -/
theorem test_exAfAf : view (fun t => (t.regs.af, t.regs.afShadow, t.regs.bcShadow, t.regs.pc))
    (launch [(0, 0x08#8)] { zero with af := 0x1234#16, afShadow := 0xabcd#16, bcShadow := 0x2222#16 }) = some (0xabcd#16, 0x1234#16, 0x2222#16, 0x0001#16) := by decide

/-- 45_add16 R271. -/
theorem test_addHlBc : view (fun t => (t.regs.hl, t.regs.bc, t.regs.af, t.regs.pc))
    (launch [(0, 0x09#8)] { zero with hl := 0x0fff#16, bc := 0x0001#16, af := 0x0000#16 }) = some (0x1000#16, 0x0001#16, 0x0010#16, 0x0001#16) := by decide

/-- 45_add16 R272. -/
theorem test_addHlDe : view (fun t => (t.regs.hl, t.regs.de, t.regs.af, t.regs.pc))
    (launch [(0, 0x19#8)] { zero with hl := 0x8000#16, de := 0x8000#16, af := 0x00ff#16 }) = some (0x0000#16, 0x8000#16, 0x00c5#16, 0x0001#16) := by decide

/-- 45_add16 R273. -/
theorem test_addHlHl : view (fun t => (t.regs.hl, t.regs.af, t.regs.pc))
    (launch [(0, 0x29#8)] { zero with hl := 0x8800#16, af := 0x0000#16 }) = some (0x1000#16, 0x0011#16, 0x0001#16) := by decide

/-- 45_add16 R274. -/
theorem test_addHlSp : view (fun t => (t.regs.hl, t.regs.sp, t.regs.af, t.regs.pc))
    (launch [(0, 0x39#8)] { zero with hl := 0xffff#16, sp := 0x0001#16, af := 0x00c4#16 }) = some (0x0000#16, 0x0001#16, 0x00d5#16, 0x0001#16) := by decide

/-- 45_add16 R276, from the opcode byte on. -/
theorem test_addIxBc : view (fun t => (t.regs.ix, t.regs.bc, t.regs.af, t.regs.pc))
    (pending 0xdd#8 [(0, 0x09#8)] { zero with ix := 0x0fff#16, bc := 0x0001#16, af := 0x0000#16 }) = some (0x1000#16, 0x0001#16, 0x0010#16, 0x0001#16) := by decide

/-- 45_add16 R277, from the opcode byte on. -/
theorem test_addIxDe : view (fun t => (t.regs.ix, t.regs.de, t.regs.af, t.regs.pc))
    (pending 0xdd#8 [(0, 0x19#8)] { zero with ix := 0x1234#16, de := 0x1111#16, af := 0x0001#16 }) = some (0x2345#16, 0x1111#16, 0x0020#16, 0x0001#16) := by decide

/-- 45_add16 R278, from the opcode byte on. -/
theorem test_addIxIx : view (fun t => (t.regs.ix, t.regs.af, t.regs.hl, t.regs.pc))
    (pending 0xdd#8 [(0, 0x29#8)] { zero with ix := 0x4800#16, af := 0x0002#16, hl := 0x5a5a#16 }) = some (0x9000#16, 0x0010#16, 0x5a5a#16, 0x0001#16) := by decide

/-- 45_add16 R279, from the opcode byte on. -/
theorem test_addIxSp : view (fun t => (t.regs.ix, t.regs.sp, t.regs.af, t.regs.pc))
    (pending 0xdd#8 [(0, 0x39#8)] { zero with ix := 0xf000#16, sp := 0x1000#16, af := 0x0000#16 }) = some (0x0000#16, 0x1000#16, 0x0001#16, 0x0001#16) := by decide

/-- 45_add16 R281, from the opcode byte on. -/
theorem test_addIyBc : view (fun t => (t.regs.iy, t.regs.bc, t.regs.af, t.regs.pc))
    (pending 0xfd#8 [(0, 0x09#8)] { zero with iy := 0x00ff#16, bc := 0x0001#16, af := 0x00ff#16 }) = some (0x0100#16, 0x0001#16, 0x00c4#16, 0x0001#16) := by decide

/-- 45_add16 R282, from the opcode byte on. -/
theorem test_addIyDe : view (fun t => (t.regs.iy, t.regs.de, t.regs.af, t.regs.pc))
    (pending 0xfd#8 [(0, 0x19#8)] { zero with iy := 0x7fff#16, de := 0x0001#16, af := 0x0000#16 }) = some (0x8000#16, 0x0001#16, 0x0010#16, 0x0001#16) := by decide

/-- 45_add16 R283, from the opcode byte on. -/
theorem test_addIyIy : view (fun t => (t.regs.iy, t.regs.af, t.regs.pc))
    (pending 0xfd#8 [(0, 0x29#8)] { zero with iy := 0xffff#16, af := 0x0000#16 }) = some (0xfffe#16, 0x0039#16, 0x0001#16) := by decide

/-- 45_add16 R284, from the opcode byte on. -/
theorem test_addIySp : view (fun t => (t.regs.iy, t.regs.sp, t.regs.af, t.regs.pc))
    (pending 0xfd#8 [(0, 0x39#8)] { zero with iy := 0x0800#16, sp := 0x0800#16, af := 0x0013#16 }) = some (0x1000#16, 0x0800#16, 0x0010#16, 0x0001#16) := by decide

/-! ### Control, from spec/41 and 95_test_vectors V-CTL, E1, E5, E7, V-INT, V-RST -/

/-- 41_nop_halt_prefix R180 and 95_test_vectors E2. -/
theorem test_nop : view (fun t => (t.regs, t.totals))
    (launch [] { zero with af := 0x12d7#16, bc := 0x3456#16 }) =
    some ({ zero with af := 0x12d7#16, bc := 0x3456#16, pc := 0x0001#16, r := 0x01#8 },
      { ticks := 8#64, mcycles := 1#64, instrs := 1#64 }) := by decide

/-- V-CTL: `00` at 0xFFFF wraps; E5: `R` of 0xFF becomes 0x80. -/
theorem test_nop_wraps : view (fun t => (t.regs.pc, t.regs.r))
    (launch [] { zero with pc := 0xffff#16, r := 0xff#8 }) = some (0x0000#16, 0x80#8) := by decide

/-- V-CTL, row `76`. -/
theorem test_halt : view (fun t => (t.ctl.haltf, t.bus.halt, t.regs.pc, t.totals.instrs, t.totals.mcycles, t.regs.r))
    (launch [(0, 0x76#8)] zero) = some (true, true, 0x0001#16, 1#64, 1#64, 0x01#8) := by decide

/-- 60_exceptions R315: the hold shows `ADDR = PC` and `M1 MREQ RD HALT`; only `TICKS` moves. -/
theorem test_halted_hold : view (fun t => (t.bus.addr, t.bus.m1, t.bus.mreq, t.bus.rd, t.bus.halt, t.totals.ticks))
    { launch [] { zero with pc := 0x0001#16 } with ctl.haltf := true, bus.halt := true } =
    some (0x0001#16, true, true, true, true, 2#64) := by decide

/-- V-CTL, row `DD`. -/
theorem test_prefixIx : view (fun t => (t.seq.opacc, t.regs.pc, t.seq.step, t.totals.mcycles, t.totals.instrs, t.regs.r))
    (launch [(0, 0xdd#8), (1, 0x23#8)] { zero with ix := 0x00ff#16 }) =
    some (0xdddd#16, 0x0001#16, 0#8, 1#64, 0#64, 0x01#8) := by decide

/-- 41_nop_halt_prefix R183. -/
theorem test_prefixIy : view (fun t => (t.seq.opacc, t.regs.pc, t.totals.mcycles, t.totals.instrs))
    (launch [(0, 0xfd#8), (1, 0x2b#8)] zero) = some (0xfdfd#16, 0x0001#16, 1#64, 0#64) := by decide

/-- V-CTL, row `C3` under `noop`. -/
theorem test_unrecognised_noop :
    view (fun t => (t.regs.pc, t.ctl.unsup, t.ctl.unsupOp, t.totals.instrs, t.regs.r, t.seq.opacc))
    (launch [(0, 0xc3#8)] zero) = some (0x0001#16, true, 0x00c3#16, 1#64, 0x01#8, 0x00c3#16) := by decide

/-- V-CTL, row `C3` under `strict`. -/
theorem test_unrecognised_strict :
    view (fun t => (t.regs.pc, t.ctl.unsupOp, t.ctl.stopped, t.seq.step, t.totals.instrs, t.bus.rfsh))
    { launch [(0, 0xc3#8)] zero with cfg.policy := .strict } =
    some (0x0000#16, 0x00c3#16, true, 2#8, 0#64, true) := by decide

/-- E1, last row: `01 34 12` at 0xFFFE. -/
theorem test_operands_wrap : view (fun t => (t.regs.bc, t.regs.pc))
    (launch [(0, 0x12#8), (0xfffe, 0x01#8), (0xffff, 0x34#8)] { zero with pc := 0xfffe#16 }) =
    some (0x1234#16, 0x0001#16) := by decide

/-- E7, N = 1: one stalled T2 of the fetch costs two ticks and nothing else. -/
theorem test_wait_stall : view (fun t => (t.totals.ticks, t.totals.mcycles, t.regs.r))
    { launch [] zero with inputs := [.idle .high, .idle .low, .idle .high, waiting .low] } =
    some (10#64, 1#64, 0x01#8) := by decide

/-- E3: after tick 12 the pair holds its old high half and the new low half. -/
theorem test_half_loaded_pair :
    let s := clockN 12 (launch [(0, 0x01#8), (1, 0x34#8), (2, 0x12#8)] { zero with bc := 0xaaaa#16 })
    (s.regs.bc, s.seq.tmp) = (0xaa34#16, 0x34#8) := by decide

/-- V-INT, third row: both lines at M1 T4 low, `NMI` wins and the flip-flops stay. -/
theorem test_sample_priority :
    let s := (tick { TickIn.idle .low with int := true, nmi := true }
      { clockN 7 (launch [] zero) with ctl.iff1 := true, ctl.iff2 := true }).1
    (s.ctl.intact, s.regs.pc, s.ctl.iff1, s.ctl.iff2) = (.nmi, 0x0001#16, true, true) := by decide

/-- V-INT, fourth row: a bus request gates both lines. -/
theorem test_sample_gated_by_busreq :
    (tick { TickIn.idle .low with int := true, nmi := true, busreq := true }
      { clockN 7 (launch [] zero) with ctl.iff1 := true, ctl.iff2 := true }).1.ctl.intact = .none := by decide

/-- 40_sequencer R133: a tick at the wrong level is ignored. -/
theorem test_ignored_tick : tick (.idle .low) State.reset = (State.reset, .ignored) := by decide

/-! ### Words placed by `withFetchWord` run as the first instruction after reset -/

theorem test_withFetchWord_plain : view (fun t => (t.regs.bc, t.flags))
    (State.reset.withFetchWord 16 0x0004) = some (0x0100#16, 0x00#8) := by decide

theorem test_withFetchWord_operands : view (fun t => t.regs.ix)
    (State.reset.withFetchWord 32 0x1234dd21) = some 0x1234#16 := by decide
/-! ### Witnesses: for every obligation with hypotheses, states and operands that meet them together -/

/-- A machine with the opcode byte `b` at 0x0000, pairs that point at 0x0001, and the parameters of the spec's defaults. -/
def ready1 (b : Byte) : State :=
  launch [(0, b)] { zero with bc := 0x0001#16, de := 0x0001#16, hl := 0x0001#16, af := 0x5aff#16 }

theorem witness_DecodeOfBodyGivesInstruction :
    (Instr.ldIyNn 0xffff#16).wellFormed = true ∧ (Instr.unrecognised 0xfd00#16).wellFormed = true ∧
    Instr.prefixIx.wellFormed = true := by decide

theorem witness_DecodeOfEncodeInMemory :
    (Instr.ldAN 0xff#8).wellFormed = true ∧ Instr.ldAN 0xff#8 ≠ .prefixIx ∧ Instr.ldAN 0xff#8 ≠ .prefixIy := by decide

theorem witness_DecodedBytesAreTheBody :
    decode 0xdd#8 [0x21#8, 0xff#8, 0x0f#8, 0x76#8] = .ok (.ldIxNn 0x0fff#16, [0x76#8]) := by decide

theorem witness_EveryOpcodeByteDecodes :
    isPendingByte 0x00#8 = true ∧ isPendingByte 0xdd#8 = true ∧ isPendingByte 0xfd#8 = true := by decide

theorem witness_NoFallbackToUnprefixed :
    isPendingByte 0xdd#8 = true ∧ isTableOpcode (joinBytes 0xdd#8 0x04#8) = false ∧
    isPendingByte 0x00#8 = true ∧ isTableOpcode (joinBytes 0x00#8 0xff#8) = false := by decide

theorem witness_HalvesAreViewsOfPairs :
    Pair.ix ≠ Pair.iy ∧ Reg8.b ≠ Reg8.c ∧ Pair.sp ≠ Reg8.home .l := by decide

/-- Both branches: the written address and another, at the two ends of the space. -/
theorem witness_ReadAfterWrite :
    Memory.wf [(0, 0x01#8), (0xffff, 0xff#8)] = true ∧ (0x0000#16 : Word) ≠ 0xffff#16 := by decide

/-- A state that a service reads in, one that it writes in, and one where the backend accepts no write. -/
theorem witness_BackendService :
    let s := clockN 2 (ready1 0x3e#8)
    let w := clockN 10 (ready1 0x02#8)
    s.mem.wf = true ∧ (s.bus.mreq && s.bus.rd && !s.bus.rfsh) = true ∧
    w.mem.wf = true ∧ (w.bus.mreq && w.bus.wr && !w.bus.rfsh && writable w.cfg w.bus.addr) = true ∧
    writable { policy := .noop, readOnly := [⟨0, 2⟩] } w.bus.addr = false := by decide

theorem witness_IncRegisterResult : (Instr.incA, Reg8.a) ∈ incRegForms ∧ (ready1 0x3c#8).ready = true := by decide
theorem witness_DecRegisterResult : (Instr.decL, Reg8.l) ∈ decRegForms ∧ (ready1 0x2d#8).ready = true := by decide
theorem witness_IncPairResult : (Instr.incSp, Pair.sp) ∈ incPairForms ∧ (ready1 0x33#8).ready = true := by decide
theorem witness_DecPairResult : (Instr.decBc, Pair.bc) ∈ decPairForms ∧ (ready1 0x0b#8).ready = true := by decide

theorem witness_LoadRegisterResult :
    (Instr.ldHN 0xff#8, Reg8.h) ∈ loadRegForms 0xff#8 ∧ (ready1 0x26#8).ready = true := by decide

theorem witness_LoadPairResult :
    (Instr.ldIxNn 0xffff#16, Pair.ix) ∈ loadPairForms 0xffff#16 ∧
    (pending 0xdd#8 [(0, 0x21#8)] zero).ready = true := by decide

/-- An address that accepts the write, one that does not, and one outside the stored byte. -/
theorem witness_StoreResult :
    (Instr.ldAtHlA, Pair.hl) ∈ storeForms ∧ (ready1 0x77#8).ready = true ∧ (ready1 0x77#8).mem.wf = true ∧
    writable (ready1 0x77#8).cfg ((ready1 0x77#8).pair .hl) = true ∧
    writable { policy := .noop, readOnly := [⟨1, 1⟩] } ((ready1 0x77#8).pair .hl) = false ∧
    (0x0000#16 : Word) ≠ (ready1 0x77#8).pair .hl := by decide

theorem witness_RotateResult : (ready1 0x07#8).ready = true := by decide
theorem witness_ExchangeResult : (ready1 0x08#8).ready = true := by decide

theorem witness_AddPairResult :
    (Instr.addIyIy, Pair.iy, Pair.iy) ∈ addForms ∧ (pending 0xfd#8 [(0, 0x29#8)] zero).ready = true := by decide

theorem witness_NopResult : State.reset.ready = true := by decide
theorem witness_HaltResult : (ready1 0x76#8).ready = true := by decide

/-- With a schedule that holds a wait, an ignored tick and an asserted interrupt line. -/
theorem witness_ready_with_schedule :
    ({ ready1 0x76#8 with inputs := [.idle .low, .idle .high, waiting .low, { TickIn.idle .high with nmi := true }] } :
      State).ready = true := by decide

theorem witness_PrefixByteResult :
    (Instr.prefixIx, 0xdd#8) ∈ [(Instr.prefixIx, 0xdd#8), (Instr.prefixIy, 0xfd#8)] ∧
    (ready1 0xdd#8).ready = true ∧ (ready1 0xdd#8).mem.read (ready1 0xdd#8).regs.pc = 0xdd#8 := by decide

theorem witness_UnrecognisedNoopResult : (ready1 0xc3#8).ready = true ∧ (ready1 0xc3#8).cfg.policy = .noop := by decide

theorem witness_UnrecognisedStrictStops :
    ({ ready1 0xc3#8 with cfg.policy := .strict } : State).ready = true ∧ (TickIn.idle .high).reset = false := by decide

theorem witness_IndexIncDecInMemory :
    let s := launch [(0, 0xfd#8), (1, 0x2b#8)] zero
    (0xfd#8, 0x2b#8, Pair.iy, 0xffff#16) ∈
      [(0xdd#8, 0x23#8, Pair.ix, 1#16), (0xdd#8, 0x2b#8, .ix, 0xffff#16),
       (0xfd#8, 0x23#8, .iy, 1#16), (0xfd#8, 0x2b#8, .iy, 0xffff#16)] ∧
    s.ready = true ∧ s.pendingByte = 0x00#8 ∧ s.mem.read s.regs.pc = 0xfd#8 ∧
    s.mem.read (s.regs.pc + 1#16) = 0x2b#8 := by decide

theorem witness_IndexLoadInMemory :
    let s := launch [(0, 0x21#8), (1, 0xff#8), (2, 0x0f#8), (0xffff, 0xdd#8)] { zero with pc := 0xffff#16 }
    s.ready = true ∧ s.pendingByte = 0x00#8 ∧ s.mem.read s.regs.pc = 0xdd#8 ∧
    s.mem.read (s.regs.pc + 1#16) = 0x21#8 ∧ s.mem.read (s.regs.pc + 2#16) = 0xff#8 ∧
    s.mem.read (s.regs.pc + 3#16) = 0x0f#8 := by decide

theorem witness_IndexAddInMemory :
    let s := launch [(0, 0xdd#8), (1, 0x39#8)] zero
    s.ready = true ∧ s.pendingByte = 0x00#8 ∧ s.mem.read s.regs.pc = 0xdd#8 ∧
    s.mem.read (s.regs.pc + 1#16) = 0x39#8 := by decide

/-- Both clauses: an 8-bit and a 16-bit load. -/
theorem witness_ImmediatesComeFromMemory :
    (ready1 0x3e#8).ready = true ∧ (ready1 0x3e#8).pendingByte = 0x00#8 ∧
    (ready1 0x3e#8).mem.read (ready1 0x3e#8).regs.pc = 0x3e#8 ∧
    (ready1 0x31#8).ready = true ∧ (ready1 0x31#8).pendingByte = 0x00#8 ∧
    (ready1 0x31#8).mem.read (ready1 0x31#8).regs.pc = 0x31#8 := by decide

theorem witness_StoreReachesNextFetch :
    let s := ready1 0x77#8
    s.ready = true ∧ s.mem.wf = true ∧ s.pendingByte = 0x00#8 ∧ s.mem.read s.regs.pc = 0x77#8 ∧
    s.pair .hl = s.regs.pc + 1#16 ∧ writable s.cfg (s.pair .hl) = true := by decide

theorem witness_StepRunsDecodedInstruction :
    let s := launch [(0, 0x01#8), (1, 0x34#8), (2, 0x12#8)] zero
    (Instr.ldBcNn 0x1234#16).wellFormed = true ∧ s.atFetch = true ∧
    s.pendingByte = (Instr.ldBcNn 0x1234#16).pendingByte ∧
    s.streamBytes = (Instr.ldBcNn 0x1234#16).body ++ [] := by decide

theorem witness_StepKeepsInvariant :
    State.reset.inv = true ∧ State.reset.mem.wf = true ∧ ∃ t, step State.reset = .next t :=
  ⟨by decide, by decide, _, rfl⟩

/-- An invariant state in mid-instruction, and a frozen one. -/
theorem witness_StepKeepsInvariant_elsewhere :
    (clockN 11 (ready1 0x02#8)).inv = true ∧
    (clockN 6 { ready1 0xc3#8 with cfg.policy := .strict }).inv = true ∧
    (clockN 6 { ready1 0xc3#8 with cfg.policy := .strict }).ctl.stopped = true := by decide

theorem witness_ResetIsReadyWithInvariant :
    State.reset.noReset = true ∧ (TickIn.idle .high).clk = .high ∧ (TickIn.idle .high).reset = false := by decide

theorem witness_ReachableStatesKeepR57 :
    TickReachable State.reset (tick (.idle .high) { State.reset.resetOp with bus.data := 0xff#8, mem := [], inputs := [] }).1 :=
  .tick _ (.backend _ _ _ .reset)

theorem witness_OnlyStoresWriteMemory :
    let s := ready1 0x3e#8
    s.atFetch = true ∧ decode s.pendingByte s.streamBytes = .ok (.ldAN 0x00#8, [0x00#8]) ∧
    Instr.ldAN 0x00#8 ≠ .ldAtBcA ∧ Instr.ldAN 0x00#8 ≠ .ldAtDeA ∧ Instr.ldAN 0x00#8 ≠ .ldAtHlA := by decide

theorem witness_EveryInstructionCompletes :
    Instr.addIxSp.wellFormed = true ∧ (pending 0xdd#8 [(0, 0x39#8)] zero).ready = true ∧
    (pending 0xdd#8 [(0, 0x39#8)] zero).mem.wf = true ∧ (pending 0xdd#8 [(0, 0x39#8)] zero).cfg.policy = .noop := by decide

/-- The four cases, on one state each: a reset tick, a stopped engine, the wrong level, an accepted tick. -/
theorem witness_TickOrderOfEvaluation :
    ({ TickIn.idle .low with reset := true } : TickIn).reset = true ∧
    (clockN 6 { ready1 0xc3#8 with cfg.policy := .strict }).ctl.stopped = true ∧
    (TickIn.idle .low).clk ≠ State.reset.seq.ph ∧
    (TickIn.idle .high).clk = State.reset.seq.ph ∧ State.reset.ctl.stopped = false := by decide

theorem witness_ResetIdempotentAndTotal : ({ TickIn.idle .low with reset := true } : TickIn).reset = true := by decide

theorem witness_FetchShowsTheBusTable :
    let s := ready1 0x04#8
    s.ready = true ∧ s.inputs = [] ∧ s.bus.quiet = true ∧ s.cfg.policy = .noop ∧
    decode s.pendingByte s.streamBytes = .ok (.incB, [0x00#8, 0x00#8]) ∧ (entryOf .incB).cycles = 1 := by decide

/-- T4 high of a fetch and of an operand read, and T4 high of a memory write, where `PC` stays. -/
theorem witness_PcChangesOnlyThreeWays :
    (clockN 6 (ready1 0x3e#8)).accepts (.idle .high) = true ∧ (clockN 6 (ready1 0x3e#8)).atStreamT4 = true ∧
    (clockN 14 (ready1 0x3e#8)).accepts (.idle .high) = true ∧ (clockN 14 (ready1 0x3e#8)).atStreamT4 = true ∧
    (clockN 14 (ready1 0x02#8)).accepts (.idle .high) = true ∧ (clockN 14 (ready1 0x02#8)).atStreamT4 = false := by decide

theorem witness_RefreshOnlyAtM1T4Low :
    (clockN 7 State.reset).accepts (.idle .low) = true ∧ (clockN 7 State.reset).seq.step = 3#8 := by decide

theorem witness_StepCounterMoves : (TickIn.idle .low).reset = false ∧ (clockN 7 State.reset).accepts (.idle .low) = true := by
  decide

theorem witness_StatusIsNeverRead :
    SameButUnread State.reset { State.reset with seq.tmp := 0xff#8, ctl.intact := .nmi, ctl.im := .im2 } ∧
    State.reset ≠ { State.reset with seq.tmp := 0xff#8, ctl.intact := .nmi, ctl.im := .im2 } :=
  ⟨rfl, by decide⟩

/-- T2 low of a fetch, of an operand read and of a memory write, and an internal cycle's, which is none. -/
theorem witness_WaitOnlyAtT2Low :
    (clockN 3 (ready1 0x3e#8)).accepts (waiting .low) = true ∧ (clockN 3 (ready1 0x3e#8)).atT2 = true ∧
    (clockN 11 (ready1 0x3e#8)).accepts (waiting .low) = true ∧ (clockN 11 (ready1 0x3e#8)).atT2 = true ∧
    (clockN 11 (ready1 0x02#8)).accepts (waiting .low) = true ∧ (clockN 11 (ready1 0x02#8)).atT2 = true ∧
    (waiting .low).clk = .low ∧ (waiting .low).wait = true ∧
    (clockN 11 (ready1 0x09#8)).atT2 = false := by decide

theorem witness_HoldAtM1T1Low :
    (clockN 1 State.reset).accepts (.idle .low) = true ∧ (TickIn.idle .low).clk = .low ∧
    (clockN 1 State.reset).seq.step = 0#8 := by decide

/-- With a schedule that asserts both interrupt lines while the flip-flops are clear. -/
theorem witness_HaltedHoldIsAFixedPoint :
    let s : State := { ready1 0x3c#8 with ctl.haltf := true, bus.halt := true,
                                          inputs := [{ TickIn.idle .high with int := true, nmi := true }] }
    s.atFetch = true ∧ s.noReset = true ∧ s.ctl.haltf = true ∧ (∀ l ∈ s.inputs, s.interruptPending l = false) := by decide

/-- The sample point with an interrupt taken there, and the completion of `HALT` there. -/
theorem witness_InterruptSampleOutcome :
    let s : State := { clockN 7 (ready1 0x76#8) with ctl.iff1 := true, ctl.iff2 := true }
    (TickIn.idle .low).reset = false ∧ s.accepts (.idle .low) = true ∧ s.seq.step = 3#8 ∧ s.seq.opacc = 0x0076#16 ∧
    s.ctl.iff1 = true ∧ s.ctl.iff2 = true := by decide

theorem witness_InterruptLinesOnlyAtTheirPoints :
    ¬ ((clockN 5 State.reset).accepts (.idle .low) = true ∧ (TickIn.idle .low).clk = .low ∧
      ((clockN 5 State.reset).seq.step = 3#8 ∨
        ((clockN 5 State.reset).seq.step = 0#8 ∧ (clockN 5 State.reset).ctl.haltf = true))) := by decide

theorem witness_TotalsCount : (TickIn.idle .low).reset = false := by decide

end Sys2Proof.Tests
end

namespace Sys2Proof.Machine

/-! ### What the decoder accepts -/

/-- A row's instruction carries the row's effective opcode and the operand bytes it was made from. -/
def RowFits (r : TableRow) : Prop :=
  ∀ b1 b2 : Byte, (r.make b1 b2).opcode = r.op ∧ (r.make b1 b2).wellFormed = true ∧
    (r.make b1 b2).operands = [b1, b2].take (r.make 0#8 0#8).operandCount

theorem opcodeTable_rowFits : ∀ r ∈ opcodeTable, RowFits r := by
  simp only [opcodeTable, opcodeTablePlainA, opcodeTablePlainB, opcodeTableIx, opcodeTableIy,
    List.forall_mem_append, List.forall_mem_cons, List.not_mem_nil, false_imp_iff, implies_true,
    and_true]
  and_intros <;> intro b1 b2 <;>
    simp [Instr.opcode, Instr.wellFormed, Instr.operands, Instr.operandCount]

/-- The table's instruction for an effective opcode a fetch can form, with two bytes after the opcode byte: it is well
formed, has this opcode, and its operands are as many of the bytes as it has immediates (30_encoding R108, R109). -/
theorem lookup_spec {op : Word} (h : isPendingByte (hiByte op) = true) (b1 b2 : Byte) :
    (lookup op b1 b2).opcode = op ∧ (lookup op b1 b2).wellFormed = true ∧
      (lookup op b1 b2).operands = [b1, b2].take (lookup op 0#8 0#8).operandCount := by
  cases hop : isTableOpcode op with
  | true =>
    obtain ⟨r, hr, rfl, hfind⟩ := find_some_of_entry hop
    simpa only [lookup, hfind] using opcodeTable_rowFits r hr b1 b2
  | false =>
    have hwf : (Instr.unrecognised op).wellFormed = true := by
      rw [Instr.wellFormed, hop]; exact h
    simp only [lookup_of_not_entry hop]
    exact ⟨rfl, hwf, rfl⟩

/-- What the decoder accepts is a well-formed instruction with the pending byte it needs, and the bytes are its own
followed by the rest (30_encoding R105, R111). -/
theorem decode_ok {p : Byte} {bytes rest : List Byte} {i : Instr} (h : decode p bytes = .ok (i, rest)) :
    i.wellFormed = true ∧ p = i.pendingByte ∧ bytes = i.body ++ rest := by
  unfold decode at h
  split at h
  case isFalse => cases h
  case isTrue hp =>
    cases bytes with
    | nil => cases h
    | cons b tail =>
      have spec := lookup_spec (op := joinBytes p b) (by rwa [hiByte_joinBytes])
      simp only at h
      split at h
      case h_1 hc =>
        cases h
        obtain ⟨hop, hwf, hargs⟩ := spec 0#8 0#8
        simp [Instr.pendingByte, Instr.body, hop, hwf, hargs, hc]
      case h_2 n rest' hc =>
        cases h
        obtain ⟨hop, hwf, hargs⟩ := spec n 0#8
        simp [Instr.pendingByte, Instr.body, hop, hwf, hargs, hc]
      case h_3 lo hi rest' hc =>
        cases h
        obtain ⟨hop, hwf, hargs⟩ := spec lo hi
        simp [Instr.pendingByte, Instr.body, hop, hwf, hargs, hc]
      case h_4 => cases h

/-! ### A step is rounds of the host's loop -/

/-- Every step is one or more rounds of service and tick (40_sequencer R130, 70_reset R365). -/
theorem step_eq_clockN (s : State) : ∃ n, 0 < n ∧ step s = .next (clockN n s) := by
  unfold step
  split
  case isFalse => exact ⟨1, Nat.one_pos, rfl⟩
  case isTrue hf =>
    split
    case h_2 => exact ⟨1, Nat.one_pos, rfl⟩
    case h_1 i rest hd =>
      obtain ⟨hwf, hp, hbytes⟩ := decode_ok hd
      obtain ⟨n, hpos, hrun⟩ := runEntry_rounds (OnTheWay.begin i hf) hwf hp hbytes
        (runBound ((entryOf i).withOperands i.operands) s)
      have hfuel : 0 < runBound ((entryOf i).withOperands i.operands) s := by
        simp only [runBound, Config.tStates, Config.ticksPerTState, Entry.cycles]; omega
      exact ⟨n, hpos hfuel, by rw [exec_eq_runInstr, runInstr, hrun]⟩

/-! ### What an accepted tick leaves alone -/

/-- What no action of an accepted tick writes; `INTACT` stays as long as `IFF1` is clear (10_state R23, R27, R39, R55,
60_exceptions R303, R312). -/
structure Untouched (s t : State) : Prop where
  bcShadow : t.regs.bcShadow = s.regs.bcShadow
  deShadow : t.regs.deShadow = s.regs.deShadow
  hlShadow : t.regs.hlShadow = s.regs.hlShadow
  i        : t.regs.i = s.regs.i
  iff1     : t.ctl.iff1 = s.ctl.iff1
  iff2     : t.ctl.iff2 = s.ctl.iff2
  im       : t.ctl.im = s.ctl.im
  intact   : s.ctl.iff1 = false → t.ctl.intact = s.ctl.intact
  cfg      : t.cfg = s.cfg
  inputs   : t.inputs = s.inputs
  mem      : t.mem = s.mem

theorem Untouched.refl (s : State) : Untouched s s :=
  ⟨rfl, rfl, rfl, rfl, rfl, rfl, rfl, fun _ => rfl, rfl, rfl, rfl⟩

theorem Untouched.trans {s t u : State} (h : Untouched s t) (k : Untouched t u) : Untouched s u where
  bcShadow := k.bcShadow.trans h.bcShadow
  deShadow := k.deShadow.trans h.deShadow
  hlShadow := k.hlShadow.trans h.hlShadow
  i := k.i.trans h.i
  iff1 := k.iff1.trans h.iff1
  iff2 := k.iff2.trans h.iff2
  im := k.im.trans h.im
  intact := fun hf => (k.intact (h.iff1.trans hf)).trans (h.intact hf)
  cfg := k.cfg.trans h.cfg
  inputs := k.inputs.trans h.inputs
  mem := k.mem.trans h.mem

/-- An update of the sequencer, the bus, the totals, `PC`, `R`, the halt flag and the record of an unsupported opcode. -/
theorem Untouched.of_update (s : State) (q : Sequencer) (b : Bus) (n : Totals) (pc : Word) (r : Byte)
    (haltf unsup stopped : Bool) (op : Word) :
    Untouched s { s with
      seq := q, bus := b, totals := n, regs.pc := pc, regs.r := r, ctl.haltf := haltf, ctl.unsup := unsup,
      ctl.unsupOp := op, ctl.stopped := stopped } :=
  ⟨rfl, rfl, rfl, rfl, rfl, rfl, rfl, fun _ => rfl, rfl, rfl, rfl⟩


/-- The interrupt sample writes `INTACT`, the halt flag and the halt line only, and `INTACT` only with `IFF1` set. -/
theorem Untouched.sample (l : TickIn) (s : State) : Untouched s (s.sample l) := by
  unfold State.sample State.interruptsEnabled
  split
  case isFalse => exact .refl s
  case isTrue hen =>
    simp only [Bool.and_eq_true] at hen
    obtain ⟨⟨hiff, -⟩, -⟩ := hen
    have htake : ∀ k, Untouched s (s.takeInterrupt k) := fun k =>
      { Untouched.refl s with intact := fun hf => by rw [hf] at hiff; cases hiff }
    split
    · exact htake .nmi
    · split
      · exact htake .int
      · exact .refl s

theorem Untouched.effect (op : Word) (s : State) : Untouched s ((tableEntry op).effect s) := by
  obtain ⟨-, hi, -, hbc, hde, hhl, -, -, hmem, hcfg, hinputs, hctl, -⟩ := tableEntry_effect_regs op s
  exact ⟨hbc, hde, hhl, hi, by rw [hctl], by rw [hctl], by rw [hctl], fun _ => by rw [hctl], hcfg, hinputs, hmem⟩

theorem Untouched.latch {f : Byte → State → State} (h : LatchOnly f) (d : Byte) (s : State) : Untouched s (f d s) := by
  obtain ⟨g, k, hf, hg⟩ := h
  obtain ⟨-, hi, -, hbc, hde, hhl⟩ := hg d s.regs
  rw [hf]
  exact ⟨hbc, hde, hhl, hi, rfl, rfl, rfl, fun _ => rfl, rfl, rfl, rfl⟩

theorem Untouched.finish_effect (op : Word) (s : State) : Untouched s ((tableEntry op).effect s).finish :=
  (Untouched.effect op s).trans (.of_update ..)

theorem Untouched.dispatchEntry (op : Word) (s : State) : Untouched s (dispatchEntry (tableEntry op) s) := by
  unfold Machine.dispatchEntry
  split
  · exact .of_update ..
  · split
    · exact .finish_effect op s
    · exact .of_update ..
  · exact .finish_effect op s

theorem Untouched.m1T4Low (op : Word) (l : TickIn) (s : State) : Untouched s (m1T4Low (tableEntry op) l s) :=
  ((Untouched.sample l s).trans (.of_update ..)).trans (.dispatchEntry op _)

theorem Untouched.m1T1Low (l : TickIn) (s : State) : Untouched s (m1T1Low l s) := by
  unfold Machine.m1T1Low
  split <;> exact .of_update ..

theorem Untouched.m1T2Low (l : TickIn) (s : State) : Untouched s (m1T2Low l s) := by
  unfold Machine.m1T2Low
  split
  · exact .refl s
  · exact .of_update ..

theorem Untouched.m1T3Low (e : Entry) (s : State) : Untouched s (m1T3Low e s).1 := by
  unfold Machine.m1T3Low
  split
  · split <;> exact .of_update ..
  · exact .of_update ..
  · exact .of_update ..

/-! ### The registers that a tick moves: `PC` and `R` -/

/-- The cycle reads the instruction stream: only an operand read does (10_state R26). -/
def Cycle.readsStream : Cycle → Bool
  | .operandRead _ => true
  | .memoryWrite _ => false
  | .internal => false

theorem State.atStreamT4_later {s : State} {n : Nat} {c : Cycle} (h : s.seq.step.toNat = n + 4)
    (hc : (tableEntry s.seq.opacc).later[n / 4]? = some c) : s.atStreamT4 = (n % 4 == 3 && c.readsStream) := by
  unfold State.atStreamT4
  rw [h]
  cases c <;> simp [hc, Cycle.readsStream]

/-- What a tick of the later cycle `c` at T-state `t` does to the registers: `PC` moves at T4 high of an operand read, `R`
does not move (10_state R26, R28). -/
structure LaterFrame (c : Cycle) (t : Nat) (l : TickIn) (s s' : State) : Prop where
  untouched : Untouched s s'
  r  : s'.regs.r = s.regs.r
  pc : s'.regs.pc = if l.clk = .high ∧ t = 3 ∧ c.readsStream = true then s.regs.pc + 1#16 else s.regs.pc

theorem laterTick_frame {op : Word} {c : Cycle} {n t : Nat} (hc : (tableEntry op).later[n]? = some c) (ht : t < 4)
    (last : Bool) (l : TickIn) (s : State) : LaterFrame c t l s (laterTick (tableEntry op) c last t l s) := by
  apply laterTick_elim (P := LaterFrame c t l s) ht
  case hend =>
    intro ht hcl
    obtain ⟨hpc, -, hr, -⟩ := tableEntry_effect_regs op s
    unfold endCycle
    split
    · exact ⟨.finish_effect op s, hr, by simp [hcl, hpc]⟩
    · exact ⟨.of_update .., rfl, by simp [hcl]⟩
  case r1l =>
    intro f hf ht hcl _
    have hlatch : LatchOnly f := tableEntry_latch (hf ▸ hc)
    have ⟨g, k, hfg, hg⟩ := hlatch
    obtain ⟨hpc, -, hr, -⟩ := hg s.bus.data s.regs
    exact ⟨(Untouched.latch hlatch _ s).trans (.of_update ..), by simp [hfg, hr], by simp [hfg, hpc, hcl]⟩
  all_goals
    intros
    exact ⟨.of_update .., rfl, by simp [*, Cycle.readsStream]⟩

/-- An accepted tick leaves all that alone. -/
theorem tickAction_untouched (op : Word) (l : TickIn) (s : State) : Untouched s (tickAction (tableEntry op) l s).1 := by
  apply tickAction_elim (P := fun x => Untouched s x.1)
  case h0h => intros; exact .of_update ..
  case h0l => intros; exact .m1T1Low l s
  case h1h => intros; exact .refl s
  case h1l => intros; exact .m1T2Low l s
  case h2h => intros; exact .of_update ..
  case h2l => intros; exact .m1T3Low _ s
  case h3h => intros; exact .of_update ..
  case h3l => intros; exact .m1T4Low op l s
  case hn => intros; exact .refl s
  case hc => intro n c _ hc; exact (laterTick_frame hc (Nat.mod_lt n (by decide)) _ l s).untouched

@[simp] theorem m1T1Low_regs (l : TickIn) (s : State) : (m1T1Low l s).regs = s.regs := by
  unfold m1T1Low
  split <;> rfl

@[simp] theorem m1T2Low_regs (l : TickIn) (s : State) : (m1T2Low l s).regs = s.regs := by
  unfold m1T2Low
  split <;> rfl

@[simp] theorem m1T3Low_regs (e : Entry) (s : State) : (m1T3Low e s).1.regs = s.regs := by
  unfold m1T3Low
  split
  · split <;> rfl
  · rfl
  · rfl

theorem dispatchEntry_pc_r (op : Word) (s : State) :
    (dispatchEntry (tableEntry op) s).regs.pc = s.regs.pc ∧ (dispatchEntry (tableEntry op) s).regs.r = s.regs.r := by
  obtain ⟨hpc, -, hr, -⟩ := tableEntry_effect_regs op s
  unfold dispatchEntry
  split
  · exact ⟨rfl, rfl⟩
  · split
    · exact ⟨hpc, hr⟩
    · exact ⟨rfl, rfl⟩
  · exact ⟨hpc, hr⟩

/-- M1 T4 low steps `R` and leaves `PC` (40_sequencer R142, R143). -/
theorem m1T4Low_pc_r (op : Word) (l : TickIn) (s : State) :
    (m1T4Low (tableEntry op) l s).regs.pc = s.regs.pc ∧
      (m1T4Low (tableEntry op) l s).regs.r = refreshNext s.regs.r := by
  obtain ⟨hpc, hr⟩ := dispatchEntry_pc_r op { (s.sample l).stepRefresh with bus.rfsh := false }
  exact ⟨hpc.trans (by simp), hr.trans (by simp)⟩

/-- An accepted tick moves `PC` at T4 high of an opcode fetch or an operand read only (10_state R26). -/
theorem tickAction_pc (l : TickIn) (s : State) :
    (tickAction (tableEntry s.seq.opacc) l s).1.regs.pc =
      if l.clk = .high ∧ s.atStreamT4 = true then s.regs.pc + 1#16 else s.regs.pc := by
  apply tickAction_elim (P := fun x => x.1.regs.pc = _)
  case h3l =>
    intro _ hcl
    rw [(m1T4Low_pc_r s.seq.opacc l s).1]
    simp [hcl]
  case hn =>
    intro n hst hc
    simp [State.atStreamT4, hst, hc]
  case hc =>
    intro n c hst hc
    rw [(laterTick_frame hc (Nat.mod_lt n (by decide)) _ l s).pc, State.atStreamT4_later hst hc]
    simp
  all_goals
    intro hst hcl
    simp [State.atStreamT4, hst, hcl, m1T1High, m1T3High]

/-- An accepted tick moves `R` at M1 T4 low only (10_state R28). -/
theorem tickAction_r (op : Word) (l : TickIn) (s : State) :
    (tickAction (tableEntry op) l s).1.regs.r =
      if l.clk = .low ∧ s.seq.step = 3#8 then refreshNext s.regs.r else s.regs.r := by
  apply tickAction_elim (P := fun x => x.1.regs.r = _)
  case h3l =>
    intro hst hcl
    rw [(m1T4Low_pc_r op l s).2, if_pos ⟨hcl, hst⟩]
  case hn =>
    intro n hst _
    rw [if_neg (by rintro ⟨-, h3⟩; rw [h3] at hst; simp at hst)]
  case hc =>
    intro n c hst hc
    rw [(laterTick_frame hc (Nat.mod_lt n (by decide)) _ l s).r,
      if_neg (by rintro ⟨-, h3⟩; rw [h3] at hst; simp at hst)]
  all_goals
    intro hst hcl
    simp [hst, hcl, m1T1High, m1T3High]

/-! ### The tick: where the engine does not act -/

theorem State.accepts_iff (l : TickIn) (s : State) :
    s.accepts l = true ↔ l.reset = false ∧ s.ctl.stopped = false ∧ l.clk = s.seq.ph := by
  simp [State.accepts, and_assoc]

/-- The state after a tick: the reset, what the accepted tick's action makes of the counted state, or the state as it was
(40_sequencer R149). -/
theorem tick_state_cases (l : TickIn) (s : State) :
    (l.reset = true ∧ s.accepts l = false ∧ (tick l s).1 = s.resetOp) ∨
    (l.reset = false ∧ s.accepts l = true ∧
      (tick l s).1 = (tickAction (tableEntry s.seq.opacc) l s.acceptTick).1) ∨
    (l.reset = false ∧ s.accepts l = false ∧ (tick l s).1 = s) := by
  rcases tick_cases l s with ⟨hr, e⟩ | ⟨hr, hst, e⟩ | ⟨hr, -, hcl, e⟩ | ⟨hr, hst, hcl, e⟩
  · exact .inl ⟨hr, by simp [State.accepts, hr], by rw [e]⟩
  · exact .inr (.inr ⟨hr, by simp [State.accepts, hst], by rw [e]⟩)
  · exact .inr (.inr ⟨hr, by simp [State.accepts, hcl], by rw [e]⟩)
  · exact .inr (.inl ⟨hr, (State.accepts_iff l s).mpr ⟨hr, hst, hcl⟩, by rw [e]⟩)

/-- No tick writes memory, which the backend owns (10_state R55). -/
theorem tick_mem (l : TickIn) (s : State) : (tick l s).1.mem = s.mem := by
  rcases tick_state_cases l s with ⟨-, -, e⟩ | ⟨-, -, e⟩ | ⟨-, -, e⟩
  · rw [e]; rfl
  · rw [e]; exact (tickAction_untouched s.seq.opacc l s.acceptTick).mem
  · rw [e]

/-! ### Canonical memory along the rounds -/

/-- A round keeps the canonical form: the tick writes no memory and the service keeps it (20_memory R72, R76). -/
theorem clock_mem_wf {s : State} (h : s.mem.wf = true) : (clock s).1.mem.wf = true := by
  rw [clock, tick_mem]
  exact State.service_wf h

theorem clockN_mem_wf (n : Nat) {s : State} (h : s.mem.wf = true) : (clockN n s).mem.wf = true := by
  induction n generalizing s with
  | zero => exact h
  | succ n ih => exact ih (clock_mem_wf h)

/-- Settles O39: a step is rounds of the host's loop, and each round keeps the invariant and the canonical form. -/
theorem stepKeepsInvariant : Obligations.StepKeepsInvariant := by
  intro s t hinv hmem hstep
  obtain ⟨n, -, hn⟩ := step_eq_clockN s
  rw [hn] at hstep
  cases hstep
  exact ⟨clockN_inv n hinv, clockN_mem_wf n hmem⟩

/-- `PC` after a tick (10_state R26). -/
theorem tick_pc (l : TickIn) (s : State) :
    (tick l s).1.regs.pc =
      if l.reset then 0x0000#16
      else if s.accepts l && l.clk == .high && s.atStreamT4 then s.regs.pc + 1#16
      else s.regs.pc := by
  rcases tick_state_cases l s with ⟨hr, ha, e⟩ | ⟨hr, ha, e⟩ | ⟨hr, ha, e⟩
  · simp [e, hr]
  · have hpc : (tick l s).1.regs.pc = if l.clk = .high ∧ s.atStreamT4 = true then s.regs.pc + 1#16 else s.regs.pc := by
      rw [e]; exact tickAction_pc l s.acceptTick
    simp [hpc, hr, ha]
  · simp [e, hr, ha]

/-- Settles O48: an accepted tick moves `PC` at T4 high of a cycle that reads the instruction stream only. -/
theorem pcChangesOnlyThreeWays : Obligations.PcChangesOnlyThreeWays := tick_pc

/-- `R` after a tick (10_state R28). -/
theorem tick_r (l : TickIn) (s : State) :
    (tick l s).1.regs.r =
      if s.accepts l && l.clk == .low && s.seq.step == 3#8 then refreshNext s.regs.r else s.regs.r := by
  rcases tick_state_cases l s with ⟨-, ha, e⟩ | ⟨-, ha, e⟩ | ⟨-, ha, e⟩
  · simp [e, ha]
  · have hr : (tick l s).1.regs.r = if l.clk = .low ∧ s.seq.step = 3#8 then refreshNext s.regs.r else s.regs.r := by
      rw [e]; exact tickAction_r s.seq.opacc l s.acceptTick
    simp [hr, ha]
  · simp [e, ha]

/-- Settles O49: `R` steps at M1 T4 low, which a later machine cycle does not reach. -/
theorem refreshOnlyAtM1T4Low : Obligations.RefreshOnlyAtM1T4Low := tick_r

/-- No tick changes bit 7 of `R` (10_state R28). -/
theorem tick_r_top (l : TickIn) (s : State) : (tick l s).1.regs.r.getLsbD 7 = s.regs.r.getLsbD 7 := by
  rw [tick_r]
  split
  · exact refreshNext_top s.regs.r
  · rfl

/-- Settles O52: the action of an accepted tick leaves all of it alone, and so does the reset operation. -/
theorem tickNeverWrites : Obligations.TickNeverWrites := by
  intro l s
  have htop := tick_r_top l s
  rcases tick_state_cases l s with ⟨-, -, e⟩ | ⟨-, -, e⟩ | ⟨-, -, e⟩
  · rw [e] at htop ⊢
    exact ⟨rfl, rfl, rfl, rfl, htop, rfl, rfl, rfl, rfl⟩
  · have h : Untouched s (tick l s).1 := by
      rw [e]
      exact (Untouched.of_update s ..).trans (tickAction_untouched s.seq.opacc l s.acceptTick)
    exact ⟨h.bcShadow, h.deShadow, h.hlShadow, h.i, htop, h.im, h.cfg, h.inputs, h.mem⟩
  · rw [e]
    exact ⟨rfl, rfl, rfl, rfl, rfl, rfl, rfl, rfl, rfl⟩

/-! ### The invariants of R57 along a run -/

/-- The flip-flops are clear and no interrupt is active (10_state R57 (h)). -/
structure NoInterrupts (s : State) : Prop where
  iff1   : s.ctl.iff1 = false
  iff2   : s.ctl.iff2 = false
  intact : s.ctl.intact = .none

/-- With `IFF1` clear no sample takes an interrupt (60_exceptions R303, R312). -/
theorem NoInterrupts.tick {s : State} (h : NoInterrupts s) (l : TickIn) : NoInterrupts (tick l s).1 := by
  rcases tick_state_cases l s with ⟨-, -, e⟩ | ⟨-, -, e⟩ | ⟨-, -, e⟩
  · rw [e]; exact ⟨rfl, rfl, rfl⟩
  · have k := tickAction_untouched s.seq.opacc l s.acceptTick
    rw [e]
    exact ⟨k.iff1.trans h.iff1, k.iff2.trans h.iff2, (k.intact h.iff1).trans h.intact⟩
  · rw [e]; exact h

/-- The invariant of every tick, the launch value of bit 7 of `R`, and no interrupts, hold of what a reset and any ticks
lead to (10_state R57). -/
theorem TickReachable.invariant {s0 s : State} (h : TickReachable s0 s) :
    s.inv = true ∧ s.regs.r.getLsbD 7 = s0.regs.r.getLsbD 7 ∧ NoInterrupts s := by
  induction h with
  | reset => exact ⟨inv_resetOp s0, rfl, rfl, rfl, rfl⟩
  | tick l _ ih =>
    obtain ⟨hinv, htop, hno⟩ := ih
    exact ⟨tick_inv l hinv, (tick_r_top l _).trans htop, hno.tick l⟩
  | backend d m ls _ ih =>
    obtain ⟨hinv, htop, ⟨h1, h2, h3⟩⟩ := ih
    exact ⟨(inv_backend _ d m ls).trans hinv, htop, h1, h2, h3⟩

/-- No cycle asserts `RD` and `WR` at once (40_sequencer R150, R155, R158). -/
theorem Cycle.levels_not_both (c : Cycle) (t : Nat) (p : Level) : (c.levels t p).2 ≠ (true, true) := by
  cases c <;> simp only [Cycle.levels] <;> (try split) <;> decide

/-- Lines that fit `STEP` and `PH`: a `STEP` of 4 and more is in a machine cycle of the entry in force, a read and a write
exclude each other, and the refresh excludes both (10_state R57 (f), (g)). -/
theorem State.linesFit_bounds {s : State} (h : s.linesFit = true) :
    s.seq.step.toNat ≤ 11 ∧ (4 ≤ s.seq.step.toNat → 1 < (tableEntry s.seq.opacc).cycles) ∧
      ¬ (s.bus.wr = true ∧ s.bus.rd = true) ∧ (s.bus.rfsh = true → s.bus.rd = false ∧ s.bus.wr = false) := by
  by_cases hlt : s.seq.step.toNat < 4
  · have hlines : ¬ (s.bus.wr = true ∧ s.bus.rd = true) ∧ (s.bus.rfsh = true → s.bus.rd = false ∧ s.bus.wr = false) := by
      unfold State.linesFit at h
      split at h
      case h_7 n _ hn => omega
      case h_4 => split at h <;> simp_all
      all_goals simp_all
    exact ⟨by omega, fun _ => by omega, hlines⟩
  · obtain ⟨n, hn⟩ : ∃ n, s.seq.step.toNat = n + 4 := ⟨s.seq.step.toNat - 4, by omega⟩
    have hlen : (tableEntry s.seq.opacc).later.length ≤ 2 := entryOf_later_length _
    rw [State.linesFit_later hn] at h
    cases hc : (tableEntry s.seq.opacc).later[n / 4]? with
    | none => simp [hc] at h
    | some c =>
      obtain ⟨hidx, -⟩ := List.getElem?_eq_some_iff.mp hc
      simp only [hc, Bool.and_eq_true, Bool.not_eq_true', beq_iff_eq] at h
      obtain ⟨⟨-, hrfsh⟩, hlevels⟩ := h
      refine ⟨by omega, fun _ => by rw [Entry.cycles]; omega, ?_, by simp [hrfsh]⟩
      rintro ⟨hwr, hrd⟩
      rw [hwr, hrd] at hlevels
      exact c.levels_not_both _ _ (congrArg Prod.snd hlevels).symm

/-- Settles O41: by induction on the ticks, with the invariant of every tick. -/
theorem reachableStatesKeepR57 : Obligations.ReachableStatesKeepR57 := by
  intro s0 s h
  obtain ⟨hinv, htop, hno⟩ := h.invariant
  obtain ⟨hhalt, hbusack, hpending, -, hlines⟩ := (inv_iff s).mp hinv
  obtain ⟨hstep, hcycles, hrw, hrfsh⟩ := State.linesFit_bounds hlines
  have hbyte : s.pendingByte = 0x00#8 ∨ s.pendingByte = 0xdd#8 ∨ s.pendingByte = 0xfd#8 := by
    simpa [isPendingByte, or_assoc] using hpending
  exact ⟨fun p => (joinBytes_hiByte_loByte (s.pair p)).symm, hhalt, hbusack, htop, hbyte, hstep, hcycles, hrw, hrfsh,
    hno.iff1, hno.iff2, hno.intact⟩

/-! ### `STEP` and the totals -/

/-- What the action of an accepted tick in `s` does to `STEP` and the totals: nothing; one more `STEP` inside a machine
cycle; or, at T4 low, the end of a machine cycle, with the next one, a pending byte or `Finish` after it
(40_sequencer R132, R144, R145, R147, R148). -/
inductive StepMove (l : TickIn) (s t : State) : Prop
  | stay (hstep : t.seq.step = s.seq.step) (htotals : t.totals = s.totals)
  | next (hcl : l.clk = .low) (hstep : t.seq.step = s.seq.step + 1#8) (htotals : t.totals = s.totals)
  | cycle (hcl : l.clk = .low) (hT4 : s.seq.step.toNat % 4 = 3) (hstep : t.seq.step = s.seq.step + 1#8)
      (htotals : t.totals = { s.totals with mcycles := s.totals.mcycles + 1#64 })
  | pending (hcl : l.clk = .low) (hT4 : s.seq.step.toNat % 4 = 3) (hstep : t.seq.step = 0#8)
      (htotals : t.totals = { s.totals with mcycles := s.totals.mcycles + 1#64 })
  | finish (hcl : l.clk = .low) (hT4 : s.seq.step.toNat % 4 = 3) (hstep : t.seq.step = 0#8)
      (hpending : t.pendingByte = 0x00#8)
      (htotals : t.totals =
        { s.totals with mcycles := s.totals.mcycles + 1#64, instrs := s.totals.instrs + 1#64 })

/-- The completion action after the effect of a table entry is `Finish` for `STEP` and the totals. -/
theorem StepMove.of_finish_effect (op : Word) {l : TickIn} {s u : State} (hcl : l.clk = .low)
    (hT4 : s.seq.step.toNat % 4 = 3) (htotals : u.totals = s.totals) :
    StepMove l s ((tableEntry op).effect u).finish := by
  obtain ⟨-, -, -, -, -, -, -, heff, -⟩ := tableEntry_effect_regs op u
  exact .finish hcl hT4 rfl (by simp [State.pendingByte]) (by simp [heff, htotals])

theorem StepMove.dispatchEntry (op : Word) {l : TickIn} {s u : State} (hcl : l.clk = .low) (hst : s.seq.step = 3#8)
    (htotals : u.totals = s.totals) : StepMove l s (dispatchEntry (tableEntry op) u) := by
  have hT4 : s.seq.step.toNat % 4 = 3 := by rw [hst]; rfl
  unfold Machine.dispatchEntry
  split
  · exact .pending hcl hT4 rfl (by simp [htotals])
  · split
    · exact .of_finish_effect op hcl hT4 htotals
    · exact .cycle hcl hT4 (by rw [hst]; rfl) (by simp [htotals])
  · exact .of_finish_effect op hcl hT4 htotals

theorem StepMove.m1T3Low (e : Entry) {l : TickIn} {s : State} (hcl : l.clk = .low) (hst : s.seq.step = 2#8) :
    StepMove l s (m1T3Low e s).1 := by
  have h3 : (3#8 : StepCount) = s.seq.step + 1#8 := by rw [hst]; rfl
  unfold Machine.m1T3Low
  split
  · split
    · exact .next hcl h3 rfl
    · exact .stay rfl rfl
  · exact .next hcl h3 rfl
  · exact .next hcl h3 rfl

theorem StepMove.laterTick {op : Word} {c : Cycle} {n t : Nat} (hc : (tableEntry op).later[n]? = some c) (last : Bool)
    (l : TickIn) {s : State} (ht : t < 4) (hst : s.seq.step.toNat % 4 = t) :
    StepMove l s (laterTick (tableEntry op) c last t l s) := by
  apply laterTick_elim (P := StepMove l s) ht
  case hend =>
    intro h3 hcl
    have hT4 : s.seq.step.toNat % 4 = 3 := hst.trans h3
    unfold endCycle
    split
    · exact .of_finish_effect op hcl hT4 rfl
    · exact .cycle hcl hT4 rfl rfl
  case r1l =>
    intro f hf _ hcl _
    obtain ⟨g, k, hfg, -⟩ := tableEntry_latch (hf ▸ hc)
    exact .next hcl (by simp [hfg]) (by simp [hfg])
  case r0l => intro _ _ _ hcl; exact .next hcl rfl rfl
  case r2l => intro _ _ _ hcl; exact .next hcl rfl rfl
  case w0l => intro _ _ _ hcl; exact .next hcl rfl rfl
  case w1l => intro _ _ _ hcl _; exact .next hcl rfl rfl
  case w2l => intro _ _ _ hcl; exact .next hcl rfl rfl
  case il => intro _ _ hcl; exact .next hcl rfl rfl
  all_goals intros; exact .stay rfl rfl

/-- What an accepted tick can do to `STEP` and the totals. -/
theorem tickAction_stepMove (op : Word) (l : TickIn) (s : State) : StepMove l s (tickAction (tableEntry op) l s).1 := by
  apply tickAction_elim (P := fun x => StepMove l s x.1)
  case h0l =>
    intro hst hcl
    unfold m1T1Low
    split
    · exact .stay rfl rfl
    · exact .next hcl (by rw [hst]; rfl) rfl
  case h1l =>
    intro hst hcl
    unfold m1T2Low
    split
    · exact .stay rfl rfl
    · exact .next hcl (by rw [hst]; rfl) rfl
  case h2l => intro hst hcl; exact .m1T3Low _ hcl hst
  case h3l => intro hst hcl; exact .dispatchEntry op hcl hst (by simp)
  case hc =>
    intro n c hst hc
    exact .laterTick hc _ l (Nat.mod_lt n (by decide)) (by rw [hst, Nat.add_mod_right])
  all_goals intros; exact .stay rfl rfl

/-- Settles O50: an accepted tick stays, goes on by one or ends the entry. -/
theorem stepCounterMoves : Obligations.StepCounterMoves := by
  intro l s hr
  rcases tick_state_cases l s with ⟨hr', -, -⟩ | ⟨-, ha, e⟩ | ⟨-, -, e⟩
  · rw [hr] at hr'; cases hr'
  · have hmove := tickAction_stepMove s.seq.opacc l s.acceptTick
    rw [e]
    cases hmove with
    | stay hstep => exact .inl hstep
    | next hcl hstep => exact .inr ⟨ha, hcl, .inl hstep⟩
    | cycle hcl _ hstep => exact .inr ⟨ha, hcl, .inl hstep⟩
    | pending hcl _ hstep => exact .inr ⟨ha, hcl, .inr hstep⟩
    | finish hcl _ hstep => exact .inr ⟨ha, hcl, .inr hstep⟩
  · exact .inl (by rw [e])

/-- Settles O59: the tick itself counts `TICKS`, the end of a machine cycle `MCYCLES`, and `Finish` counts `INSTRS`. -/
theorem totalsCount : Obligations.TotalsCount := by
  intro l s hr
  rcases tick_state_cases l s with ⟨hr', -, -⟩ | ⟨-, ha, e⟩ | ⟨-, ha, e⟩
  · rw [hr] at hr'; cases hr'
  · have hmove := tickAction_stepMove s.seq.opacc l s.acceptTick
    simp only [e, ha, if_true]
    generalize (tickAction (tableEntry s.seq.opacc) l s.acceptTick).1 = t at hmove
    cases hmove with
    | stay _ htotals => simp [htotals]
    | next _ _ htotals => simp [htotals]
    | cycle hcl hT4 _ htotals => simpa [htotals, hcl] using hT4
    | pending hcl hT4 _ htotals => simpa [htotals, hcl] using hT4
    | finish hcl hT4 hstep hpending htotals => simpa [htotals, hcl, hstep, hpending] using hT4
  · simp [e, ha]

/-! ### What no rule reads -/

/-- The state with fixed values in the fields that no rule reads: `IM`, `INTACT`, `UNSUP`, `UNSUP_OP`, `TMP` and the
totals (10_state R39, R41, R45, R47). -/
def State.eraseUnread (s : State) : State :=
  { s with
    ctl.im := .im0, ctl.intact := .none, ctl.unsup := false, ctl.unsupOp := 0x0000#16
    seq.tmp := 0x00#8
    totals := { ticks := 0#64, mcycles := 0#64, instrs := 0#64 } }

/-- Two states agree in everything but the unread fields when they are equal without them. -/
theorem sameButUnread_iff {s t : State} : SameButUnread s t ↔ s.eraseUnread = t.eraseUnread := by
  constructor
  · intro h
    rw [SameButUnread] at h
    rw [← h]
    rfl
  · intro h
    obtain ⟨regs, ⟨iff1, iff2, im, haltf, intact, unsup, unsupOp, stopped⟩, ⟨opacc, step, tmp, ph⟩, totals, bus, mem, cfg,
      inputs⟩ := s
    simp only [State.eraseUnread, State.mk.injEq, Control.mk.injEq, Sequencer.mk.injEq] at h
    obtain ⟨rfl, ⟨rfl, rfl, -, rfl, -, -, -, rfl⟩, ⟨rfl, rfl, -, rfl⟩, -, rfl, rfl, rfl, rfl⟩ := h
    rfl

/-- The update reads no unread field: what it does to the others does not depend on them. -/
def Blind (f : State → State) : Prop := ∀ s : State, (f s.eraseUnread).eraseUnread = (f s).eraseUnread

/-- Such an update takes states that agree without the unread fields to such states. -/
theorem Blind.congr {f : State → State} (hf : Blind f) {s t : State} (h : s.eraseUnread = t.eraseUnread) :
    (f s).eraseUnread = (f t).eraseUnread := by
  rw [← hf s, h, hf t]

theorem Blind.comp {f g : State → State} (hg : Blind g) (hf : Blind f) : Blind (fun s => g (f s)) :=
  fun s => hg.congr (hf s)

theorem Blind.sample (l : TickIn) : Blind (State.sample l) := by
  intro s
  have hen : s.eraseUnread.interruptsEnabled l = s.interruptsEnabled l := rfl
  unfold State.sample
  rw [hen]
  split
  · split
    · rfl
    · split <;> rfl
  · rfl

theorem Blind.effect (op : Word) : Blind (tableEntry op).effect := by
  intro s
  unfold tableEntry
  by_cases hh : lookup op 0#8 0#8 = .halt
  · rw [hh]; rfl
  · obtain ⟨g, hg, -⟩ := entryOf_effect _ hh
    rw [hg, hg]; rfl

/-- A latch looks at the byte on `DATA` and the register file. -/
theorem Blind.latch {f : Byte → State → State} (h : LatchOnly f) : Blind (fun s => f s.bus.data s) := by
  obtain ⟨g, k, hf, -⟩ := h
  intro s
  simp only [hf]
  rfl

theorem Blind.finish : Blind State.finish := fun _ => rfl

theorem Blind.nextStep : Blind State.nextStep := fun _ => rfl

theorem Blind.dispatchEntry (op : Word) : Blind (dispatchEntry (tableEntry op)) := by
  intro s
  unfold Machine.dispatchEntry
  split
  · rfl
  · split
    · exact Blind.finish.comp (.effect op) s
    · rfl
  · exact Blind.finish.comp (.effect op) s

theorem Blind.m1T1Low (l : TickIn) : Blind (m1T1Low l) := by
  intro s
  have hhold : (s.eraseUnread.ctl.haltf && !s.eraseUnread.interruptPending l) =
      (s.ctl.haltf && !s.interruptPending l) := rfl
  unfold Machine.m1T1Low
  rw [hhold]
  split <;> rfl

theorem Blind.m1T2Low (l : TickIn) : Blind (m1T2Low l) := by
  intro s
  unfold Machine.m1T2Low
  split <;> rfl

theorem Blind.m1T4Low (op : Word) (l : TickIn) : Blind (m1T4Low (tableEntry op) l) :=
  (Blind.dispatchEntry op).comp
    (f := fun s => { (s.sample l).stepRefresh with bus.rfsh := false })
    (Blind.comp (g := fun s => { s.stepRefresh with bus.rfsh := false }) (fun _ => rfl) (.sample l))

theorem Blind.operandReadTick {f : Byte → State → State} (h : LatchOnly f) (t : Nat) (l : TickIn) :
    Blind (operandReadTick f t l) := by
  intro s
  unfold Machine.operandReadTick
  split
  case h_4 =>
    split
    · rfl
    · exact Blind.nextStep.comp (.latch h) s
  all_goals rfl

theorem Blind.memoryWriteTick (rr : Pair) (t : Nat) (l : TickIn) : Blind (memoryWriteTick rr t l) := by
  intro s
  unfold Machine.memoryWriteTick
  split
  case h_1 => cases rr <;> rfl
  case h_4 => split <;> rfl
  all_goals rfl

theorem Blind.internalTick (t : Nat) (l : TickIn) : Blind (internalTick t l) := by
  intro s
  unfold Machine.internalTick
  split <;> rfl

theorem Blind.endCycle (op : Word) (last : Bool) : Blind (endCycle (tableEntry op) last) := by
  intro s
  unfold Machine.endCycle
  split
  · exact Blind.finish.comp (.effect op) s
  · rfl

theorem Blind.laterTick {op : Word} {c : Cycle} {n : Nat} (hc : (tableEntry op).later[n]? = some c) (last : Bool)
    (t : Nat) (l : TickIn) : Blind (laterTick (tableEntry op) c last t l) := by
  intro s
  unfold Machine.laterTick
  split
  · exact Blind.endCycle op last s
  · cases c with
    | operandRead f => exact Blind.operandReadTick (tableEntry_latch hc) t l s
    | memoryWrite rr => exact Blind.memoryWriteTick rr t l s
    | internal => exact Blind.internalTick t l s

/-- The same for an update that answers a result besides: the result does not depend on the unread fields either. -/
def BlindTick (f : State → State × TickResult) : Prop :=
  ∀ s : State, (f s.eraseUnread).1.eraseUnread = (f s).1.eraseUnread ∧ (f s.eraseUnread).2 = (f s).2

theorem BlindTick.congr {f : State → State × TickResult} (hf : BlindTick f) {s t : State}
    (h : s.eraseUnread = t.eraseUnread) : (f s).1.eraseUnread = (f t).1.eraseUnread ∧ (f s).2 = (f t).2 := by
  obtain ⟨hs, hs'⟩ := hf s
  obtain ⟨ht, ht'⟩ := hf t
  exact ⟨by rw [← hs, h, ht], by rw [← hs', h, ht']⟩

theorem Blind.ok {f : State → State} (hf : Blind f) : BlindTick fun s => (f s, .ok) := fun s => ⟨hf s, rfl⟩

theorem BlindTick.m1T3Low (e : Entry) : BlindTick (m1T3Low e) := by
  intro s
  have hpolicy : s.eraseUnread.cfg.policy = s.cfg.policy := rfl
  unfold Machine.m1T3Low
  rw [hpolicy]
  split
  · split <;> exact ⟨rfl, rfl⟩
  · exact ⟨rfl, rfl⟩
  · exact ⟨rfl, rfl⟩

theorem BlindTick.tickAction (op : Word) (l : TickIn) : BlindTick (tickAction (tableEntry op) l) := by
  intro s
  have hstep : s.eraseUnread.seq.step = s.seq.step := rfl
  unfold Machine.tickAction
  rw [hstep]
  split
  case h_1 => exact ⟨rfl, rfl⟩
  case h_2 => exact (Blind.m1T1Low l).ok s
  case h_3 => exact ⟨rfl, rfl⟩
  case h_4 => exact (Blind.m1T2Low l).ok s
  case h_5 => exact ⟨rfl, rfl⟩
  case h_6 => exact BlindTick.m1T3Low _ s
  case h_7 => exact ⟨rfl, rfl⟩
  case h_8 => exact (Blind.m1T4Low op l).ok s
  case h_9 n _ _ =>
    split
    · exact ⟨rfl, rfl⟩
    · next c hc => exact (Blind.laterTick hc _ _ l).ok s

/-- The engine reads no unread field, whichever way the tick goes (40_sequencer R149). -/
theorem BlindTick.tick (l : TickIn) : BlindTick (tick l) := by
  intro s
  have hopacc : s.eraseUnread.seq.opacc = s.seq.opacc := rfl
  have hstopped : s.eraseUnread.ctl.stopped = s.ctl.stopped := rfl
  have hph : s.eraseUnread.seq.ph = s.seq.ph := rfl
  unfold Machine.tick tickAs
  rw [hopacc, hstopped, hph]
  split
  · exact ⟨rfl, rfl⟩
  · split
    · exact ⟨rfl, rfl⟩
    · split
      · exact ⟨rfl, rfl⟩
      · exact (BlindTick.tickAction s.seq.opacc l).congr rfl

/-- Settles O53: agreement but for the unread fields is equality without them, and every action of a tick is blind to
them. -/
theorem statusIsNeverRead : Obligations.StatusIsNeverRead := by
  intro l s t h
  rw [sameButUnread_iff] at h ⊢
  exact (BlindTick.tick l).congr h

/-! ### The flag generator -/

/-- The low nibble as a number. -/
theorem lowNibble_eq_iff (v : Byte) (k : Nat) (hk : k < 16) :
    v.extractLsb' 0 4 = BitVec.ofNat 4 k ↔ v.toNat % 16 = k := by
  rw [← BitVec.toNat_inj, BitVec.extractLsb'_toNat, BitVec.toNat_ofNat, Nat.shiftRight_zero, Nat.mod_eq_of_lt hk]

/-- Settles O7: the flag byte's bits are what it was built from, and the low nibble is the value modulo 16. -/
theorem incrementFlags : Obligations.IncrementFlags := by
  intro v f
  have hH := lowNibble_eq_iff v 15 (by decide)
  simp [inc8, beq_eq_decide, hH]

/-- Settles O8, as O7. -/
theorem decrementFlags : Obligations.DecrementFlags := by
  intro v f
  have hH := lowNibble_eq_iff v 0 (by decide)
  simp [dec8, beq_eq_decide, hH]

/-- The rotation as a number: twice the operand, and its top bit in bit 0 (10_state R36). -/
theorem rlc8_toNat (a f : Byte) : (rlc8 a f).1.toNat = (2 * a.toNat) % 256 + a.toNat / 128 := by
  have hlt : (a.extractLsb' 7 1).toNat < 2 ^ 1 := (a.extractLsb' 7 1).isLt
  have ha := a.isLt
  rw [rlc8, BitVec.toNat_append, ← Nat.shiftLeft_add_eq_or_of_lt hlt, BitVec.extractLsb'_toNat, BitVec.extractLsb'_toNat,
    Nat.shiftLeft_eq, Nat.shiftRight_zero, Nat.shiftRight_eq_div_pow]
  omega

/-- Settles O9: the result as a number, and the bits the flag byte was built from. -/
theorem rotateFlags : Obligations.RotateFlags := by
  intro a f
  refine ⟨rlc8_toNat a f, ?_⟩
  simp [rlc8]

/-- The 17-bit sum does not wrap. -/
theorem toNat_sum17 (d s : Word) : (d.setWidth 17 + s.setWidth 17).toNat = d.toNat + s.toNat := by
  have hd := d.isLt
  have hs := s.isLt
  simp only [BitVec.toNat_add, BitVec.toNat_setWidth]
  omega

/-- The result is the sum modulo 65536 (10_state R37). -/
theorem add16_result (d s : Word) (f : Byte) : (add16 d s f).1 = d + s := by
  apply BitVec.eq_of_toNat_eq
  rw [add16, BitVec.toNat_setWidth, toNat_sum17, BitVec.toNat_add]

/-- The top bit of the 17-bit sum is the carry (10_state R37). -/
theorem sum17_carry (d s : Word) :
    (d.setWidth 17 + s.setWidth 17).getLsbD 16 = decide (65536 ≤ d.toNat + s.toNat) := by
  rw [← toNat_sum17]
  exact (BitVec.msb_eq_getLsbD_last _).symm.trans (BitVec.msb_eq_decide _)

/-- The sum of the low twelve bits carries out of bit 11. -/
theorem low12_carry (d s : Word) :
    decide (0xfff < (d.extractLsb' 0 12).toNat + (s.extractLsb' 0 12).toNat) =
      decide (4096 ≤ d.toNat % 4096 + s.toNat % 4096) := by
  simp only [BitVec.extractLsb'_toNat, Nat.shiftRight_zero]
  rfl

/-- Settles O10: the result and the two carries as numbers, and the bits the flag byte was built from. -/
theorem addFlags : Obligations.AddFlags := by
  intro d s f
  have hr := add16_result d s f
  refine ⟨hr, ?_⟩
  rw [← hr]
  simp only [add16, flagS_flagByte, flagZ_flagByte, flagF5_flagByte, flagH_flagByte, flagF3_flagByte, flagPV_flagByte,
    flagN_flagByte, flagC_flagByte, sum17_carry, low12_carry, and_self]

/-! ### Halves and pairs -/

/-- Writing an 8-bit register leaves every pair but its own alone (10_state R21). -/
theorem State.pair_setReg8_other {r : Reg8} {p : Pair} (v : Byte) (s : State) (h : p ≠ r.home) :
    (s.setReg8 r v).pair p = s.pair p := by
  unfold State.setReg8
  split <;> exact State.pair_setPair_other _ s h

/-- Writing an 8-bit register leaves `F` alone, also that of `A`, the other half of `AF` (10_state R22). -/
theorem State.flags_setReg8 (r : Reg8) (v : Byte) (s : State) : (s.setReg8 r v).flags = s.flags := by
  cases r
  case a => exact (State.setPairHigh_views .af v s).2
  all_goals rfl

/-- Settles O11: reads after writes of pairs and halves, to the same and to another one. -/
theorem halvesAreViewsOfPairs : Obligations.HalvesAreViewsOfPairs := by
  refine ⟨fun s p => (joinBytes_hiByte_loByte (s.pair p)).symm, fun s p v => ⟨rfl, rfl⟩, fun s p q v => ?_,
    fun s q r v => ⟨?_, State.flags_setReg8 r v s, fun p hp => State.pair_setReg8_other v s hp⟩⟩
  · split
    · next h => rw [h, State.pair_setPair_same]
    · next h => exact State.pair_setPair_other v s h
  · split
    · next h => rw [h, State.reg8_setReg8_same]
    · next h => exact State.reg8_setReg8_other v s h

/-- Settles O12: the reads by definition, the write of `F` as that of a low half. -/
theorem halvesByName : Obligations.HalvesByName :=
  ⟨fun _ => ⟨rfl, rfl, rfl, rfl, rfl, rfl, rfl, rfl⟩, fun s v => State.setPairLow_views .af v s⟩

/-- The low seven bits of the refresh step count (10_state R28). -/
theorem extractLsb_refreshNext (r : Byte) : (refreshNext r).extractLsb' 0 7 = r.extractLsb' 0 7 + 1#7 := by
  rw [refreshNext, BitVec.extractLsb'_append_eq_right]

/-- Settles O13: the low seven bits as a number. -/
theorem refreshStepValue : Obligations.RefreshStepValue := by
  intro r
  have hlow := congrArg BitVec.toNat (extractLsb_refreshNext r)
  rw [BitVec.toNat_add, BitVec.extractLsb'_toNat, BitVec.extractLsb'_toNat, Nat.shiftRight_zero, Nat.shiftRight_zero] at hlow
  exact ⟨hlow, refreshNext_top r⟩

end Sys2Proof.Machine

namespace Sys2Proof.Machine

/-! ### The backend's service -/

/-- Settles O14: the write keeps the canonical form, and the two reads by whether the addresses are equal. -/
theorem readAfterWrite : Obligations.ReadAfterWrite := by
  intro m a b v hm
  refine ⟨Memory.wf_write a v hm, ?_⟩
  split
  · next h => rw [h, Memory.read_write_same a v hm]
  · next h => exact Memory.read_write_other m v h

/-- The read service puts the byte at `ADDR` on `DATA` and changes no other line (20_memory R76). -/
theorem State.serviceRead_bus (s : State) :
    s.serviceRead.bus =
      { s.bus with data := if s.bus.mreq && s.bus.rd && !s.bus.rfsh then s.mem.read s.bus.addr else s.bus.data } := by
  unfold State.serviceRead
  split <;> rfl

/-- The write service stores `DATA` at `ADDR` where that address accepts writes, and no other byte (20_memory R76). -/
theorem State.serviceWrite_read {s : State} (hm : s.mem.wf = true) (a : Word) :
    s.serviceWrite.mem.read a =
      if s.bus.mreq && s.bus.wr && !s.bus.rfsh && writable s.cfg s.bus.addr && a == s.bus.addr then s.bus.data
      else s.mem.read a := by
  unfold State.serviceWrite
  by_cases ha : a = s.bus.addr
  · subst ha
    split
    · next hw => simp [hw, Memory.read_write_same _ _ hm]
    · next hw => simp [hw]
  · split
    · simp [ha, Memory.read_write_other _ _ ha]
    · simp [ha]

/-- Without read-only ranges every address accepts writes (00_scope R6). -/
theorem writable_default (a : Word) : writable Config.default a = true := rfl

/-- Settles O15: the read service fixes `DATA`, and the write service stores it. -/
theorem backendService : Obligations.BackendService := by
  refine ⟨fun s hm => ?_, fun _ => rfl, writable_default⟩
  have hbus := State.serviceRead_bus s
  refine ⟨(State.serviceWrite_bus _).trans hbus, fun a => ?_, State.service_regs s, State.service_ctl s,
    State.service_seq s, State.service_totals s, State.service_cfg s, State.service_inputs s⟩
  have hread := State.serviceWrite_read (s := s.serviceRead) (by simpa using hm) a
  rwa [hbus, State.serviceRead_cfg, State.serviceRead_mem] at hread

/-! ### A store seen by the next fetch -/

/-- At a fetch, a step is the meaning of the instruction that the bytes at `PC` decode to (30_encoding R105; log 1). -/
theorem step_of_decode {s : State} {i : Instr} {rest : List Byte} (hf : s.atFetch = true)
    (hd : decode s.pendingByte s.streamBytes = .ok (i, rest)) : step s = exec i s := by
  rw [step, if_pos hf, hd]

/-- The interrupt sample never enters the halt (60_exceptions R305). -/
theorem State.sample_not_halted (l : TickIn) {s : State} (h : s.ctl.haltf = false) : (s.sample l).ctl.haltf = false := by
  unfold State.sample
  split
  · split
    · rfl
    · split
      · rfl
      · exact h
  · exact h

/-- A completed instruction leaves the machine at the next fetch (40_sequencer R145). -/
theorem Completed.ready {n : Nat} {l : TickIn} {s t : State} (hs : s.ready = true) (h : Completed n l s t) :
    t.ready = true := by
  obtain ⟨hf, hr, hh⟩ := State.ready_iff.mp hs
  have hquiet := h.lines
  simp only [Bus.quiet, Bool.and_eq_true, Bool.not_eq_true'] at hquiet
  obtain ⟨⟨-, hwr⟩, hrfsh⟩ := hquiet
  have hstopped : t.ctl.stopped = false := by rw [h.control, State.sample_stopped, State.atFetch_stopped hf]
  have hpending : t.pendingByte = 0x00#8 := by rw [State.pendingByte, h.opacc, hiByte_joinBytes]
  have hfetch : t.atFetch = true := by
    simp [State.atFetch, h.step, h.phase, hstopped, hwr, hrfsh, hpending, isPendingByte]
  have hhalt : t.ctl.haltf = false := by rw [h.control]; exact State.sample_not_halted l hh
  exact State.ready_iff.mpr ⟨hfetch, noReset_of_suffix hr h.schedule, hhalt⟩

/-- The opcode bytes of the three stores, with the pair that holds the address (42_loads R211 to R213). -/
theorem decode_store {b : Byte} {rr : Pair} (h : (b, rr) ∈ [(0x02#8, Pair.bc), (0x12#8, .de), (0x77#8, .hl)])
    (rest : List Byte) :
    ∃ i, decode 0x00#8 (b :: rest) = .ok (i, rest) ∧ ∀ s, exec i s = runInstr (storeEntry rr) s := by
  simp only [List.mem_cons, Prod.mk.injEq, List.not_mem_nil, or_false] at h
  rcases h with ⟨rfl, rfl⟩ | ⟨rfl, rfl⟩ | ⟨rfl, rfl⟩
  · exact ⟨.ldAtBcA, rfl, fun _ => rfl⟩
  · exact ⟨.ldAtDeA, rfl, fun _ => rfl⟩
  · exact ⟨.ldAtHlA, rfl, fun _ => rfl⟩

/-- Settles O35: the run of the store leaves `A` at `PC + 1`, which is the `PC` of the next fetch. -/
theorem storeReachesNextFetch : Obligations.StoreReachesNextFetch := by
  intro b rr hb s hs hm hpending hopcode haddr hwritable
  obtain ⟨i, hdecode, hexec⟩ := decode_store hb [s.mem.read (s.regs.pc + 1#16), s.mem.read (s.regs.pc + 2#16)]
  rw [← hopcode, ← hpending] at hdecode
  obtain ⟨l, t, hrun, hcompleted, hregs, hmem, -⟩ := run_store rr hs hm
  refine ⟨t, ?_, hcompleted.ready hs, ?_⟩
  · rw [step_of_decode (State.ready_iff.mp hs).1 hdecode, hexec, hrun]
  · have hpc : t.regs.pc = s.pair rr := by rw [hregs, haddr]; rfl
    have hbyte : t.mem.read t.regs.pc = s.reg8 .a := by
      rw [hpc, hmem, storeByte, if_pos hwritable, Memory.read_write_same _ _ hm]
    exact congrArg some hbyte

/-! ### Memory between the stores -/

/-- At a fetch no `WR` is left asserted (40_sequencer R133). -/
theorem State.atFetch_wr {s : State} (h : s.atFetch = true) : s.bus.wr = false := by
  simp only [State.atFetch, Bool.and_eq_true, Bool.not_eq_true'] at h
  obtain ⟨⟨⟨-, hwr⟩, -⟩, -⟩ := h
  exact hwr

/-- The machine cycle writes memory. -/
def Cycle.writes : Cycle → Bool
  | .operandRead _ => false
  | .memoryWrite _ => true
  | .internal => false

/-- Only the three stores have a machine cycle that writes memory (40_sequencer R146). -/
theorem entryOf_writes {i : Instr} (hbc : i ≠ .ldAtBcA) (hde : i ≠ .ldAtDeA) (hhl : i ≠ .ldAtHlA) :
    (entryOf i).later.any Cycle.writes = false := by
  cases i <;> first | rfl | contradiction

/-! What the actions of a tick do to `WR`: nothing, outside a memory write (40_sequencer R163). -/

@[simp] theorem State.sample_bus_wr (l : TickIn) (s : State) : (s.sample l).bus.wr = s.bus.wr := by
  unfold State.sample
  split
  · split
    · rfl
    · split <;> rfl
  · rfl

@[simp] theorem tableEntry_effect_wr (op : Word) (s : State) : ((tableEntry op).effect s).bus.wr = s.bus.wr := by
  obtain ⟨-, -, -, -, -, -, -, -, -, -, -, -, hbus⟩ := tableEntry_effect_regs op s
  rw [hbus]

theorem dispatchEntry_wr (op : Word) (s : State) : (dispatchEntry (tableEntry op) s).bus.wr = s.bus.wr := by
  unfold dispatchEntry
  split
  · rfl
  · split
    · exact tableEntry_effect_wr op s
    · rfl
  · exact tableEntry_effect_wr op s

theorem m1T1Low_wr (l : TickIn) (s : State) : (m1T1Low l s).bus.wr = s.bus.wr := by
  unfold m1T1Low
  split <;> rfl

theorem m1T2Low_wr (l : TickIn) (s : State) : (m1T2Low l s).bus.wr = s.bus.wr := by
  unfold m1T2Low
  split <;> rfl

theorem m1T3Low_wr (e : Entry) (s : State) : (m1T3Low e s).1.bus.wr = s.bus.wr := by
  unfold m1T3Low
  split
  · split <;> rfl
  · rfl
  · rfl

theorem m1T4Low_wr (op : Word) (l : TickIn) (s : State) : (m1T4Low (tableEntry op) l s).bus.wr = s.bus.wr :=
  (dispatchEntry_wr op _).trans (State.sample_bus_wr l s)

theorem laterTick_wr {op : Word} {c : Cycle} {n t : Nat} (hc : (tableEntry op).later[n]? = some c) (ht : t < 4)
    (hw : c.writes = false) (last : Bool) (l : TickIn) (s : State) :
    (laterTick (tableEntry op) c last t l s).bus.wr = s.bus.wr := by
  apply laterTick_elim (P := fun u => u.bus.wr = s.bus.wr) ht
  case hend =>
    intros
    unfold endCycle
    split
    · exact tableEntry_effect_wr op s
    · rfl
  case r1l =>
    intro f hf _ _ _
    obtain ⟨g, k, hfg, -⟩ := tableEntry_latch (hf ▸ hc)
    simp [hfg]
  case w0l => intro rr hrr; rw [hrr] at hw; cases hw
  case w2h => intro rr hrr; rw [hrr] at hw; cases hw
  all_goals intros; rfl

/-- An accepted tick leaves `WR` alone if the entry in force has no memory write, or has not come to its later cycles. -/
theorem tickAction_wr (op : Word) (l : TickIn) (s : State)
    (h : 2 ≤ s.seq.step.toNat → (tableEntry op).later.any Cycle.writes = false) :
    (tickAction (tableEntry op) l s).1.bus.wr = s.bus.wr := by
  apply tickAction_elim (P := fun x => x.1.bus.wr = s.bus.wr)
  case h0l => intros; exact m1T1Low_wr l s
  case h1l => intros; exact m1T2Low_wr l s
  case h2l => intros; exact m1T3Low_wr _ s
  case h3l => intros; exact m1T4Low_wr op l s
  case hc =>
    intro n c hst hc
    have hw : c.writes = false := by
      simpa using List.any_eq_false.mp (h (by omega)) c (List.mem_of_getElem? hc)
    exact laterTick_wr hc (Nat.mod_lt n (by decide)) hw _ l s
  all_goals intros; rfl

/-- Since `s` nothing was stored, and the next service stores nothing (20_memory R76). -/
structure NothingStored (s u : State) : Prop where
  mem      : u.mem = s.mem
  released : u.bus.wr = false

/-- A round goes on to store nothing if the entry in force has no memory write, or has not come to its later cycles. -/
theorem NothingStored.clock {s u : State} (hu : NothingStored s u)
    (h : 2 ≤ u.seq.step.toNat → (tableEntry u.seq.opacc).later.any Cycle.writes = false) :
    NothingStored s (clock u).1 := by
  have hserved : u.served.bus.wr = false := by
    rw [State.served, State.setInputs_bus, State.service_bus]; exact hu.released
  have hseq : u.served.seq = u.seq := State.service_seq u
  constructor
  · rw [Machine.clock, tick_mem]
    exact (State.service_mem_of_not_wr hu.released).trans hu.mem
  · rcases tick_state_cases u.nextLevels u.served with ⟨-, -, e⟩ | ⟨-, -, e⟩ | ⟨-, -, e⟩
    · rw [Machine.clock, e]; rfl
    · rw [Machine.clock, e, tickAction_wr _ _ _ (by rwa [State.acceptTick_seq, hseq])]; exact hserved
    · rw [Machine.clock, e]; exact hserved

/-- What every round on the way of a decoded instruction keeps, the run of its entry keeps. -/
theorem runEntry_keeps {P : State → Prop} {s u : State} {i : Instr} {rest : List Byte} (h : OnTheWay s i u)
    (hw : i.wellFormed = true) (hp : s.pendingByte = i.pendingByte) (hb : s.streamBytes = i.body ++ rest)
    (hP : ∀ v, OnTheWay s i v → P v → P (clock v).1) (fuel : Nat) (hu : P u) :
    P (runEntry ((entryOf i).withOperands i.operands) fuel u) := by
  induction fuel generalizing u with
  | zero => exact hu
  | succ fuel ih =>
    obtain ⟨hround, hgo⟩ := h.round hw hp hb
    have hclock := hP u h hu
    rw [runEntry, hround]
    cases hend : endsRun (clock u).2 (clock u).1 with
    | true => simpa [hend] using hclock
    | false => simpa [hend] using ih (hgo hend) hclock

/-- Settles O42: no round of an instruction other than the three stores asserts `WR`, and without it the backend stores
nothing. -/
theorem onlyStoresWriteMemory : Obligations.OnlyStoresWriteMemory := by
  intro s t i rest hf hd hbc hde hhl hstep
  obtain ⟨hwf, hpending, hbytes⟩ := decode_ok hd
  have hround : ∀ u, OnTheWay s i u → NothingStored s u → NothingStored s (clock u).1 := by
    intro u hu hstored
    apply hstored.clock
    intro h2
    rw [hu.decoded h2]
    exact entryOf_writes hbc hde hhl
  have hrun := runEntry_keeps (OnTheWay.begin i hf) hwf hpending hbytes hround
    (runBound ((entryOf i).withOperands i.operands) s) ⟨rfl, State.atFetch_wr hf⟩
  rw [step_of_decode hf hd, exec_eq_runInstr, runInstr] at hstep
  cases hstep
  exact hrun.mem

end Sys2Proof.Machine

namespace Sys2Proof

/-! ### The opcode table read by instruction -/

/-- What `Laws.Lookup` says once per instruction, for all of them. -/
theorem Laws.Lookup.statement (i : Instr) : Statement i := by
  cases i
  exacts [nop, ldBcNn _, ldAtBcA, incBc, incB, decB, ldBN _, rlca, exAfAf, addHlBc, decBc, incC, decC, ldCN _,
    ldDeNn _, ldAtDeA, incDe, incD, decD, ldDN _, addHlDe, decDe, incE, decE, ldEN _, ldHlNn _, incHl, incH, decH,
    ldHN _, addHlHl, decHl, incL, decL, ldLN _, ldSpNn _, incSp, addHlSp, decSp, incA, decA, ldAN _, halt, ldAtHlA,
    prefixIx, prefixIy, addIxBc, addIxDe, ldIxNn _, incIx, addIxIx, decIx, addIxSp, addIyBc, addIyDe, ldIyNn _,
    incIy, addIyIy, decIy, addIySp, unrecognised _]

/-- The table gives back every well-formed instruction from its effective opcode and operand bytes (30_encoding R108,
R109). -/
theorem lookup_opcode_operands {i : Instr} (h : i.wellFormed = true) :
    lookup i.opcode (i.operands.getD 0 0#8) (i.operands.getD 1 0#8) = i :=
  Laws.Lookup.statement i h

/-- The pending byte a well-formed instruction needs is one that `OPACC[15:8]` can hold (10_state R43). -/
theorem Instr.isPendingByte_pendingByte {i : Instr} (h : i.wellFormed = true) : isPendingByte i.pendingByte = true := by
  cases i
  case unrecognised op =>
    rw [Instr.wellFormed, Bool.and_eq_true] at h
    exact h.2
  all_goals (simp only [Instr.pendingByte, Instr.opcode]; rfl)

theorem Instr.length_operands (i : Instr) : i.operands.length = i.operandCount := by
  cases i <;> rfl

theorem Instr.operandCount_le_two (i : Instr) : i.operandCount ≤ 2 := by
  cases i <;> simp [Instr.operandCount]

/-- What the decoder counts on before it has the operand bytes is the number of them. -/
theorem operandCount_lookup_opcode {i : Instr} (h : i.wellFormed = true) :
    (lookup i.opcode 0#8 0#8).operandCount = i.operands.length := by
  obtain ⟨-, -, hargs⟩ := Machine.lookup_spec (op := i.opcode) (Instr.isPendingByte_pendingByte h)
    (i.operands.getD 0 0#8) (i.operands.getD 1 0#8)
  have hle := (lookup i.opcode 0#8 0#8).operandCount_le_two
  rw [lookup_opcode_operands h] at hargs
  simpa [hle] using (congrArg List.length hargs).symm

/-- An effective opcode whose entry has no operands is that of one well-formed instruction only (30_encoding R108). -/
theorem Instr.eq_lookup {i : Instr} {op : Word} (h : i.wellFormed = true) (hop : i.opcode = op)
    (hcount : (lookup op 0#8 0#8).operandCount = 0) : i = lookup op 0#8 0#8 := by
  have hnil : i.operands = [] := List.length_eq_zero_iff.mp (by rw [← operandCount_lookup_opcode h, hop, hcount])
  simpa [hop, hnil] using (lookup_opcode_operands h).symm

/-! ### What the decoder answers -/

/-- With as many operand bytes as the effective opcode asks for, the decoder answers the table's instruction made from
them, and every byte after them (30_encoding R105, R107). -/
theorem decode_operands {p b : Byte} {args : List Byte} (hp : isPendingByte p = true)
    (hlen : args.length = (lookup (joinBytes p b) 0#8 0#8).operandCount) (rest : List Byte) :
    decode p (b :: args ++ rest) = .ok (lookup (joinBytes p b) (args.getD 0 0#8) (args.getD 1 0#8), rest) := by
  have hle := (lookup (joinBytes p b) 0#8 0#8).operandCount_le_two
  match args with
  | [] => simp [decode, hp, ← hlen]
  | [n] => simp [decode, hp, ← hlen]
  | [lo, hi] => simp [decode, hp, ← hlen]
  | _ :: _ :: _ :: args => simp only [List.length_cons] at hlen; omega

/-- Settles O1: the body is the opcode byte and exactly the operands that the table asks for, and the table gives the
instruction back from them. -/
theorem decodeOfBodyGivesInstruction : Obligations.DecodeOfBodyGivesInstruction := by
  intro i rest h
  have hop : joinBytes i.pendingByte (loByte i.opcode) = i.opcode := joinBytes_hiByte_loByte i.opcode
  have hlen : i.operands.length = (lookup (joinBytes i.pendingByte (loByte i.opcode)) 0#8 0#8).operandCount := by
    rw [hop, operandCount_lookup_opcode h]
  rw [Instr.body, decode_operands (Instr.isPendingByte_pendingByte h) hlen, hop, lookup_opcode_operands h]

/-- Settles O3, which is what `decode_ok` says of the decoder. -/
theorem decodedBytesAreTheBody : Obligations.DecodedBytesAreTheBody := by
  intro p bytes rest i h
  obtain ⟨hwf, hp, hbytes⟩ := Machine.decode_ok h
  exact ⟨hwf, hp.symm, hbytes⟩

/-- Settles O4: no opcode asks for more than two operand bytes, and two are there. -/
theorem everyOpcodeByteDecodes : Obligations.EveryOpcodeByteDecodes := by
  intro p b0 b1 b2 rest hp
  generalize hn : (lookup (joinBytes p b0) 0#8 0#8).operandCount = n
  have hlen : ([b1, b2].take n).length = (lookup (joinBytes p b0) 0#8 0#8).operandCount := by
    have hle := (lookup (joinBytes p b0) 0#8 0#8).operandCount_le_two
    simp only [List.length_take, List.length_cons, List.length_nil]
    omega
  have hbytes : b0 :: b1 :: b2 :: rest = b0 :: [b1, b2].take n ++ ([b1, b2].drop n ++ rest) := by
    rw [List.cons_append, ← List.append_assoc, List.take_append_drop]; rfl
  exact ⟨_, _, hbytes ▸ decode_operands hp hlen _⟩

/-- Settles O5: the default row of the table has no operand bytes. -/
theorem noFallbackToUnprefixed : Obligations.NoFallbackToUnprefixed := by
  intro p b rest hp hentry
  have hlookup := lookup_of_not_entry hentry
  have hlen : ([] : List Byte).length = (lookup (joinBytes p b) 0#8 0#8).operandCount := by rw [hlookup]; rfl
  simpa [hlookup] using decode_operands hp hlen rest

/-! ### Instructions as they lie in memory -/

/-- A prefix byte with a byte after it selects its table (30_encoding R111). -/
theorem decodeBytes_prefixed {p : Byte} (hp : p = 0xdd#8 ∨ p = 0xfd#8) (b : Byte) (rest : List Byte) :
    decodeBytes (p :: b :: rest) = decode p (b :: rest) := by
  simp [decodeBytes, hp]

/-- Any other first byte is decoded with no prefix pending (30_encoding R111). -/
theorem decodeBytes_plain {b : Byte} (hdd : b ≠ 0xdd#8) (hfd : b ≠ 0xfd#8) (rest : List Byte) :
    decodeBytes (b :: rest) = decode 0x00#8 (b :: rest) := by
  cases rest <;> simp [decodeBytes, hdd, hfd]

/-- Settles O2: only the two prefix bytes themselves have the opcode byte 0xDD or 0xFD with no prefix pending, so the
first byte in memory tells which table the instruction is from, and the rest is O1. -/
theorem decodeOfEncodeInMemory : Obligations.DecodeOfEncodeInMemory := by
  intro i rest h hix hiy
  have hbody := decodeOfBodyGivesInstruction i rest h
  unfold encode
  split
  case isTrue hp =>
    have hop {b : Byte} (e : loByte i.opcode = b) : i.opcode = joinBytes 0x00#8 b := by
      rw [← hp, ← e, Instr.pendingByte, joinBytes_hiByte_loByte]
    have hdd : loByte i.opcode ≠ 0xdd#8 := fun e => hix (Instr.eq_lookup h (hop e) rfl)
    have hfd : loByte i.opcode ≠ 0xfd#8 := fun e => hiy (Instr.eq_lookup h (hop e) rfl)
    rw [← hbody, hp]
    exact decodeBytes_plain hdd hfd _
  case isFalse hp =>
    have hpending : i.pendingByte = 0xdd#8 ∨ i.pendingByte = 0xfd#8 := by
      simpa [isPendingByte, hp] using Instr.isPendingByte_pendingByte h
    rw [← hbody]
    exact decodeBytes_prefixed hpending _ _

/-- Settles O6: ten closed words, each by running the decoder. -/
theorem sampleWordsDecode : Obligations.SampleWordsDecode := by
  unfold Obligations.SampleWordsDecode
  and_intros <;> decide

/-- Settles O36: by O1 the bytes at `PC` decode to the instruction, and at a fetch the step runs what they decode to. -/
theorem stepRunsDecodedInstruction : Obligations.StepRunsDecodedInstruction := by
  intro i s rest h hfetch hpending hbytes
  apply Machine.step_of_decode (rest := rest) hfetch
  rw [hpending, hbytes]
  exact decodeOfBodyGivesInstruction i rest h

end Sys2Proof

namespace Sys2Proof.Machine

/-- Settles O38: the rounds of the run of the decoded instruction, or the one round of a step that runs none. -/
theorem stepIsRoundsOfTheHostLoop : Obligations.StepIsRoundsOfTheHostLoop := step_eq_clockN

/-- Settles O37: the state after the rounds of the step. -/
theorem stepAlwaysGoesOn : Obligations.StepAlwaysGoesOn := by
  intro s
  obtain ⟨n, -, hn⟩ := step_eq_clockN s
  exact ⟨clockN n s, hn⟩

/-! ### What an accepted tick answers -/

/-- An accepted tick is the action of `(M, T, CLK)` on the counted state (40_sequencer R149). -/
theorem tick_of_accepts {l : TickIn} {s : State} (h : s.accepts l = true) :
    tick l s = tickAction (tableEntry s.seq.opacc) l s.acceptTick := by
  obtain ⟨hr, hst, hcl⟩ := (State.accepts_iff l s).mp h
  simp [tick, tickAs, hr, hst, hcl]

/-- The table's instruction for any effective opcode carries that opcode (30_encoding R108, R109). -/
theorem lookup_opcode (op : Word) (b1 b2 : Byte) : (lookup op b1 b2).opcode = op := by
  cases hop : isTableOpcode op with
  | true =>
    obtain ⟨r, hr, rfl, hfind⟩ := find_some_of_entry hop
    simpa only [lookup, hfind] using (opcodeTable_rowFits r hr b1 b2).1
  | false => rw [lookup_of_not_entry hop]; rfl

/-- The default row's entry carries the effective opcode it stands for (30_encoding R109). -/
theorem op_of_unrecognised {op op' : Word} (h : (tableEntry op).kind = .unrecognised op') : op' = op := by
  rcases entryOf_kind (lookup op 0#8 0#8) with hk | ⟨hk, -⟩ | ⟨o, ho, hk, -⟩
  · rw [tableEntry, hk] at h; cases h
  · rw [tableEntry, hk] at h; cases h
  · rw [tableEntry, hk] at h
    cases h
    exact (congrArg Instr.opcode ho).symm.trans (lookup_opcode op 0#8 0#8)

/-- The decode point answers `ok`, or `unsupported` with `OPACC` (40_sequencer R141). -/
theorem m1T3Low_result (op : Word) (s : State) :
    (m1T3Low (tableEntry op) s).2 = .ok ∨ (m1T3Low (tableEntry op) s).2 = .unsupported op := by
  unfold m1T3Low
  split
  case h_1 o hk =>
    split
    · exact .inl rfl
    · exact .inr (by rw [op_of_unrecognised hk])
  all_goals exact .inl rfl

/-- Only the decode point answers anything but `ok` (40_sequencer R149). -/
theorem tickAction_result (op : Word) (l : TickIn) (s : State) :
    (tickAction (tableEntry op) l s).2 = .ok ∨ (tickAction (tableEntry op) l s).2 = .unsupported op := by
  apply tickAction_elim (P := fun x => x.2 = .ok ∨ x.2 = .unsupported op)
  case h2l => intros; exact m1T3Low_result op s
  all_goals intros; exact .inl rfl

theorem tickAction_ticks (op : Word) (l : TickIn) (s : State) :
    (tickAction (tableEntry op) l s).1.totals.ticks = s.totals.ticks := by
  cases tickAction_stepMove op l s with
  | stay _ htotals => rw [htotals]
  | next _ _ htotals => rw [htotals]
  | cycle _ _ _ htotals => rw [htotals]
  | pending _ _ _ htotals => rw [htotals]
  | finish _ _ _ _ htotals => rw [htotals]

theorem finish_effect_ph (op : Word) (s : State) : ((tableEntry op).effect s).finish.seq.ph = s.seq.ph := by
  obtain ⟨-, -, -, -, -, -, hseq, -⟩ := tableEntry_effect_regs op s
  simp [hseq]

theorem dispatchEntry_ph (op : Word) (s : State) : (dispatchEntry (tableEntry op) s).seq.ph = s.seq.ph := by
  unfold dispatchEntry
  split
  · rfl
  · split
    · exact finish_effect_ph op s
    · rfl
  · exact finish_effect_ph op s

theorem laterTick_ph {op : Word} {c : Cycle} {n t : Nat} (hc : (tableEntry op).later[n]? = some c) (ht : t < 4)
    (last : Bool) (l : TickIn) (s : State) : (laterTick (tableEntry op) c last t l s).seq.ph = s.seq.ph := by
  apply laterTick_elim (P := fun u => u.seq.ph = s.seq.ph) ht
  case hend =>
    intros
    unfold endCycle
    split
    · exact finish_effect_ph op s
    · rfl
  case r1l =>
    intro f hf _ _ _
    obtain ⟨g, k, hfg, -⟩ := tableEntry_latch (hf ▸ hc)
    simp [hfg]
  all_goals intros; rfl

/-- No action writes `PH`, which the accepted tick has flipped (40_sequencer R149 item 4). -/
theorem tickAction_ph (op : Word) (l : TickIn) (s : State) :
    (tickAction (tableEntry op) l s).1.seq.ph = s.seq.ph := by
  apply tickAction_elim (P := fun x => x.1.seq.ph = s.seq.ph)
  case h0l => intros; unfold m1T1Low; split <;> rfl
  case h1l => intros; unfold m1T2Low; split <;> rfl
  case h2l =>
    intros
    unfold m1T3Low
    split
    · split <;> rfl
    · rfl
    · rfl
  case h3l => intros; simp [m1T4Low, dispatchEntry_ph]
  case hc => intro n c _ hc; exact laterTick_ph hc (Nat.mod_lt n (by decide)) _ l s
  all_goals intros; rfl

theorem Level.flip_ne (c : Level) : c.flip ≠ c := by cases c <;> decide

/-- Settles O44: the four ways a tick goes, and of an accepted one that its action keeps the count and the phase. -/
theorem tickOrderOfEvaluation : Obligations.TickOrderOfEvaluation := by
  intro l s
  refine ⟨fun hr => by simp [tick, tickAs, hr], fun hr hst => by simp [tick, tickAs, hr, hst],
    fun hr hst hcl => by simp [tick, tickAs, hr, hst, hcl], fun hr hst hcl => ?_⟩
  have htick := tick_of_accepts ((State.accepts_iff l s).mpr ⟨hr, hst, hcl⟩)
  rw [htick, tickAction_ticks, tickAction_ph]
  exact ⟨rfl, rfl, s.seq.ph.flip_ne, tickAction_result s.seq.opacc l s.acceptTick⟩

/-! ### M1 T1 and the halted hold -/

theorem tickAction_m1T1High (e : Entry) {l : TickIn} {s : State} (h : s.seq.step = 0#8) (hl : l.clk = .high) :
    tickAction e l s = (m1T1High s, .ok) := by
  simp [tickAction, h, hl]

theorem tickAction_m1T1Low (e : Entry) {l : TickIn} {s : State} (h : s.seq.step = 0#8) (hl : l.clk = .low) :
    tickAction e l s = (m1T1Low l s, .ok) := by
  simp [tickAction, h, hl]

/-- M1 T1 low in one update: the strobes, and `STEP` to 1 unless the halted hold keeps it (40_sequencer R135, R136). -/
theorem m1T1Low_eq (l : TickIn) (s : State) :
    m1T1Low l s = { s with
      bus.mreq := true, bus.rd := true
      seq.step := if s.ctl.haltf && !s.interruptPending l then s.seq.step else 1#8 } := by
  unfold m1T1Low
  split <;> rfl

/-- Settles O55: the action of the tick is M1 T1 low. -/
theorem holdAtM1T1Low : Obligations.HoldAtM1T1Low := by
  intro l s ha hcl hst
  obtain ⟨-, -, hph⟩ := (State.accepts_iff l s).mp ha
  rw [tick_of_accepts ha, tickAction_m1T1Low _ (s := s.acceptTick) hst hcl, m1T1Low_eq]
  simp [State.acceptTick, ← hph, hcl, hst, State.interruptPending, State.interruptsEnabled]

/-! ### Where `WAIT` is looked at -/

/-- The cycle has a transfer that `WAIT` can hold: an operand read or a memory write (40_sequencer R162). -/
def Cycle.onBus : Cycle → Bool
  | .operandRead _ => true
  | .memoryWrite _ => true
  | .internal => false

theorem State.atT2_later {s : State} {n : Nat} {c : Cycle} (h : s.seq.step.toNat = n + 4)
    (hc : (tableEntry s.seq.opacc).later[n / 4]? = some c) : s.atT2 = (n % 4 == 1 && c.onBus) := by
  unfold State.atT2
  rw [h]
  cases c <;> simp [hc, Cycle.onBus]

/-- `WAIT` holds a later bus cycle at T2 low (40_sequencer R150, R155). -/
theorem laterTick_held (e : Entry) {c : Cycle} (last : Bool) {l : TickIn} (s : State) (hc : c.onBus = true)
    (hcl : l.clk = .low) (hw : l.wait = true) : laterTick e c last 1 l s = s := by
  cases c with
  | operandRead f => simp [laterTick, operandReadTick, hcl, hw]
  | memoryWrite rr => simp [laterTick, memoryWriteTick, hcl, hw]
  | internal => cases hc

/-- `WAIT` holds every bus cycle at T2 low: the action is nothing (40_sequencer R162). -/
theorem tickAction_held {l : TickIn} {s : State} (hT2 : s.atT2 = true) (hcl : l.clk = .low) (hw : l.wait = true) :
    tickAction (tableEntry s.seq.opacc) l s = (s, .ok) := by
  revert hT2
  apply tickAction_elim (P := fun x => s.atT2 = true → x = (s, .ok))
  case h1l => intros; simp [m1T2Low, hw]
  case hn => intros; rfl
  case hc =>
    intro n c hst hc hT2
    rw [State.atT2_later hst hc, Bool.and_eq_true, beq_iff_eq] at hT2
    rw [hT2.1, laterTick_held _ _ s hT2.2 hcl hw]
  case h0l => intro hst _ hT2; simp [State.atT2, hst] at hT2
  case h2l => intro hst _ hT2; simp [State.atT2, hst] at hT2
  case h3l => intro hst _ hT2; simp [State.atT2, hst] at hT2
  all_goals intro _ hh; rw [hcl] at hh; cases hh

/-- Away from T2 low of a bus cycle a later cycle does not look at `WAIT` (40_sequencer R150, R155, R158). -/
theorem laterTick_wait (e : Entry) {c : Cycle} (last : Bool) {t : Nat} {l : TickIn} (s : State) (b : Bool)
    (h : ¬ (l.clk = .low ∧ t = 1 ∧ c.onBus = true)) :
    laterTick e c last t { l with wait := b } s = laterTick e c last t l s := by
  unfold laterTick
  split
  · rfl
  · cases c with
    | operandRead f =>
      unfold operandReadTick
      simp only
      split
      case h_4 hcl _ => exact absurd ⟨hcl, rfl, rfl⟩ h
      all_goals rfl
    | memoryWrite rr =>
      unfold memoryWriteTick
      simp only
      split
      case h_4 hcl _ => exact absurd ⟨hcl, rfl, rfl⟩ h
      all_goals rfl
    | internal => rfl

/-- Away from T2 low of a bus cycle no action looks at `WAIT` (40_sequencer R162). -/
theorem tickAction_wait {l : TickIn} {s : State} (b : Bool) (h : ¬ (l.clk = .low ∧ s.atT2 = true)) :
    tickAction (tableEntry s.seq.opacc) { l with wait := b } s = tickAction (tableEntry s.seq.opacc) l s := by
  unfold tickAction
  simp only
  split
  case h_4 hst hcl => exact absurd ⟨hcl, by simp [State.atT2, hst]⟩ h
  case h_9 n _ hst =>
    split
    · rfl
    · next c hc =>
      rw [laterTick_wait _ _ s b (by
        rintro ⟨hcl, ht, hbus⟩
        exact h ⟨hcl, by simp [State.atT2_later hst hc, ht, hbus]⟩)]
  all_goals rfl

/-- A tick looks at the levels other than `CLK` and `RESET` in its action only (40_sequencer R149). -/
theorem tick_congr {l l' : TickIn} {s : State} (hclk : l'.clk = l.clk) (hreset : l'.reset = l.reset)
    (h : s.accepts l = true → tickAction (tableEntry s.seq.opacc) l' s.acceptTick =
      tickAction (tableEntry s.seq.opacc) l s.acceptTick) : tick l' s = tick l s := by
  unfold tick tickAs
  rw [hclk, hreset]
  split
  · rfl
  · next hr =>
    split
    · rfl
    · next hst =>
      split
      · rfl
      · next hcl =>
        simp only [Bool.not_eq_true, ne_eq, not_not] at hr hst hcl
        exact h ((State.accepts_iff l s).mpr ⟨hr, hst, hcl⟩)

/-- Settles O54: at T2 low of a bus cycle `WAIT` makes the action nothing, and elsewhere no action looks at it. -/
theorem waitOnlyAtT2Low : Obligations.WaitOnlyAtT2Low := by
  intro l s
  refine ⟨fun ha hcl hT2 hw => ?_, fun h b => ?_⟩
  · obtain ⟨-, -, hph⟩ := (State.accepts_iff l s).mp ha
    have hheld : tickAction (tableEntry s.seq.opacc) l s.acceptTick = (s.acceptTick, .ok) :=
      tickAction_held (s := s.acceptTick) hT2 hcl hw
    rw [tick_of_accepts ha, hheld]
    simp [State.acceptTick, ← hph, hcl]
  · exact tick_congr rfl rfl fun ha => tickAction_wait (s := s.acceptTick) b fun ⟨hcl, hT2⟩ => h ⟨ha, hcl, hT2⟩

/-! ### A prefix byte -/

/-- An entry that ends at a fetch with a legal pending byte, in the control state that the sample of its M1 leaves, leaves
the machine ready (40_sequencer R145, R147). -/
theorem Settled.ready {n : Nat} {l : TickIn} {s t : State} (hs : s.ready = true) (h : Settled n s t)
    (hctl : t.ctl = (s.sample l).ctl) (hp : isPendingByte t.pendingByte = true) : t.ready = true := by
  obtain ⟨hf, hr, hh⟩ := State.ready_iff.mp hs
  have hquiet := h.lines
  simp only [Bus.quiet, Bool.and_eq_true, Bool.not_eq_true'] at hquiet
  obtain ⟨⟨-, hwr⟩, hrfsh⟩ := hquiet
  have hstopped : t.ctl.stopped = false := by rw [hctl, State.sample_stopped, State.atFetch_stopped hf]
  have hfetch : t.atFetch = true := by simp [State.atFetch, h.step, h.phase, hstopped, hwr, hrfsh, hp]
  have hhalt : t.ctl.haltf = false := by rw [hctl]; exact State.sample_not_halted l hh
  exact State.ready_iff.mpr ⟨hfetch, noReset_of_suffix hr h.schedule, hhalt⟩

/-- The two prefix bytes: their meaning is the run of a pending-byte entry (41_nop_halt_prefix R182, R183). -/
theorem exec_pendingByte {i : Instr} {b : Byte} (h : (i, b) ∈ [(Instr.prefixIx, 0xdd#8), (Instr.prefixIy, 0xfd#8)]) :
    isPendingByte b = true ∧ ∃ e : Entry, e.kind = .pendingByte ∧ e.later = [] ∧ e.effect = id ∧
      ∀ s, exec i s = runInstr e s := by
  simp only [List.mem_cons, Prod.mk.injEq, List.not_mem_nil, or_false] at h
  rcases h with ⟨rfl, rfl⟩ | ⟨rfl, rfl⟩
  · exact ⟨rfl, entryPrefixIx, rfl, rfl, rfl, fun _ => rfl⟩
  · exact ⟨rfl, entryPrefixIy, rfl, rfl, rfl, fun _ => rfl⟩

/-- Settles O28: the run of a pending-byte entry, which leaves the byte it fetched in both halves of `OPACC`. -/
theorem prefixByteResult : Obligations.PrefixByteResult := by
  intro i b hib s hs hb
  obtain ⟨hp, e, hkind, hlater, heffect, hexec⟩ := exec_pendingByte hib
  obtain ⟨l, t, hrun, hsettled, hl, hctl, hhalt, hopacc, hinstrs, hregs, hmem, htmp, haddr, hdata⟩ :=
    run_pending e hkind hlater heffect hs
  rw [hb] at hopacc
  have hready : t.ready = true := hsettled.ready hs hctl (by rwa [State.pendingByte, hopacc, hiByte_joinBytes])
  exact ⟨l, t, (hexec s).trans hrun, hsettled, ⟨hmem, htmp, haddr, hdata⟩, hl, hctl, hhalt, hopacc, hinstrs, hregs, hready⟩


/-! ### The halted hold as a step -/

@[simp] theorem m1T1High_regs (s : State) : (m1T1High s).regs = s.regs := rfl
@[simp] theorem m1T1High_ctl (s : State) : (m1T1High s).ctl = s.ctl := rfl
@[simp] theorem m1T1High_seq (s : State) : (m1T1High s).seq = s.seq := rfl
@[simp] theorem m1T1High_totals (s : State) : (m1T1High s).totals = s.totals := rfl
@[simp] theorem m1T1High_bus (s : State) : (m1T1High s).bus = { s.bus with addr := s.regs.pc, m1 := true } := rfl
@[simp] theorem m1T1High_mem (s : State) : (m1T1High s).mem = s.mem := rfl
@[simp] theorem m1T1High_cfg (s : State) : (m1T1High s).cfg = s.cfg := rfl
@[simp] theorem m1T1High_inputs (s : State) : (m1T1High s).inputs = s.inputs := rfl

/-! What the service and the count of an accepted tick leave of the state. -/

@[simp] theorem State.accepted_regs (s : State) (ls : List TickIn) : (s.accepted ls).regs = s.regs := by
  simp [State.accepted]
@[simp] theorem State.accepted_ctl (s : State) (ls : List TickIn) : (s.accepted ls).ctl = s.ctl := by
  simp [State.accepted]
@[simp] theorem State.accepted_seq (s : State) (ls : List TickIn) :
    (s.accepted ls).seq = { s.seq with ph := s.seq.ph.flip } := by
  simp [State.accepted]
@[simp] theorem State.accepted_totals (s : State) (ls : List TickIn) :
    (s.accepted ls).totals = { s.totals with ticks := s.totals.ticks + 1#64 } := by
  simp [State.accepted]
@[simp] theorem State.accepted_cfg (s : State) (ls : List TickIn) : (s.accepted ls).cfg = s.cfg := by
  simp [State.accepted]
@[simp] theorem State.accepted_inputs (s : State) (ls : List TickIn) : (s.accepted ls).inputs = ls := rfl

/-- The service changes no line of the bus but `DATA` (20_memory R76). -/
theorem State.accepted_bus (s : State) (ls : List TickIn) :
    (s.accepted ls).bus = { s.bus with data := (s.accepted ls).bus.data } :=
  State.service_bus s

theorem State.accepted_mem {s : State} (h : s.bus.wr = false) (ls : List TickIn) : (s.accepted ls).mem = s.mem :=
  State.service_mem_of_not_wr h

/-- A tick that ends a run whatever levels of the schedule it has. -/
theorem ends_tick_of {e : Entry} {s : State} (f : List TickIn → State) (r : TickResult) (hs : s.ctl.stopped = false)
    (hr : s.noReset = true) (hv : s.service.service = s.service)
    (h : ∀ l ls, l.clk = s.seq.ph → FromSchedule s.seq.ph s.inputs l → tickAction e l (s.accepted ls) = (f ls, r))
    (hf : ∀ ls, endsRun r (f ls) = true) : ∃ ls, ls <:+ s.inputs ∧ Ends e s 1 (f ls) := by
  obtain ⟨n, l, ls, hclk, -, hgives, hn, -, hrun⟩ := exists_accepted s hs hr hv
  refine ⟨ls, hgives.suffix, n + 1, by omega, fun m => ?_⟩
  rw [hrun, h l ls hclk hgives.from]
  simp [hf]

/-- Whether an enabled line is asserted depends on the levels and the flip-flops only (60_exceptions R303). -/
theorem State.interruptPending_congr {s t : State} (h : t.ctl = s.ctl) (l : TickIn) :
    t.interruptPending l = s.interruptPending l := by
  simp only [State.interruptPending, State.interruptsEnabled, h]

/-- Every level that a tick of the hold can have leaves the hold on (40_sequencer R136). -/
theorem State.not_pending_of_fromSchedule {s : State} {p : Level} {ls : List TickIn} {l : TickIn}
    (h : ∀ l ∈ ls, s.interruptPending l = false) (hl : FromSchedule p ls l) : s.interruptPending l = false := by
  rcases hl with rfl | hl
  · simp [State.interruptPending, TickIn.idle]
  · exact h l hl

/-- At a fetch a step is the run of some entry: the decoder accepts (30_encoding R109, R110). -/
theorem step_eq_runInstr {s : State} (hf : s.atFetch = true) : ∃ e : Entry, step s = runInstr e s := by
  have hp : isPendingByte s.pendingByte = true := by
    rw [State.atFetch, Bool.and_eq_true] at hf
    exact hf.2
  obtain ⟨i, rest, hd⟩ := everyOpcodeByteDecodes s.pendingByte (s.mem.read s.regs.pc) (s.mem.read (s.regs.pc + 1#16))
    (s.mem.read (s.regs.pc + 2#16)) [] hp
  exact ⟨_, (step_of_decode hf hd).trans (exec_eq_runInstr i s)⟩

/-- In the halted hold the run of any entry ends after one pass of M1 T1 (40_sequencer R136). -/
theorem ends_hold (e : Entry) {s : State} (hf : s.atFetch = true) (hr : s.noReset = true) (hh : s.ctl.haltf = true)
    (hn : ∀ l ∈ s.inputs, s.interruptPending l = false) :
    ∃ ls ks, ks <:+ s.inputs ∧
      Ends e s 2 { (m1T1High (s.accepted ls)).accepted ks with bus.mreq := true, bus.rd := true } := by
  have hst := State.atFetch_stopped hf
  have hwr := State.atFetch_wr hf
  simp only [State.atFetch, Bool.and_eq_true, beq_iff_eq] at hf
  obtain ⟨⟨⟨⟨⟨hstep, hph⟩, -⟩, -⟩, -⟩, -⟩ := hf
  obtain ⟨-, ls, -, hls, ha⟩ := advances_tick_of (e := e) (fun _ ls => m1T1High (s.accepted ls)) hst hr
    (State.service_service (.inr hwr) (.inr hwr))
    (fun l ls hl _ => tickAction_m1T1High e (by simpa using hstep) (hl.trans hph))
    (fun l ls => by simp [m1T1High, hph]) (fun _ _ => rfl)
  generalize hu : m1T1High (s.accepted ls) = u at ha
  have huctl : u.ctl = s.ctl := by simp [← hu]
  have huseq : u.seq = { s.seq with ph := .low } := by simp [← hu, hph]
  have huin : u.inputs = ls := by simp [← hu]
  have huwr : u.bus.wr = false := by rw [← hu, m1T1High_bus, State.accepted_bus]; exact hwr
  obtain ⟨ks, hks, hb⟩ := ends_tick_of (e := e) (s := u)
    (fun ks => { u.accepted ks with bus.mreq := true, bus.rd := true }) .ok
    (by rw [huctl]; exact hst) (noReset_of_suffix hr (huin ▸ hls)) (State.service_service (.inr huwr) (.inr huwr))
    (fun l ks hl hfrom => by
      have hpend : s.interruptPending l = false :=
        State.not_pending_of_fromSchedule (fun l hl => hn l (hls.subset (huin ▸ hl))) hfrom
      have hhold : ((u.accepted ks).ctl.haltf && !(u.accepted ks).interruptPending l) = true := by
        rw [State.interruptPending_congr (s := s) (by simp [huctl])]
        simp [huctl, hh, hpend]
      rw [tickAction_m1T1Low e (by simpa [huseq] using hstep) (by rw [hl, huseq]), m1T1Low, if_pos hhold])
    (fun ks => by simp [endsRun, huseq, hstep])
  subst hu
  exact ⟨ls, ks, (huin ▸ hks).trans hls, ha.ends hb⟩

/-- Settles O56: the pass of M1 T1 drives the address and the strobes and comes back to where it began. -/
theorem haltedHoldIsAFixedPoint : Obligations.HaltedHoldIsAFixedPoint := by
  intro s hf hr hh hn
  obtain ⟨e, hstep⟩ := step_eq_runInstr hf
  obtain ⟨ls, ks, hks, hends⟩ := ends_hold e hf hr hh hn
  have hwr := State.atFetch_wr hf
  have hwr' : (m1T1High (s.accepted ls)).bus.wr = false := by
    rw [m1T1High_bus, State.accepted_bus]; exact hwr
  refine ⟨_, hstep.trans (runInstr_of_ends hends (by simp only [Entry.cycles]; omega)), by simp, by simp, by simp, ?_, by simp,
    ?_, ?_, hks⟩
  · exact (State.accepted_mem hwr' ks).trans (State.accepted_mem hwr ls)
  · simp [BitVec.add_assoc]
  · change ({ ((m1T1High (s.accepted ls)).accepted ks).bus with mreq := true, rd := true } : Bus) = _
    rw [State.accepted_bus, m1T1High_bus, State.accepted_bus s]
    simp

/-! ### The bus of one opcode fetch -/

/-- The state inside T1 or T2 of the opcode fetch that begins in `s`, `PC` on the address lines and the strobes `MREQ` and
`RD` as `strobe` says (40_sequencer R134, R135, R138). -/
def State.inFetch (s : State) (op : Word) (st : StepCount) (p : Level) (k : Counter) (strobe : Bool) (d : Byte) : State :=
  { s with
    seq := { opacc := op, step := st, tmp := s.seq.tmp, ph := p }
    totals.ticks := k
    bus := { addr := s.regs.pc, data := d, m1 := true, mreq := strobe, rd := strobe, wr := false, rfsh := false,
             halt := s.bus.halt, busack := s.bus.busack }
    inputs := [] }

/-- The backend answers the strobes (20_memory R76). -/
theorem State.inFetch_accepted (s : State) (op : Word) (st : StepCount) (p : Level) (k : Counter) (strobe : Bool) (d : Byte) :
    (s.inFetch op st p k strobe d).accepted [] =
      s.inFetch op st p.flip (k + 1#64) strobe (if strobe then s.mem.read s.regs.pc else d) := by
  cases strobe <;>
    simp [State.accepted, State.service, State.serviceRead, State.serviceWrite, State.inFetch, State.setInputs,
      State.acceptTick]

theorem clockN_succ (n : Nat) (s : State) : clockN (n + 1) s = (clock (clockN n s)).1 := by
  induction n generalizing s with
  | zero => rfl
  | succ n ih => exact ih (clock s).1

theorem clockN_next {n : Nat} {s t u : State} (h : clockN n s = t) (hc : (clock t).1 = u) : clockN (n + 1) s = u := by
  rw [clockN_succ, h, hc]

/-- After the end of the schedule every round is an accepted tick at which the host asserts nothing (log 2). -/
theorem clock_unscheduled {s : State} (hi : s.inputs = []) (hst : s.ctl.stopped = false) :
    (clock s).1 = (tickAction (tableEntry s.seq.opacc) (TickIn.idle s.seq.ph) (s.accepted [])).1 := by
  simp [clock, tick, tickAs, State.nextLevels, State.served, hi, TickIn.idle, hst, State.accepted]

/-- Without `MREQ`, or in the refresh, the backend does nothing (20_memory R76). -/
theorem State.accepted_unserved {s : State} (h : s.bus.mreq = false ∨ s.bus.rfsh = true) (ls : List TickIn) :
    s.accepted ls = (s.setInputs ls).acceptTick := by
  have hservice : s.service = s := by
    rcases h with h | h <;> simp [State.service, State.serviceRead, State.serviceWrite, h]
  rw [State.accepted, hservice]

/-! The rounds of an opcode fetch of `s` after the end of the schedule, each as one equation of states. -/

section Fetch

variable {s : State}

theorem clock_atFetch (hf : s.atFetch = true) (hi : s.inputs = []) (hq : s.bus.quiet = true) :
    (clock s).1 = s.inFetch s.seq.opacc 0#8 .low (s.totals.ticks + 1#64) false s.bus.data := by
  have hst := State.atFetch_stopped hf
  simp only [State.atFetch, Bool.and_eq_true, beq_iff_eq] at hf
  obtain ⟨⟨⟨⟨⟨hstep, hph⟩, -⟩, -⟩, -⟩, -⟩ := hf
  simp only [Bus.quiet, Bool.and_eq_true, Bool.not_eq_true'] at hq
  obtain ⟨⟨⟨⟨hm1, hmreq⟩, hrd⟩, hwr⟩, hrfsh⟩ := hq
  rw [clock_unscheduled hi hst, tickAction_m1T1High _ (by simpa using hstep) hph, State.accepted_unserved (.inl hmreq)]
  simp [m1T1High, State.inFetch, State.acceptTick, State.setInputs, hmreq, hrd, hwr, hrfsh, hph, hstep]

theorem clock_inFetch (hst : s.ctl.stopped = false) (op : Word) (st : StepCount) (p : Level) (k : Counter) (strobe : Bool)
    (d : Byte) :
    (clock (s.inFetch op st p k strobe d)).1 =
      (tickAction (tableEntry op) (TickIn.idle p)
        (s.inFetch op st p.flip (k + 1#64) strobe (if strobe then s.mem.read s.regs.pc else d))).1 := by
  rw [clock_unscheduled (s := s.inFetch op st p k strobe d) rfl hst, State.inFetch_accepted]
  rfl

theorem clock_t1Low (hst : s.ctl.stopped = false) (hh : s.ctl.haltf = false) (op : Word) (k : Counter) (d : Byte) :
    (clock (s.inFetch op 0#8 .low k false d)).1 = s.inFetch op 1#8 .high (k + 1#64) true d := by
  rw [clock_inFetch hst, tickAction_m1T1Low _ rfl rfl, m1T1Low, if_neg (by simp [State.inFetch, hh])]
  rfl

theorem clock_t2High (hst : s.ctl.stopped = false) (op : Word) (k : Counter) (d : Byte) :
    (clock (s.inFetch op 1#8 .high k true d)).1 = s.inFetch op 1#8 .low (k + 1#64) true (s.mem.read s.regs.pc) := by
  rw [clock_inFetch hst]
  rfl

theorem clock_t2Low (hst : s.ctl.stopped = false) (op : Word) (k : Counter) (d : Byte) :
    (clock (s.inFetch op 1#8 .low k true d)).1 =
      s.inFetch (joinBytes (hiByte op) (s.mem.read s.regs.pc)) 2#8 .high (k + 1#64) true (s.mem.read s.regs.pc) := by
  rw [clock_inFetch hst]
  rfl

theorem clock_t3High (hst : s.ctl.stopped = false) (k : Counter) (d : Byte) :
    (clock (s.inFetch (joinBytes (hiByte s.seq.opacc) (s.mem.read s.regs.pc)) 2#8 .high k true d)).1 =
      s.atDecodePoint (k + 1#64) [] := by
  rw [clock_inFetch hst]
  rfl

/-- The state between M1 T3 low and M1 T4 high of the fetch of `e` that begins in `s`: as before M1 T4 low, but `PC` has not
moved (40_sequencer R140 to R142). -/
def State.beforeT4 (s : State) (e : Entry) (k : Counter) : State :=
  { s.atDispatch e k [] with regs := s.regs, seq.ph := .high }

theorem clock_t3Low (hst : s.ctl.stopped = false) (hp : s.cfg.policy = .noop) (k : Counter) :
    (clock (s.atDecodePoint k [])).1 = s.beforeT4 (tableEntry (s.atDecodePoint k []).seq.opacc) (k + 1#64) := by
  generalize he : tableEntry (s.atDecodePoint k []).seq.opacc = e
  rw [clock_unscheduled (s := s.atDecodePoint k []) rfl hst, State.accepted_unserved (.inr rfl), he]
  change (m1T3Low e ((s.atDecodePoint k []).setInputs []).acceptTick).1 = _
  have hpolicy : ((s.atDecodePoint k []).setInputs []).acceptTick.cfg.policy = .noop := hp
  unfold m1T3Low State.beforeT4 State.atDispatch Entry.decodedCtl
  cases e.kind with
  | instruction => rfl
  | pendingByte => rfl
  | unrecognised op => rw [hpolicy]; rfl

theorem clock_t4High (hst : s.ctl.stopped = false) (e : Entry) (k : Counter) :
    (clock (s.beforeT4 e k)).1 = s.atDispatch e (k + 1#64) [] := by
  have hst' : (s.beforeT4 e k).ctl.stopped = false := (decodedCtl_stopped e s.ctl).trans hst
  rw [clock_unscheduled rfl hst', State.accepted_unserved (.inr rfl)]
  rfl

theorem clock_t4Low (hst : s.ctl.stopped = false) (e : Entry) (k : Counter)
    (he : tableEntry (joinBytes (hiByte s.seq.opacc) (s.mem.read s.regs.pc)) = e) :
    (clock (s.atDispatch e k [])).1 = dispatchEntry e (s.afterM1 e (TickIn.idle .low) (k + 1#64) []) := by
  have hst' : (s.atDispatch e k []).ctl.stopped = false := (decodedCtl_stopped e s.ctl).trans hst
  have hop : tableEntry (s.atDispatch e k []).seq.opacc = e := he
  rw [clock_unscheduled rfl hst', hop]
  exact congrArg Prod.fst (tickAction_m1T4 e s k (TickIn.idle .low) [] [] rfl)

end Fetch


/-- A one-cycle entry ends with its dispatch, which leaves every line but `HALT` alone (40_sequencer R144). -/
theorem dispatchEntry_last {op : Word} (hl : (tableEntry op).later = []) (s : State) :
    (dispatchEntry (tableEntry op) s).seq.step = 0#8 ∧
      (dispatchEntry (tableEntry op) s).bus = { s.bus with halt := (dispatchEntry (tableEntry op) s).bus.halt } := by
  obtain ⟨-, -, -, -, -, -, -, -, -, -, -, -, hbus⟩ := tableEntry_effect_regs op s
  unfold dispatchEntry
  rw [hl]
  split
  · exact ⟨rfl, rfl⟩
  · exact ⟨rfl, hbus⟩
  · exact ⟨rfl, hbus⟩

/-- The byte at `PC` completes the effective opcode of the instruction decoded there, and `OPACC` then selects its entry
(30_encoding R105, R108). -/
theorem tableEntry_of_decode {s : State} {i : Instr} {rest : List Byte}
    (h : decode s.pendingByte s.streamBytes = .ok (i, rest)) :
    tableEntry (joinBytes (hiByte s.seq.opacc) (s.mem.read s.regs.pc)) = entryOf i := by
  obtain ⟨hwf, hp, hbytes⟩ := decode_ok h
  have hbyte : s.mem.read s.regs.pc = loByte i.opcode := by
    simp only [State.streamBytes, Instr.body, List.cons_append, List.cons.injEq] at hbytes
    exact hbytes.1
  have hpending : hiByte s.seq.opacc = hiByte i.opcode := hp
  rw [hbyte, hpending, joinBytes_hiByte_loByte, tableEntry_opcode hwf]

/-- Settles O47: the state after each of the eight rounds is known, and the table reads its lines. -/
theorem fetchShowsTheBusTable : Obligations.FetchShowsTheBusTable := by
  intro s i rest hs hi hq hp hd hcycles lines ir
  obtain ⟨hf, -, hh⟩ := State.ready_iff.mp hs
  have hst := State.atFetch_stopped hf
  have hentry := tableEntry_of_decode hd
  have hlater : (tableEntry (joinBytes (hiByte s.seq.opacc) (s.mem.read s.regs.pc))).later = [] := by
    rw [hentry, ← List.length_eq_zero_iff]
    simpa [Entry.cycles] using hcycles
  have c1 : clockN 1 s = _ := clock_atFetch hf hi hq
  have c2 := clockN_next c1 (clock_t1Low hst hh _ _ _)
  have c3 := clockN_next c2 (clock_t2High hst _ _ _)
  have c4 := clockN_next c3 (clock_t2Low hst _ _ _)
  have c5 := clockN_next c4 (clock_t3High hst _ _)
  have c6 := clockN_next c5 (clock_t3Low hst hp _)
  have c7 := clockN_next c6 (clock_t4High hst _ _)
  have c8 := clockN_next c7 (clock_t4Low hst _ _ rfl)
  rw [c1, c2, c3, c4, c5, c6, c7, c8]
  exact ⟨rfl, rfl, rfl, rfl, rfl, rfl, rfl, loByte_joinBytes _ _, rfl, rfl, rfl, rfl, rfl,
    congrArg (fun b : Bus => (b.addr, b.m1, b.mreq, b.rd, b.rfsh)) (dispatchEntry_last hlater _).2,
    (dispatchEntry_pc_r _ _).2, (dispatchEntry_last hlater _).1⟩

end Sys2Proof.Machine

namespace Sys2Proof.Machine

/-! ### `NOP`, `HALT` and an unrecognised opcode under `noop` -/

/-- The register file after the opcode fetch, in the two spellings of the laws and of the obligations (10_state R26, R28). -/
theorem State.fetched_eq_moved (s : State) : s.regs.fetched = s.regs.moved 1 s := rfl

/-- Settles O27: the run of `HALT`'s entry, whose effect follows the sample of its own fetch. -/
theorem haltResult : Obligations.HaltResult := by
  intro s hs
  obtain ⟨l, t, hrun, hsettled, hl, hctl, hhalt, hopacc, hinstrs, hregs, hmem, htmp, haddr, hdata⟩ := run_halt hs
  exact ⟨l, t, (exec_eq_runInstr .halt s).trans hrun, hsettled, ⟨hmem, htmp, haddr, hdata⟩, hl, hctl, hhalt, hopacc,
    hinstrs, hregs.trans s.fetched_eq_moved⟩

/-- Settles O29: the run of an unrecognised entry, which records its opcode at the decode point and goes on. -/
theorem unrecognisedNoopResult : Obligations.UnrecognisedNoopResult := by
  intro op s hs hpolicy
  obtain ⟨l, t, hrun, hsettled, hl, hctl, hhalt, hopacc, hinstrs, hregs, hmem, htmp, haddr, hdata⟩ :=
    run_unrecognised op hs hpolicy
  exact ⟨l, t, (exec_eq_runInstr (.unrecognised op) s).trans hrun, hsettled, ⟨hmem, htmp, haddr, hdata⟩, hl, hctl, hhalt,
    hopacc, hinstrs, hregs.trans s.fetched_eq_moved⟩

/-- Settles O26: the run of the one-cycle entry whose effect on the register file is the identity. -/
theorem nopResult : Obligations.NopResult := by
  intro s hs
  obtain ⟨l, t, hrun, hcompleted, hregs, hmem, htmp, haddr, hdata⟩ := run_oneCycle (f := id) id (fun _ => rfl) hs
  exact ⟨l, t, (exec_eq_runInstr .nop s).trans hrun, hcompleted, ⟨hmem, htmp, haddr, hdata⟩,
    hregs.trans s.fetched_eq_moved⟩

end Sys2Proof.Machine

namespace Sys2Proof.Machine

/-! ### `LD r,n` -/

/-- The seven `LD r,n` are one entry, with the immediate as the operand byte (42_loads R201 to R207). -/
theorem entryOf_loadReg {n : Byte} {i : Instr} {r : Reg8} (h : (i, r) ∈ loadRegForms n) :
    entryOf i = loadReg8Entry r ∧ i.operands = [n] := by
  simp only [loadRegForms, List.mem_cons, Prod.mk.injEq, List.not_mem_nil, or_false] at h
  rcases h with ⟨rfl, rfl⟩ | ⟨rfl, rfl⟩ | ⟨rfl, rfl⟩ | ⟨rfl, rfl⟩ | ⟨rfl, rfl⟩ | ⟨rfl, rfl⟩ | ⟨rfl, rfl⟩ <;>
    exact ⟨rfl, rfl⟩

/-- Loading a register after the fetch of the opcode byte and of the immediate is loading it before (10_state R26, R28). -/
theorem onRegs_setReg8_fetched (r : Reg8) (n : Byte) (s : State) :
    { onRegs (State.setReg8 r n) s.regs.fetched with pc := s.regs.pc + 2#16 } = (s.setReg8 r n).regs.moved 2 s := by
  cases r <;> rfl

/-- Moving `PC` and stepping `R` leaves `F` alone (10_state R22). -/
theorem State.flags_of_moved {n : Nat} {s t u : State} (h : t.regs = u.regs.moved n s) : t.flags = u.flags := by
  have haf : t.regs.af = u.regs.af := by rw [h]; rfl
  exact congrArg loByte haf

/-- Settles O20: the run of the entry with one operand read, whose latch writes the register. -/
theorem loadRegisterResult : Obligations.LoadRegisterResult := by
  intro n i r hi s hs
  obtain ⟨hentry, hoperands⟩ := entryOf_loadReg hi
  obtain ⟨l, t, hrun, hcompleted, hregs, hmem, htmp, haddr, hdata⟩ := run_loadReg8 r n hs
  rw [onRegs_setReg8_fetched] at hregs
  refine ⟨l, t, ?_, hcompleted, hregs, ?_, hmem, htmp, haddr, hdata⟩
  · rw [exec_eq_runInstr, hentry, hoperands, hrun]
  · rw [State.flags_of_moved hregs, State.flags_setReg8]

/-! ### `LD rr,nn` -/

/-- The six `LD rr,nn` are one entry, with the bytes of the immediate as operands, low byte first; none loads `AF`
(42_loads R191 to R196). -/
theorem entryOf_loadPair {nn : Word} {i : Instr} {rr : Pair} (h : (i, rr) ∈ loadPairForms nn) :
    entryOf i = loadPairEntry rr ∧ i.operands = [loByte nn, hiByte nn] ∧ rr ≠ .af := by
  simp only [loadPairForms, List.mem_cons, Prod.mk.injEq, List.not_mem_nil, or_false] at h
  rcases h with ⟨rfl, rfl⟩ | ⟨rfl, rfl⟩ | ⟨rfl, rfl⟩ | ⟨rfl, rfl⟩ | ⟨rfl, rfl⟩ | ⟨rfl, rfl⟩ <;>
    exact ⟨rfl, rfl, by decide⟩

/-- Loading a pair after the fetch of the opcode byte and of the immediate is loading it before (10_state R26, R28). -/
theorem onRegs_setPair_fetched (rr : Pair) (nn : Word) (s : State) :
    { onRegs (State.setPair rr nn) s.regs.fetched with pc := s.regs.pc + 3#16 } = (s.setPair rr nn).regs.moved 3 s := by
  cases rr <;> rfl

/-- Writing any other pair than `AF` leaves `F` alone (10_state R22). -/
theorem State.flags_setPair {rr : Pair} (nn : Word) (s : State) (h : rr ≠ .af) : (s.setPair rr nn).flags = s.flags :=
  congrArg loByte (State.pair_setPair_other nn s h.symm)

/-- Settles O21: the run of the entry with two operand reads, whose latches write the halves of the pair. -/
theorem loadPairResult : Obligations.LoadPairResult := by
  intro nn i rr hi s hs
  obtain ⟨hentry, hoperands, haf⟩ := entryOf_loadPair hi
  obtain ⟨l, t, hrun, hcompleted, hregs, hmem, htmp, haddr, hdata⟩ := run_loadPair rr (loByte nn) (hiByte nn) hs
  rw [joinBytes_hiByte_loByte, onRegs_setPair_fetched] at hregs
  refine ⟨l, t, ?_, hcompleted, hregs, ?_, hmem, htmp, haddr, hdata⟩
  · rw [exec_eq_runInstr, hentry, hoperands, hrun]
  · rw [State.flags_of_moved hregs, State.flags_setPair nn s haf]

/-! ### `LD (rr),A` -/

/-- The three stores are one entry without operand bytes (42_loads R211 to R213). -/
theorem entryOf_store {i : Instr} {rr : Pair} (h : (i, rr) ∈ storeForms) :
    entryOf i = storeEntry rr ∧ i.operands = [] := by
  simp only [storeForms, List.mem_cons, Prod.mk.injEq, List.not_mem_nil, or_false] at h
  rcases h with ⟨rfl, rfl⟩ | ⟨rfl, rfl⟩ | ⟨rfl, rfl⟩ <;> exact ⟨rfl, rfl⟩

/-- A store is read back where the backend accepts writes, and dropped where it does not (20_memory R76). -/
theorem storeByte_read_same {c : Config} {m : Memory} (a : Word) (d : Byte) (h : m.wf = true) :
    (storeByte c m a d).read a = if writable c a then d else m.read a := by
  unfold storeByte
  split
  · exact Memory.read_write_same a d h
  · rfl

/-- A store leaves every other byte alone (20_memory R76). -/
theorem storeByte_read_other {c : Config} {m : Memory} {a b : Word} (d : Byte) (h : b ≠ a) :
    (storeByte c m a d).read b = m.read b := by
  unfold storeByte
  split
  · exact Memory.read_write_other m d h
  · rfl

/-- Settles O22: the run of the entry with one memory write, which stores `A` as the backend does. -/
theorem storeResult : Obligations.StoreResult := by
  intro i rr hi s hs hm
  obtain ⟨hentry, hoperands⟩ := entryOf_store hi
  obtain ⟨l, t, hrun, hcompleted, hregs, hmem, htmp, haddr, hdata⟩ := run_store rr hs hm
  refine ⟨l, t, ?_, hcompleted, hregs.trans s.fetched_eq_moved, ?_, fun a ha => ?_, ?_, htmp, haddr, hdata⟩
  · rw [exec_eq_runInstr, hentry, hoperands]
    exact hrun
  · rw [hmem, storeByte_read_same _ _ hm]
  · rw [hmem, storeByte_read_other _ ha]
  · rw [hmem]
    exact storeByte_wf _ _ hm

/-! ### The immediates as they lie in memory -/

/-- The opcode bytes of the seven `LD r,n`, with the immediate after them (30_encoding R107, R108). -/
theorem decode_loadReg {b : Byte} {r : Reg8}
    (h : (b, r) ∈ [(0x06#8, Reg8.b), (0x0e#8, .c), (0x16#8, .d), (0x1e#8, .e), (0x26#8, .h), (0x2e#8, .l), (0x3e#8, .a)])
    (n : Byte) (rest : List Byte) :
    ∃ i, decode 0x00#8 (b :: n :: rest) = .ok (i, rest) ∧ (i, r) ∈ loadRegForms n := by
  simp only [List.mem_cons, Prod.mk.injEq, List.not_mem_nil, or_false] at h
  rcases h with ⟨rfl, rfl⟩ | ⟨rfl, rfl⟩ | ⟨rfl, rfl⟩ | ⟨rfl, rfl⟩ | ⟨rfl, rfl⟩ | ⟨rfl, rfl⟩ | ⟨rfl, rfl⟩
  · exact ⟨.ldBN n, rfl, by simp [loadRegForms]⟩
  · exact ⟨.ldCN n, rfl, by simp [loadRegForms]⟩
  · exact ⟨.ldDN n, rfl, by simp [loadRegForms]⟩
  · exact ⟨.ldEN n, rfl, by simp [loadRegForms]⟩
  · exact ⟨.ldHN n, rfl, by simp [loadRegForms]⟩
  · exact ⟨.ldLN n, rfl, by simp [loadRegForms]⟩
  · exact ⟨.ldAN n, rfl, by simp [loadRegForms]⟩

/-- The opcode bytes of the four unprefixed `LD rr,nn`, with the immediate after them, low byte first (30_encoding R107,
R108, 20_memory R77). -/
theorem decode_loadPair {b : Byte} {rr : Pair}
    (h : (b, rr) ∈ [(0x01#8, Pair.bc), (0x11#8, .de), (0x21#8, .hl), (0x31#8, .sp)]) (lo hi : Byte) (rest : List Byte) :
    ∃ i, decode 0x00#8 (b :: lo :: hi :: rest) = .ok (i, rest) ∧ (i, rr) ∈ loadPairForms (joinBytes hi lo) := by
  simp only [List.mem_cons, Prod.mk.injEq, List.not_mem_nil, or_false] at h
  rcases h with ⟨rfl, rfl⟩ | ⟨rfl, rfl⟩ | ⟨rfl, rfl⟩ | ⟨rfl, rfl⟩
  · exact ⟨.ldBcNn (joinBytes hi lo), rfl, by simp [loadPairForms]⟩
  · exact ⟨.ldDeNn (joinBytes hi lo), rfl, by simp [loadPairForms]⟩
  · exact ⟨.ldHlNn (joinBytes hi lo), rfl, by simp [loadPairForms]⟩
  · exact ⟨.ldSpNn (joinBytes hi lo), rfl, by simp [loadPairForms]⟩

/-- Settles O34: the bytes at `PC` decode to the load with the immediate in memory, and O20 and O21 say what it does. -/
theorem immediatesComeFromMemory : Obligations.ImmediatesComeFromMemory := by
  constructor
  · intro b r hb s hs hpending hopcode
    obtain ⟨i, hdecode, hi⟩ := decode_loadReg hb (s.mem.read (s.regs.pc + 1#16)) [s.mem.read (s.regs.pc + 2#16)]
    rw [← hopcode, ← hpending] at hdecode
    obtain ⟨l, t, hexec, -, hregs, -, hmem, -⟩ := loadRegisterResult _ i r hi s hs
    exact ⟨t, (step_of_decode (State.ready_iff.mp hs).1 hdecode).trans hexec, hmem, hregs⟩
  · intro b rr hb s hs hpending hopcode
    obtain ⟨i, hdecode, hi⟩ :=
      decode_loadPair hb (s.mem.read (s.regs.pc + 1#16)) (s.mem.read (s.regs.pc + 2#16)) []
    rw [← hopcode, ← hpending] at hdecode
    obtain ⟨l, t, hexec, -, hregs, -, hmem, -⟩ := loadPairResult _ i rr hi s hs
    exact ⟨t, (step_of_decode (State.ready_iff.mp hs).1 hdecode).trans hexec, hmem, hregs⟩

/-! ### An index instruction as two steps -/

/-- A prefix byte with no prefix pending decodes to its own entry, whatever follows it (30_encoding R108, R111). -/
theorem decode_prefixByte {p : Byte} (h : p = 0xdd#8 ∨ p = 0xfd#8) (rest : List Byte) :
    ∃ i, decode 0x00#8 (p :: rest) = .ok (i, rest) ∧ (i, p) ∈ [(Instr.prefixIx, 0xdd#8), (Instr.prefixIy, 0xfd#8)] := by
  rcases h with rfl | rfl
  · exact ⟨.prefixIx, rfl, by simp⟩
  · exact ⟨.prefixIy, rfl, by simp⟩

/-- The step of a prefix byte at `PC`: the byte stands pending, no instruction is counted, `PC` and `R` move as in every
fetch, memory stays, and the machine is ready for the byte after it (40_sequencer R147). -/
theorem step_prefixByte {p : Byte} {s : State} (hp : p = 0xdd#8 ∨ p = 0xfd#8) (hs : s.ready = true)
    (hpending : s.pendingByte = 0x00#8) (hbyte : s.mem.read s.regs.pc = p) :
    ∃ t, step s = .next t ∧ Settled 1 s t ∧ t.ready = true ∧ t.pendingByte = p ∧ t.totals.instrs = s.totals.instrs ∧
      t.regs = s.regs.moved 1 s ∧ t.mem = s.mem := by
  obtain ⟨i, hdecode, hi⟩ := decode_prefixByte hp [s.mem.read (s.regs.pc + 1#16), s.mem.read (s.regs.pc + 2#16)]
  obtain ⟨l, t, hexec, hsettled, hfetched, -, -, -, hopacc, hinstrs, hregs, hready⟩ := prefixByteResult i p hi s hs hbyte
  rw [← hbyte, ← hpending] at hdecode
  have hpendingByte : t.pendingByte = p := by rw [State.pendingByte, hopacc, hiByte_joinBytes]
  exact ⟨t, (step_of_decode (State.ready_iff.mp hs).1 hdecode).trans hexec, hsettled, hready, hpendingByte, hinstrs, hregs,
    hfetched.mem⟩

/-- After one byte was fetched the instruction stream begins at the next byte (10_state R26). -/
theorem State.streamBytes_of_moved {s t : State} (hregs : t.regs = s.regs.moved 1 s) (hmem : t.mem = s.mem) :
    t.streamBytes =
      [s.mem.read (s.regs.pc + 1#16), s.mem.read (s.regs.pc + 2#16), s.mem.read (s.regs.pc + 3#16)] := by
  have hpc : t.regs.pc = s.regs.pc + 1#16 := congrArg Regs.pc hregs
  simp [State.streamBytes, hmem, hpc, BitVec.add_assoc]

/-- The opcode byte of `LD IX,nn` and `LD IY,nn` under its prefix, with the immediate after it, low byte first
(30_encoding R107, R108, 20_memory R77). -/
theorem decode_loadIndex {p : Byte} {rr : Pair} (h : (p, rr) ∈ [(0xdd#8, Pair.ix), (0xfd#8, .iy)]) (lo hi : Byte)
    (rest : List Byte) :
    ∃ i, decode p (0x21#8 :: lo :: hi :: rest) = .ok (i, rest) ∧ (i, rr) ∈ loadPairForms (joinBytes hi lo) := by
  simp only [List.mem_cons, Prod.mk.injEq, List.not_mem_nil, or_false] at h
  rcases h with ⟨rfl, rfl⟩ | ⟨rfl, rfl⟩
  · exact ⟨.ldIxNn (joinBytes hi lo), rfl, by simp [loadPairForms]⟩
  · exact ⟨.ldIyNn (joinBytes hi lo), rfl, by simp [loadPairForms]⟩

/-- The register file after a prefix byte and the `LD rr,nn` that follows it (10_state R26, R28). -/
theorem setPair_moved_moved {s t : State} (h : t.regs = s.regs.moved 1 s) (rr : Pair) (nn : Word) :
    (t.setPair rr nn).regs.moved 3 t =
      { (s.setPair rr nn).regs with pc := s.regs.pc + 4#16, r := refreshNext (refreshNext s.regs.r) } := by
  cases rr <;> simp [State.setPair, Regs.moved, h, BitVec.add_assoc]

/-- Settles O32: the step of the prefix byte leaves it pending at the fetch of the opcode byte, which decodes under it to
the load that O21 is about. -/
theorem indexLoadInMemory : Obligations.IndexLoadInMemory := by
  intro p lo hi rr hp s hs hpending hprefix hopcode hlo hhi
  have hdd : p = 0xdd#8 ∨ p = 0xfd#8 := by
    simp only [List.mem_cons, Prod.mk.injEq, List.not_mem_nil, or_false] at hp
    exact hp.imp And.left And.left
  obtain ⟨t, hstep, hsettled, hready, htpending, hinstrs, hregs, hmem⟩ := step_prefixByte hdd hs hpending hprefix
  obtain ⟨i, hdecode, hform⟩ := decode_loadIndex hp lo hi []
  obtain ⟨l, u, hexec, hcompleted, huregs, -, humem, hutmp, -⟩ := loadPairResult _ i rr hform t hready
  have hstream : t.streamBytes = [0x21#8, lo, hi] := by
    rw [State.streamBytes_of_moved hregs hmem, hopcode, hlo, hhi]
  rw [← htpending, ← hstream] at hdecode
  refine ⟨l, t, u, hstep, hsettled, htpending, hinstrs, ?_, hcompleted, humem.trans hmem, ?_, ?_⟩
  · rw [step_of_decode (State.ready_iff.mp hready).1 hdecode, hexec]
  · rw [hutmp, loByte_joinBytes]
  · rw [huregs, setPair_moved_moved hregs]

end Sys2Proof.Machine

namespace Sys2Proof.Machine

/-! ### `INC r` and `DEC r` -/

/-- What an instruction does whose entry has one machine cycle and an effect on registers only, one that does not look at
`PC` and `R`: that effect, and nothing but what its fetch does (40_sequencer R144, R145). -/
theorem exec_oneCycle {i : Instr} {f : State → State} (hentry : entryOf i = oneCycle f)
    (hregs : ∀ u, f u = { u with regs := onRegs f u.regs }) {s : State}
    (hfetched : onRegs f s.regs.fetched = (f s).regs.moved 1 s) (hs : s.ready = true) :
    ∃ (l : TickIn) (t : State), exec i s = .next t ∧ Completed 1 l s t ∧ OnlyFetched s t ∧
      t.regs = (f s).regs.moved 1 s := by
  have hrunEntry : exec i s = runInstr (oneCycle f) s := by rw [exec_eq_runInstr, hentry]; rfl
  obtain ⟨l, t, hrun, hcompleted, htregs, hmem, htmp, haddr, hdata⟩ := run_oneCycle (onRegs f) hregs hs
  exact ⟨l, t, hrunEntry.trans hrun, hcompleted, ⟨hmem, htmp, haddr, hdata⟩, htregs.trans hfetched⟩

/-- The seven `INC r` are one entry (43_incdec R221 to R227). -/
theorem entryOf_incReg {i : Instr} {r : Reg8} (h : (i, r) ∈ incRegForms) : entryOf i = oneCycle (State.incReg8 r) := by
  simp only [incRegForms, List.mem_cons, Prod.mk.injEq, List.not_mem_nil, or_false] at h
  rcases h with ⟨rfl, rfl⟩ | ⟨rfl, rfl⟩ | ⟨rfl, rfl⟩ | ⟨rfl, rfl⟩ | ⟨rfl, rfl⟩ | ⟨rfl, rfl⟩ | ⟨rfl, rfl⟩ <;> rfl

/-- The seven `DEC r` are one entry (43_incdec R231 to R237). -/
theorem entryOf_decReg {i : Instr} {r : Reg8} (h : (i, r) ∈ decRegForms) : entryOf i = oneCycle (State.decReg8 r) := by
  simp only [decRegForms, List.mem_cons, Prod.mk.injEq, List.not_mem_nil, or_false] at h
  rcases h with ⟨rfl, rfl⟩ | ⟨rfl, rfl⟩ | ⟨rfl, rfl⟩ | ⟨rfl, rfl⟩ | ⟨rfl, rfl⟩ | ⟨rfl, rfl⟩ | ⟨rfl, rfl⟩ <;> rfl

/-- No `INC r` and no `DEC r` has a form under a prefix byte (43_incdec R220, R230). -/
theorem prefixed_incReg_decReg_not_entry : ∀ x ∈ incRegForms ++ decRegForms,
    isTableOpcode (joinBytes 0xdd#8 (loByte x.1.opcode)) = false ∧
      isTableOpcode (joinBytes 0xfd#8 (loByte x.1.opcode)) = false := by
  decide

/-- Settles O16: the run of the one-cycle entry whose effect is that of `inc8`, and the table's rows. -/
theorem incRegisterResult : Obligations.IncRegisterResult := by
  refine ⟨fun i r hi s hs => ?_, by decide, fun i r hi =>
    prefixed_incReg_decReg_not_entry (i, r) (List.mem_append_left _ hi)⟩
  exact exec_oneCycle (entryOf_incReg hi) (incReg8_eq r) (onRegs_incReg8_fetched r s) hs

/-- Settles O17: the run of the one-cycle entry whose effect is that of `dec8`, and the table's rows. -/
theorem decRegisterResult : Obligations.DecRegisterResult := by
  refine ⟨fun i r hi s hs => ?_, by decide, fun i r hi =>
    prefixed_incReg_decReg_not_entry (i, r) (List.mem_append_right _ hi)⟩
  exact exec_oneCycle (entryOf_decReg hi) (decReg8_eq r) (onRegs_decReg8_fetched r s) hs

/-! ### `INC rr` and `DEC rr` -/

/-- The six `INC rr` are one entry; none increments `AF` (43_incdec R241 to R246). -/
theorem entryOf_incPair {i : Instr} {rr : Pair} (h : (i, rr) ∈ incPairForms) :
    entryOf i = oneCycle (State.incPair rr) ∧ rr ≠ .af := by
  simp only [incPairForms, List.mem_cons, Prod.mk.injEq, List.not_mem_nil, or_false] at h
  rcases h with ⟨rfl, rfl⟩ | ⟨rfl, rfl⟩ | ⟨rfl, rfl⟩ | ⟨rfl, rfl⟩ | ⟨rfl, rfl⟩ | ⟨rfl, rfl⟩ <;>
    exact ⟨rfl, by decide⟩

/-- The six `DEC rr` are one entry; none decrements `AF` (43_incdec R251 to R256). -/
theorem entryOf_decPair {i : Instr} {rr : Pair} (h : (i, rr) ∈ decPairForms) :
    entryOf i = oneCycle (State.decPair rr) ∧ rr ≠ .af := by
  simp only [decPairForms, List.mem_cons, Prod.mk.injEq, List.not_mem_nil, or_false] at h
  rcases h with ⟨rfl, rfl⟩ | ⟨rfl, rfl⟩ | ⟨rfl, rfl⟩ | ⟨rfl, rfl⟩ | ⟨rfl, rfl⟩ | ⟨rfl, rfl⟩ <;>
    exact ⟨rfl, by decide⟩

/-- Settles O18: the run of the one-cycle entry that writes a pair other than `AF`, so that `F` stays. -/
theorem incPairResult : Obligations.IncPairResult := by
  intro i rr hi s hs
  obtain ⟨hentry, haf⟩ := entryOf_incPair hi
  obtain ⟨l, t, hexec, hcompleted, hfetched, hregs⟩ :=
    exec_oneCycle hentry (incPair_eq rr) (onRegs_incPair_fetched rr s) hs
  exact ⟨l, t, hexec, hcompleted, hfetched, hregs, (State.flags_of_moved hregs).trans (State.flags_setPair _ s haf)⟩

/-- Settles O19: the run of the one-cycle entry that writes a pair other than `AF`, so that `F` stays. -/
theorem decPairResult : Obligations.DecPairResult := by
  intro i rr hi s hs
  obtain ⟨hentry, haf⟩ := entryOf_decPair hi
  obtain ⟨l, t, hexec, hcompleted, hfetched, hregs⟩ :=
    exec_oneCycle hentry (decPair_eq rr) (onRegs_decPair_fetched rr s) hs
  exact ⟨l, t, hexec, hcompleted, hfetched, hregs, (State.flags_of_moved hregs).trans (State.flags_setPair _ s haf)⟩

/-! ### `INC` and `DEC` of an index register as they lie in memory -/

/-- `i` adds `d` to the pair `rr`: it is an `INC rr` and `d` is one, or a `DEC rr` and `d` is minus one modulo 65536
(43_incdec R240, R250). -/
def AddsToPair (i : Instr) (rr : Pair) (d : Word) : Prop :=
  (i, rr) ∈ incPairForms ∧ d = 1#16 ∨ (i, rr) ∈ decPairForms ∧ d = 0xffff#16

/-- O18 and O19 as one rule, the decrement as the addition of 0xFFFF (00_scope R7). -/
theorem AddsToPair.exec {i : Instr} {rr : Pair} {d : Word} (h : AddsToPair i rr d) {s : State} (hs : s.ready = true) :
    ∃ (l : TickIn) (t : State), exec i s = .next t ∧ Completed 1 l s t ∧ t.mem = s.mem ∧
      t.regs = (s.setPair rr (s.pair rr + d)).regs.moved 1 s := by
  rcases h with ⟨hi, rfl⟩ | ⟨hi, rfl⟩
  · obtain ⟨l, t, hexec, hcompleted, hfetched, hregs, -⟩ := incPairResult i rr hi s hs
    exact ⟨l, t, hexec, hcompleted, hfetched.mem, hregs⟩
  · obtain ⟨l, t, hexec, hcompleted, hfetched, hregs, -⟩ := decPairResult i rr hi s hs
    exact ⟨l, t, hexec, hcompleted, hfetched.mem, by rw [hregs, BitVec.sub_eq_add_neg]; rfl⟩

/-- The opcode bytes of the increments and decrements under the two prefix bytes (30_encoding R108). -/
theorem decode_incDecIndex {p q : Byte} {rr : Pair} {d : Word}
    (h : (p, q, rr, d) ∈ [(0xdd#8, 0x23#8, Pair.ix, 1#16), (0xdd#8, 0x2b#8, .ix, 0xffff#16),
                          (0xfd#8, 0x23#8, .iy, 1#16), (0xfd#8, 0x2b#8, .iy, 0xffff#16)]) (rest : List Byte) :
    (p = 0xdd#8 ∨ p = 0xfd#8) ∧ ∃ i, decode p (q :: rest) = .ok (i, rest) ∧ AddsToPair i rr d := by
  simp only [List.mem_cons, Prod.mk.injEq, List.not_mem_nil, or_false] at h
  rcases h with ⟨rfl, rfl, rfl, rfl⟩ | ⟨rfl, rfl, rfl, rfl⟩ | ⟨rfl, rfl, rfl, rfl⟩ | ⟨rfl, rfl, rfl, rfl⟩
  · exact ⟨.inl rfl, .incIx, rfl, .inl ⟨by decide, rfl⟩⟩
  · exact ⟨.inl rfl, .decIx, rfl, .inr ⟨by decide, rfl⟩⟩
  · exact ⟨.inr rfl, .incIy, rfl, .inl ⟨by decide, rfl⟩⟩
  · exact ⟨.inr rfl, .decIy, rfl, .inr ⟨by decide, rfl⟩⟩

/-- Moving `PC` and stepping `R` leaves every pair alone (10_state R20). -/
theorem State.pair_of_moved {n : Nat} {s t u : State} (h : t.regs = u.regs.moved n s) (p : Pair) : t.pair p = u.pair p := by
  cases p <;> simp only [State.pair, h, Regs.moved]

/-- Writing a pair after `PC` moved and `R` stepped is writing it before (10_state R20). -/
theorem setPair_regs_of_moved {n : Nat} {s t : State} (h : t.regs = s.regs.moved n s) (rr : Pair) (v : Word) :
    (t.setPair rr v).regs = (s.setPair rr v).regs.moved n s := by
  cases rr <;> simp only [State.setPair, h, Regs.moved]

/-- Two fetches in a row move `PC` by two and step `R` twice (10_state R26, R28). -/
theorem Regs.moved_moved {s t : State} (h : t.regs = s.regs.moved 1 s) (r : Regs) :
    (r.moved 1 s).moved 1 t = { r with pc := s.regs.pc + 2#16, r := refreshNext (refreshNext s.regs.r) } := by
  simp [Regs.moved, h, BitVec.add_assoc]

/-- Settles O31: the step of the prefix byte leaves it pending at the fetch of the opcode byte, which decodes under it to
the increment or decrement that O18 or O19 is about. -/
theorem indexIncDecInMemory : Obligations.IndexIncDecInMemory := by
  intro p q rr d hrow s hs hpending hprefix hopcode
  obtain ⟨hdd, i, hdecode, hadds⟩ := decode_incDecIndex hrow
    [s.mem.read (s.regs.pc + 2#16), s.mem.read (s.regs.pc + 3#16)]
  obtain ⟨t, hstep, hsettled, hready, htpending, hinstrs, hregs, hmem⟩ := step_prefixByte hdd hs hpending hprefix
  obtain ⟨l, u, hexec, hcompleted, humem, huregs⟩ := hadds.exec hready
  have hpc : t.regs.pc = s.regs.pc + 1#16 := congrArg Regs.pc hregs
  rw [← htpending, ← hopcode, ← State.streamBytes_of_moved hregs hmem] at hdecode
  refine ⟨l, t, u, hstep, hsettled, htpending, hinstrs, ?_, hcompleted, humem.trans hmem, ?_, ?_⟩
  · rw [step_of_decode (State.ready_iff.mp hready).1 hdecode, hexec]
  · rw [hcompleted.opacc, hmem, hpc, hopcode]
  · rw [huregs, State.pair_of_moved hregs, setPair_regs_of_moved hregs, Regs.moved_moved hregs]

end Sys2Proof.Machine

namespace Sys2Proof.Machine

/-! ### `RLCA` and `EX AF,AF'` -/

/-- The register file that `RLCA` leaves: `A` and `F` as `rlc8` gives them (44_rlca_ex R260). -/
theorem State.rotateA_regs (s : State) :
    s.rotateA.regs = ((s.setReg8 .a (rlc8 (s.reg8 .a) s.flags).1).setFlags (rlc8 (s.reg8 .a) s.flags).2).regs := rfl

/-- The register file that `EX AF,AF'` leaves: the two values in each other's place (44_rlca_ex R261). -/
theorem State.exchangeAf_regs (s : State) :
    s.exchangeAf.regs = { s.regs with af := s.regs.afShadow, afShadow := s.regs.af } := rfl

/-- `RLCA` does not look at what the opcode fetch moves (10_state R26, R28). -/
theorem onRegs_rotateA_fetched (s : State) :
    onRegs State.rotateA s.regs.fetched = s.rotateA.regs.moved 1 s := rfl

/-- `EX AF,AF'` does not look at what the opcode fetch moves (10_state R26, R28). -/
theorem onRegs_exchangeAf_fetched (s : State) :
    onRegs State.exchangeAf s.regs.fetched = s.exchangeAf.regs.moved 1 s := rfl

/-- Settles O23: the run of the one-cycle entry whose effect is that of `rlc8`, and the table's rows. -/
theorem rotateResult : Obligations.RotateResult := by
  refine ⟨fun s hs => ?_, by decide, by decide⟩
  rw [← State.rotateA_regs]
  exact exec_oneCycle rfl rotateA_eq (onRegs_rotateA_fetched s) hs

/-- Settles O24: the run of the one-cycle entry whose effect is the exchange, and the table's row. -/
theorem exchangeResult : Obligations.ExchangeResult := by
  refine ⟨fun s hs => ?_, by decide⟩
  rw [← State.exchangeAf_regs]
  exact exec_oneCycle rfl exchangeAf_eq (onRegs_exchangeAf_fetched s) hs

end Sys2Proof.Machine

namespace Sys2Proof.Machine

/-! ### The 16-bit adds -/

/-- The register file that `ADD dd,ss` leaves: destination and `F` as `add16` gives them (45_add16 R270). -/
theorem State.addPair_regs (dd ss : Pair) (s : State) :
    (s.addPair dd ss).regs = ((s.setPair dd (add16 (s.pair dd) (s.pair ss) s.flags).1).setFlags
      (add16 (s.pair dd) (s.pair ss) s.flags).2).regs := rfl

/-- The twelve adds are one entry without operand bytes (45_add16 R271 to R284). -/
theorem entryOf_add {i : Instr} {dd ss : Pair} (h : (i, dd, ss) ∈ addForms) :
    (entryOf i).withOperands i.operands = addEntry dd ss := by
  simp only [addForms, List.mem_cons, Prod.mk.injEq, List.not_mem_nil, or_false] at h
  rcases h with ⟨rfl, rfl, rfl⟩ | ⟨rfl, rfl, rfl⟩ | ⟨rfl, rfl, rfl⟩ | ⟨rfl, rfl, rfl⟩ | ⟨rfl, rfl, rfl⟩ | ⟨rfl, rfl, rfl⟩ |
    ⟨rfl, rfl, rfl⟩ | ⟨rfl, rfl, rfl⟩ | ⟨rfl, rfl, rfl⟩ | ⟨rfl, rfl, rfl⟩ | ⟨rfl, rfl, rfl⟩ | ⟨rfl, rfl, rfl⟩ <;> rfl

/-- Settles O25: the run of the entry with two internal cycles, whose effect is that of `add16`. -/
theorem addPairResult : Obligations.AddPairResult := by
  intro i dd ss hi s hs
  obtain ⟨l, t, hrun, hcompleted, hregs, hmem, htmp, haddr, hdata⟩ := run_add dd ss hs
  rw [onRegs_addPair_fetched, State.addPair_regs] at hregs
  exact ⟨l, t, by rw [exec_eq_runInstr, entryOf_add hi, hrun], hcompleted, ⟨hmem, htmp, haddr, hdata⟩, hregs⟩

/-! ### The adds to an index register as they lie in memory -/

/-- The opcode bytes of the adds under the two prefix bytes (30_encoding R108, 45_add16 R276 to R284). -/
theorem decode_addIndex {p q : Byte} {dd ss : Pair}
    (h : (p, q, dd, ss) ∈ [(0xdd#8, 0x09#8, Pair.ix, Pair.bc), (0xdd#8, 0x19#8, .ix, .de),
                           (0xdd#8, 0x29#8, .ix, .ix), (0xdd#8, 0x39#8, .ix, .sp),
                           (0xfd#8, 0x09#8, .iy, .bc), (0xfd#8, 0x19#8, .iy, .de),
                           (0xfd#8, 0x29#8, .iy, .iy), (0xfd#8, 0x39#8, .iy, .sp)]) (rest : List Byte) :
    (p = 0xdd#8 ∨ p = 0xfd#8) ∧ ∃ i, decode p (q :: rest) = .ok (i, rest) ∧ (i, dd, ss) ∈ addForms := by
  simp only [List.mem_cons, Prod.mk.injEq, List.not_mem_nil, or_false] at h
  rcases h with ⟨rfl, rfl, rfl, rfl⟩ | ⟨rfl, rfl, rfl, rfl⟩ | ⟨rfl, rfl, rfl, rfl⟩ | ⟨rfl, rfl, rfl, rfl⟩ |
    ⟨rfl, rfl, rfl, rfl⟩ | ⟨rfl, rfl, rfl, rfl⟩ | ⟨rfl, rfl, rfl, rfl⟩ | ⟨rfl, rfl, rfl, rfl⟩
  · exact ⟨.inl rfl, .addIxBc, rfl, by decide⟩
  · exact ⟨.inl rfl, .addIxDe, rfl, by decide⟩
  · exact ⟨.inl rfl, .addIxIx, rfl, by decide⟩
  · exact ⟨.inl rfl, .addIxSp, rfl, by decide⟩
  · exact ⟨.inr rfl, .addIyBc, rfl, by decide⟩
  · exact ⟨.inr rfl, .addIyDe, rfl, by decide⟩
  · exact ⟨.inr rfl, .addIyIy, rfl, by decide⟩
  · exact ⟨.inr rfl, .addIySp, rfl, by decide⟩

/-- Writing `F` after `PC` moved and `R` stepped is writing it before (10_state R22). -/
theorem setFlags_regs_of_moved {n : Nat} {s t u : State} (h : t.regs = u.regs.moved n s) (f : Byte) :
    (t.setFlags f).regs = (u.setFlags f).regs.moved n s := by
  simp only [State.setFlags, State.setPairLow, State.setPair, State.pairHigh, State.pair_of_moved h, h, Regs.moved]

/-- Adding after `PC` moved and `R` stepped is adding before: no operand is one of the two (45_add16 R270). -/
theorem addPair_regs_of_moved {n : Nat} {s t : State} (h : t.regs = s.regs.moved n s) (dd ss : Pair) :
    (t.addPair dd ss).regs = (s.addPair dd ss).regs.moved n s := by
  rw [State.addPair_regs, State.pair_of_moved h, State.pair_of_moved h, State.flags_of_moved h,
    setFlags_regs_of_moved (setPair_regs_of_moved h dd _), State.addPair_regs]

/-- Settles O33: the step of the prefix byte leaves it pending at the fetch of the opcode byte, which decodes under it to
the add that O25 is about. -/
theorem indexAddInMemory : Obligations.IndexAddInMemory := by
  intro p q dd ss hrow s hs hpending hprefix hopcode
  obtain ⟨hdd, i, hdecode, hform⟩ := decode_addIndex hrow
    [s.mem.read (s.regs.pc + 2#16), s.mem.read (s.regs.pc + 3#16)]
  obtain ⟨t, hstep, hsettled, hready, htpending, hinstrs, hregs, hmem⟩ := step_prefixByte hdd hs hpending hprefix
  obtain ⟨l, u, hexec, hcompleted, hfetched, huregs⟩ := addPairResult i dd ss hform t hready
  rw [← htpending, ← hopcode, ← State.streamBytes_of_moved hregs hmem] at hdecode
  refine ⟨l, t, u, hstep, hsettled, htpending, hinstrs, ?_, hcompleted, hfetched.mem.trans hmem, ?_⟩
  · rw [step_of_decode (State.ready_iff.mp hready).1 hdecode, hexec]
  · rw [huregs, ← State.addPair_regs, addPair_regs_of_moved hregs, Regs.moved_moved hregs, State.addPair_regs]

end Sys2Proof.Machine

namespace Sys2Proof.Machine

/-! ### The stop at an unrecognised opcode under `strict` -/

/-- A frozen engine answers every tick without a reset with `stopped` and stays as it is (40_sequencer R149, 60_exceptions
R300). -/
theorem tick_stopped {l : TickIn} {s : State} (hr : l.reset = false) (hst : s.ctl.stopped = true) :
    tick l s = (s, .stopped) := by
  simp [tick, tickAs, hr, hst]

/-- Settles O30: the run of an unrecognised entry under `strict` ends at the decode point, where the engine is frozen. -/
theorem unrecognisedStrictStops : Obligations.UnrecognisedStrictStops := by
  intro op s hs hpolicy
  obtain ⟨hf, hr, hh⟩ := State.ready_iff.mp hs
  obtain ⟨w, ls, -, -, hends⟩ := ends_strict (entryUnrecognised op) hf hr hh rfl hpolicy
  have hrun := runInstr_of_ends hends (by simp only [Entry.cycles]; omega)
  exact ⟨_, (exec_eq_runInstr (.unrecognised op) s).trans hrun, rfl, rfl, rfl, rfl, rfl, rfl, rfl, rfl, rfl, rfl, rfl,
    fun l hl => tick_stopped hl rfl⟩

/-! ### The interrupt enable flip-flops -/

/-- Settles O51: the reset operation clears both, and no action of an accepted tick writes either. -/
theorem flipFlopsOnlyReset : Obligations.FlipFlopsOnlyReset := by
  intro l s
  rcases tick_state_cases l s with ⟨hr, -, e⟩ | ⟨hr, -, e⟩ | ⟨hr, -, e⟩
  · simp [e, hr, State.resetOp]
  · have huntouched := tickAction_untouched s.seq.opacc l s.acceptTick
    simp [e, hr, huntouched.iff1, huntouched.iff2]
  · simp [e, hr]

/-! ### The interrupt sample and the halt -/

/-- `INTACT`, the halt flag and the `HALT` line: what the interrupt sample can write (60_exceptions R305). -/
def State.sampled (s : State) : IntActive × Bool × Bool := (s.ctl.intact, s.ctl.haltf, s.bus.halt)

/-- The interrupt sample takes an interrupt if an enabled line is asserted, `NMI` before `INT` (60_exceptions R305, R306). -/
theorem State.sample_sampled (l : TickIn) (s : State) :
    (s.sample l).sampled =
      if s.interruptPending l then (if l.nmi then .nmi else .int, false, false) else s.sampled := by
  unfold State.sample State.interruptPending
  cases hen : s.interruptsEnabled l with
  | false => rfl
  | true =>
    cases hnmi : l.nmi with
    | true => rfl
    | false => cases hint : l.int <;> rfl

/-- No effective opcode but 0x0076 is `HALT`'s (30_encoding R108). -/
theorem lookup_ne_halt {op : Word} (h : op ≠ 0x0076#16) : lookup op 0#8 0#8 ≠ .halt := by
  intro hh
  exact h ((lookup_opcode op 0#8 0#8).symm.trans (congrArg Instr.opcode hh))

/-- An entry with a later machine cycle is not `HALT`'s. -/
theorem ne_halt_of_later {op : Word} {n : Nat} {c : Cycle} (hc : (tableEntry op).later[n]? = some c) : op ≠ 0x0076#16 := by
  rintro rfl
  cases hc

/-- Of all effects only `HALT`'s writes the halt flag and line (41_nop_halt_prefix R181). -/
theorem effect_sampled_of_ne_halt {op : Word} (h : op ≠ 0x0076#16) (s : State) :
    ((tableEntry op).effect s).sampled = s.sampled := by
  obtain ⟨g, hg, -⟩ := entryOf_effect _ (lookup_ne_halt h)
  rw [tableEntry, hg]
  rfl

/-- The dispatch enters the halt if `OPACC` is `HALT`'s opcode, and else leaves what the sample made of the three
(40_sequencer R144, R145). -/
theorem dispatchEntry_sampled (op : Word) (s : State) :
    (dispatchEntry (tableEntry op) s).sampled = if op = 0x0076#16 then (s.sampled.1, true, true) else s.sampled := by
  split
  case isTrue hop => subst hop; rfl
  case isFalse hop =>
    have heffect := effect_sampled_of_ne_halt hop s
    unfold dispatchEntry
    split
    · rfl
    · split
      · exact heffect
      · rfl
    · exact heffect

/-- M1 T4 low: the sample, and after it `HALT`'s own completion (40_sequencer R143, 60_exceptions R305). -/
theorem m1T4Low_sampled (op : Word) (l : TickIn) (s : State) :
    (m1T4Low (tableEntry op) l s).sampled =
      if op = 0x0076#16 then ((s.sample l).sampled.1, true, true) else (s.sample l).sampled :=
  dispatchEntry_sampled op { (s.sample l).stepRefresh with bus.rfsh := false }

theorem m1T1Low_sampled (l : TickIn) (s : State) : (m1T1Low l s).sampled = s.sampled := by
  unfold m1T1Low
  split <;> rfl

theorem m1T2Low_sampled (l : TickIn) (s : State) : (m1T2Low l s).sampled = s.sampled := by
  unfold m1T2Low
  split <;> rfl

theorem m1T3Low_sampled (e : Entry) (s : State) : (m1T3Low e s).1.sampled = s.sampled := by
  unfold m1T3Low
  split
  · split <;> rfl
  · rfl
  · rfl

/-- No later machine cycle samples the lines or enters the halt (40_sequencer R150, R155, R158). -/
theorem laterTick_sampled {op : Word} {c : Cycle} {n t : Nat} (hc : (tableEntry op).later[n]? = some c) (ht : t < 4)
    (last : Bool) (l : TickIn) (s : State) : (laterTick (tableEntry op) c last t l s).sampled = s.sampled := by
  apply laterTick_elim (P := fun u => u.sampled = s.sampled) ht
  case hend =>
    intros
    unfold endCycle
    split
    · exact effect_sampled_of_ne_halt (ne_halt_of_later hc) s
    · rfl
  case r1l =>
    intro f hf _ _ _
    obtain ⟨g, k, hfg, -⟩ := tableEntry_latch (hf ▸ hc)
    rw [hfg]
    rfl
  all_goals intros; rfl

/-- Away from M1 T4 low no action samples the lines or enters the halt (60_exceptions R303, R304). -/
theorem tickAction_sampled_elsewhere (op : Word) {l : TickIn} {s : State} (h : ¬ (l.clk = .low ∧ s.seq.step = 3#8)) :
    (tickAction (tableEntry op) l s).1.sampled = s.sampled := by
  apply tickAction_elim (P := fun x => x.1.sampled = s.sampled)
  case h0l => intros; exact m1T1Low_sampled l s
  case h1l => intros; exact m1T2Low_sampled l s
  case h2l => intros; exact m1T3Low_sampled _ s
  case h3l => intro hst hcl; exact absurd ⟨hcl, hst⟩ h
  case hc => intro n c _ hc; exact laterTick_sampled hc (Nat.mod_lt n (by decide)) _ l s
  all_goals intros; rfl

theorem tickAction_m1T4Low (e : Entry) {l : TickIn} {s : State} (hst : s.seq.step = 3#8) (hcl : l.clk = .low) :
    tickAction e l s = (m1T4Low e l s, .ok) := by
  simp [tickAction, hst, hcl]

/-- A tick at the interrupt-sample point: the three as the lines make them, and the halt entered after it if `OPACC` is
`HALT`'s opcode (60_exceptions R305, R306, 40_sequencer R143). -/
theorem tick_sampled {l : TickIn} {s : State} (ha : s.accepts l = true) (hcl : l.clk = .low) (hst : s.seq.step = 3#8) :
    (tick l s).1.sampled =
      if s.seq.opacc = 0x0076#16 then ((s.sample l).sampled.1, true, true) else (s.sample l).sampled := by
  have hcounted : (s.acceptTick.sample l).sampled = (s.sample l).sampled := by
    rw [State.sample_sampled, State.sample_sampled]
    rfl
  rw [tick_of_accepts ha, tickAction_m1T4Low _ (s := s.acceptTick) hst hcl, m1T4Low_sampled, hcounted]

/-- Any other tick without a reset leaves the three as they are (60_exceptions R303, R304). -/
theorem tick_sampled_elsewhere {l : TickIn} {s : State} (hr : l.reset = false)
    (h : ¬ (s.accepts l = true ∧ l.clk = .low ∧ s.seq.step = 3#8)) : (tick l s).1.sampled = s.sampled := by
  rcases tick_state_cases l s with ⟨hr', -, -⟩ | ⟨-, ha, e⟩ | ⟨-, -, e⟩
  · rw [hr] at hr'; cases hr'
  · rw [e]
    exact tickAction_sampled_elsewhere _ (s := s.acceptTick) fun hat => h ⟨ha, hat⟩
  · rw [e]

/-- Settles O57: at M1 T4 low the sample and then the dispatch write the three, and no other tick does. -/
theorem interruptSampleOutcome : Obligations.InterruptSampleOutcome := by
  intro l s hr t here enabled taken halts
  have ht : t.sampled = (t.ctl.intact, t.ctl.haltf, t.bus.halt) := rfl
  by_cases hat : s.accepts l = true ∧ l.clk = .low ∧ s.seq.step = 3#8
  · obtain ⟨ha, hcl, hst⟩ := hat
    have hhere : here = true := by simp [here, ha, hcl, hst]
    have htaken : taken = s.interruptPending l := by simp only [taken, hhere, Bool.true_and]; rfl
    have hhalts : halts = decide (s.seq.opacc = 0x0076#16) := by simp only [halts, hhere, Bool.true_and, beq_eq_decide]
    have hsampled : t.sampled = _ := tick_sampled ha hcl hst
    rw [ht, State.sample_sampled] at hsampled
    rw [htaken, hhalts]
    by_cases hop : s.seq.opacc = 0x0076#16 <;> cases hp : s.interruptPending l <;>
      simpa [hop, hp, State.sampled] using hsampled
  · have hhere : here = false := by simpa [here, and_assoc] using hat
    have hsampled : t.sampled = s.sampled := tick_sampled_elsewhere hr hat
    rw [ht] at hsampled
    simpa [taken, halts, hhere, State.sampled] using hsampled

/-! ### Where `INT`, `NMI` and `BUSREQ` are looked at -/

/-- Outside the halt M1 T1 low goes on whatever the interrupt lines are (40_sequencer R135). -/
theorem m1T1Low_interruptLines (l : TickIn) {s : State} (hh : s.ctl.haltf = false) (i n b : Bool) :
    m1T1Low { l with int := i, nmi := n, busreq := b } s = m1T1Low l s := by
  simp [m1T1Low, hh]

/-- Away from M1 T4 low, and from M1 T1 low of the halt, no action looks at the interrupt lines or at `BUSREQ`
(60_exceptions R304). -/
theorem tickAction_interruptLines (e : Entry) {l : TickIn} {s : State} (i n b : Bool)
    (h : ¬ (l.clk = .low ∧ (s.seq.step = 3#8 ∨ (s.seq.step = 0#8 ∧ s.ctl.haltf = true)))) :
    tickAction e { l with int := i, nmi := n, busreq := b } s = tickAction e l s := by
  unfold tickAction
  simp only
  split
  case h_2 hst hcl =>
    have hh : s.ctl.haltf = false :=
      Bool.eq_false_iff.mpr fun hh => h ⟨hcl, .inr ⟨BitVec.eq_of_toNat_eq hst, hh⟩⟩
    rw [m1T1Low_interruptLines l hh]
  case h_8 hst hcl => exact absurd ⟨hcl, .inl (BitVec.eq_of_toNat_eq hst)⟩ h
  all_goals rfl

/-- Settles O58: a tick reads these lines in its action only, and the action only at the two points. -/
theorem interruptLinesOnlyAtTheirPoints : Obligations.InterruptLinesOnlyAtTheirPoints := by
  intro l s h i n b
  exact tick_congr rfl rfl fun ha =>
    tickAction_interruptLines _ (s := s.acceptTick) i n b fun ⟨hcl, hpoint⟩ => h ⟨ha, hcl, hpoint⟩

end Sys2Proof.Machine

namespace Sys2Proof.Machine

/-! ### Every instruction completes -/

/-- `i` runs from `s` to the end of its last machine cycle, in `cycles` machine cycles, with `PC` past `bytes` bytes and `R`
stepped once (70_reset R360, R361). -/
def CompletesIn (i : Instr) (s : State) (cycles bytes : Nat) : Prop :=
  ∃ t : State, exec i s = .next t ∧ Settled cycles s t ∧
    t.regs.pc = s.regs.pc + BitVec.ofNat 16 bytes ∧ t.regs.r = refreshNext s.regs.r

theorem CompletesIn.of_moved {i : Instr} {s t : State} {n k : Nat} {r : Regs} (hexec : exec i s = .next t)
    (hsettled : Settled n s t) (hregs : t.regs = r.moved k s) : CompletesIn i s n k :=
  ⟨t, hexec, hsettled, congrArg Regs.pc hregs, congrArg Regs.r hregs⟩

/-- The opcode fetch is all there is to an entry without a later machine cycle, whatever its class and effect
(40_sequencer R144, R147). -/
theorem completesIn_of_oneCycle {i : Instr} {s : State} (hlater : (entryOf i).later = []) (hoperands : i.operands = [])
    (hs : s.ready = true) (hpolicy : s.cfg.policy = .noop) : CompletesIn i s 1 1 := by
  have hexec : exec i s = runInstr (entryOf i) s := by
    rw [exec_eq_runInstr, hoperands, Entry.withOperands, hlater, fillOperands, ← hlater]
  rcases entryOf_kind i with hkind | ⟨hkind, -, heffect⟩ | ⟨op, rfl, -⟩
  · by_cases hhalt : i = .halt
    · subst hhalt
      obtain ⟨l, t, hrun, hsettled, -, -, -, -, -, -, hregs⟩ := haltResult s hs
      exact .of_moved hrun hsettled hregs
    · obtain ⟨g, hg, hkeeps⟩ := entryOf_effect i hhalt
      obtain ⟨l, t, hrun, hcompleted, hregs, -⟩ := run_oneCycle g hg hs
      have hentry : entryOf i = oneCycle (entryOf i).effect := by rw [oneCycle, ← hkind, ← hlater]
      obtain ⟨hpc, -, hr, -⟩ := hkeeps s.regs.fetched
      rw [← hregs] at hpc hr
      exact ⟨t, by rw [hexec, hentry, hrun], hcompleted.toSettled, hpc, hr⟩
  · obtain ⟨l, t, hrun, hsettled, -, -, -, -, -, hregs, -⟩ := run_pending (entryOf i) hkind hlater heffect hs
    exact .of_moved (hexec.trans hrun) hsettled (hregs.trans s.fetched_eq_moved)
  · obtain ⟨l, t, hrun, hsettled, -, -, -, -, -, -, hregs⟩ := unrecognisedNoopResult op s hs hpolicy
    exact .of_moved hrun hsettled hregs

/-- An instruction has one machine cycle and no operand byte, or it is a load of an immediate, a store or a 16-bit add
(40_sequencer R146). -/
theorem oneCycle_or_form (i : Instr) :
    ((entryOf i).later = [] ∧ i.operands = []) ∨ (∃ n r, (i, r) ∈ loadRegForms n) ∨ (∃ nn rr, (i, rr) ∈ loadPairForms nn) ∨
      (∃ rr, (i, rr) ∈ storeForms) ∨ (∃ dd ss, (i, dd, ss) ∈ addForms) := by
  cases i
  case ldBN | ldCN | ldDN | ldEN | ldHN | ldLN | ldAN => exact .inr (.inl (by simp [loadRegForms]))
  case ldBcNn | ldDeNn | ldHlNn | ldSpNn | ldIxNn | ldIyNn => exact .inr (.inr (.inl (by simp [loadPairForms])))
  case ldAtBcA | ldAtDeA | ldAtHlA => exact .inr (.inr (.inr (.inl (by simp [storeForms]))))
  case addHlBc | addHlDe | addHlHl | addHlSp | addIxBc | addIxDe | addIxIx | addIxSp | addIyBc | addIyDe | addIyIy | addIySp =>
    exact .inr (.inr (.inr (.inr (by simp [addForms]))))
  all_goals exact .inl ⟨rfl, rfl⟩

/-- The twelve adds have three machine cycles and no operand byte (45_add16 R270). -/
theorem addForms_shape : ∀ x ∈ addForms, (entryOf x.1).cycles = 3 ∧ x.1.body.length = 1 := by decide

/-- Settles O43: an instruction of one machine cycle by its fetch alone, the others by what O20, O21, O22 and O25 say. -/
theorem everyInstructionCompletes : Obligations.EveryInstructionCompletes := by
  intro i s _ hs hm hpolicy
  change CompletesIn i s (entryOf i).cycles i.body.length
  rcases oneCycle_or_form i with ⟨hlater, hoperands⟩ | ⟨n, r, hi⟩ | ⟨nn, rr, hi⟩ | ⟨rr, hi⟩ | ⟨dd, ss, hi⟩
  · rw [Entry.cycles, Instr.body, hlater, hoperands]
    exact completesIn_of_oneCycle hlater hoperands hs hpolicy
  · obtain ⟨hentry, hoperands⟩ := entryOf_loadReg hi
    obtain ⟨l, t, hexec, hcompleted, hregs, -⟩ := loadRegisterResult n i r hi s hs
    rw [hentry, Instr.body, hoperands]
    exact .of_moved hexec hcompleted.toSettled hregs
  · obtain ⟨hentry, hoperands, -⟩ := entryOf_loadPair hi
    obtain ⟨l, t, hexec, hcompleted, hregs, -⟩ := loadPairResult nn i rr hi s hs
    rw [hentry, Instr.body, hoperands]
    exact .of_moved hexec hcompleted.toSettled hregs
  · obtain ⟨hentry, hoperands⟩ := entryOf_store hi
    obtain ⟨l, t, hexec, hcompleted, hregs, -⟩ := storeResult i rr hi s hs hm
    rw [hentry, Instr.body, hoperands]
    exact .of_moved hexec hcompleted.toSettled hregs
  · obtain ⟨hcycles, hlength⟩ := addForms_shape (i, dd, ss) hi
    obtain ⟨l, t, hexec, hcompleted, -, hregs⟩ := addPairResult i dd ss hi s hs
    rw [hcycles, hlength]
    exact .of_moved hexec hcompleted.toSettled hregs

end Sys2Proof.Machine

namespace Sys2Proof.Machine

/-! ### The reset operation -/

/-- Settles O45: the operation is written as a whole state, and the assignments of R340 give that state. -/
theorem resetAssignments : Obligations.ResetAssignments := fun _ => rfl

/-- Nothing the reset operation assigns depends on what it assigns (70_reset R343). -/
@[simp] theorem State.resetOp_resetOp (s : State) : s.resetOp.resetOp = s.resetOp := rfl

/-- The state after a reset that follows power-on is a reset state (10_state R56). -/
theorem State.resetOp_reset : State.reset.resetOp = State.reset := rfl

/-- A reset state is at a fetch: it has the `STEP`, `PH` and lines of one, and no byte pending (10_state R56). -/
theorem State.resetOp_atFetch (s : State) : s.resetOp.atFetch = true := by
  simp [State.atFetch, State.resetOp, State.pendingByte, isPendingByte, hiByte]

/-- A reset state is ready where the schedule holds no further reset (70_reset R345). -/
theorem State.resetOp_ready {s : State} (h : s.noReset = true) : s.resetOp.ready = true :=
  State.ready_iff.mpr ⟨s.resetOp_atFetch, h, rfl⟩

/-- The first tick after a reset is M1 T1 high of a fetch at 0x0000 (70_reset R345). -/
theorem tick_resetOp {l : TickIn} (hclk : l.clk = .high) (hr : l.reset = false) (s : State) :
    tick l s.resetOp = (m1T1High s.resetOp.acceptTick, .ok) := by
  rw [tick_of_accepts ((State.accepts_iff l s.resetOp).mpr ⟨hr, rfl, hclk⟩)]
  exact tickAction_m1T1High _ rfl hclk

/-- Settles O40: the state after power-on is the reset of itself, so that the facts about every reset state hold of it. -/
theorem resetIsReadyWithInvariant : Obligations.ResetIsReadyWithInvariant := by
  refine ⟨?_, rfl, ?_, fun s => ⟨inv_resetOp s, State.resetOp_ready, fun l hclk hr => ?_⟩⟩
  · rw [← State.resetOp_reset]
    exact inv_resetOp State.reset
  · rw [← State.resetOp_reset]
    exact State.resetOp_ready rfl
  · rw [tick_resetOp hclk hr]
    rfl

/-- Settles O46: a reset tick is the reset operation by the order of evaluation, and the operation is idempotent. -/
theorem resetIdempotentAndTotal : Obligations.ResetIdempotentAndTotal := by
  refine fun s => ⟨s.resetOp_resetOp, fun l hr => ?_⟩
  have htick (u : State) : tick l u = (u.resetOp, .reset) := (tickOrderOfEvaluation l u).1 hr
  exact ⟨htick s, by rw [htick s, htick, State.resetOp_resetOp]⟩

end Sys2Proof.Machine
